-- ==== Sys2Proof/Word.lean ====
section
/-! DEFINITION. Word.lean: the word types of the VB4160. Only what the manual treats as bits is a bit vector: the
bytes of the serial port and of the payloads, the 16-bit checks and command fields, the 10-bit buffer offset and the
6-bit register address. Keys, sequences, cell and sector numbers and counts are natural numbers. -/

namespace Sys2Proof

/-- A byte of the serial port, of a staging buffer or of a payload. -/
abbrev Byte := BitVec 8

/-- A two-byte value: a check of R3, CMD_KEY, CMD_LEN. -/
abbrev Half := BitVec 16

/-- A register address within a bank of 64 (R209). -/
abbrev RegAddr := BitVec 6

/-- An offset in a staging buffer of 1024 bytes (R160). -/
abbrev BufOffset := BitVec 10

end Sys2Proof
end

