-- ==== Sys2Proof/Machine/Types.lean ====
section
/-! DEFINITION. Machine/Types.lean: the data of the twelve blocks of 00_scope.md, one structure a block, all plain
data. Each type names the rules it holds. What the blocks DO is in the files beside this one. -/

namespace Sys2Proof.Machine

/-! ### The cell array (01_the_cell_array.md) -/

/-- The values of a cell's state field in the order of R5. -/
inductive CellState where
  | blank
  | written
  | committed
  | retired
  | faulty
  deriving DecidableEq, Repr, Inhabited

/-- The fields of a cell header, R2, with the two checks of R3. `recLen` is present in fragment 0 only. -/
structure CellHeader where
  key : Nat
  seq : Nat
  frag : Nat
  count : Nat
  recLen : Option Nat
  payLen : Nat
  payCheck : Half
  check : Half
  deriving DecidableEq, Repr, Inhabited

/-- The header area of a cell: fully erased, programmed so that its fields can be named, or programmed so that no
fields can be read from it. Whether named fields make the cell READABLE is the test of R4. -/
inductive HeaderArea where
  | erased
  | fields (h : CellHeader)
  | garbled
  deriving DecidableEq, Repr, Inhabited

/-- One cell of the array, R1: its header, its state field and its 64 payload bytes. -/
structure Cell where
  header : HeaderArea
  state : CellState
  payload : List Byte
  deriving DecidableEq, Repr, Inhabited

/-- The four states a readable sector header can show, R7, in the order of the rule. -/
inductive SectorState where
  | ready
  | inUse
  | reclaiming
  | worn
  deriving DecidableEq, Repr, Inhabited

/-- The fields of a sector header, R6. -/
structure SectorHeader where
  state : SectorState
  epoch : Nat
  erases : Nat
  check : Half
  deriving DecidableEq, Repr, Inhabited

/-- The header area of a sector: fully erased, programmed with fields, or programmed so that no fields can be read
(the erase mark of R6 among these). -/
inductive SectorArea where
  | erased
  | fields (h : SectorHeader)
  | garbled
  deriving DecidableEq, Repr, Inhabited

/-- The nonvolatile array, R1. `cells` lists, in strictly rising cell number, every cell that is not the blank cell;
`sectors` holds the 32 sector headers. -/
structure CellArray where
  cells : List (Nat × Cell)
  sectors : List SectorArea
  deriving DecidableEq, Repr, Inhabited

/-- The three conditions of a fragment read, R4. -/
inductive Condition where
  | blank
  | readable
  | torn
  deriving DecidableEq, Repr, Inhabited

/-- What a fragment read returns, R9: the condition, the state field, the header fields of a READABLE cell and the
64 payload bytes. -/
structure ReadOutcome where
  cond : Condition
  state : CellState
  header : Option CellHeader
  payload : List Byte
  deriving DecidableEq, Repr, Inhabited

/-- The outcomes of programs, advances and erases in the table of 01_the_cell_array.md. ABANDONED is R198. -/
inductive ArrayOutcome where
  | done
  | failed
  | notAdvanced
  | abandoned
  deriving DecidableEq, Repr, Inhabited

/-- What the array physically answers to the verify of a cell program (R10, R11): it matches, or it does not and the
FAULTY mark that follows holds or not. -/
inductive ProgramResult where
  | verified
  | failed (markHeld : Bool)
  deriving DecidableEq, Repr, Inhabited

/-- What the array physically answers to the verify of a state advance (R12 to R14): it matches; or it does not, the
FAULTY mark that follows a cell's failed advance holds or not, and `left` is the rank of the state the field is left
reading where no mark holds. -/
inductive AdvanceResult where
  | verified
  | failed (markHeld : Bool) (left : Nat)
  deriving DecidableEq, Repr, Inhabited

/-- What a sector header reads after a header phase whose verify failed (R16). -/
inductive HeaderLeft where
  | reads (state : SectorState)
  | torn
  | erased
  deriving DecidableEq, Repr, Inhabited

/-- What the array physically answers to the verify of the header phase of an erase (R15, R16). -/
inductive EraseResult where
  | verified
  | failed (left : HeaderLeft)
  deriving DecidableEq, Repr, Inhabited

/-! ### The array controller (01, 10) -/

/-- The three requesters of R8. -/
inductive Requester where
  | engine
  | reclaimer
  | scanner
  deriving DecidableEq, Repr, Inhabited

/-- The parameters of a cell program, R10. `check` is given by the Reclaimer only. -/
structure Program where
  cell : Nat
  state : CellState
  key : Nat
  seq : Nat
  frag : Nat
  count : Nat
  recLen : Option Nat
  payLen : Nat
  payload : List Byte
  check : Option Half
  deriving DecidableEq, Repr, Inhabited

/-- An array request: the operation, its target and its parameters (R8). `restoreHeader` is the sector erase that
begins at its header phase, R185. -/
inductive ArrayOp where
  | read (cell : Nat)
  | headerRead (sector : Nat)
  | program (p : Program)
  | advanceCell (cell : Nat) (target : CellState)
  | advanceHeader (sector : Nat) (target : SectorState)
  | erase (sector epoch erases : Nat)
  | restoreHeader (sector epoch erases : Nat)
  deriving DecidableEq, Repr, Inhabited

/-- The phase of the operation in progress: an erase is in its erase phase until its blank verify has ended, and then
in its header phase with that verify's answer (R15, R197). Every other operation has one phase. -/
inductive Phase where
  | single
  | erasePhase
  | headerPhase (blankVerified : Bool)
  deriving DecidableEq, Repr, Inhabited

/-- The operation that holds the port, R18. -/
structure Operation where
  who : Requester
  op : ArrayOp
  phase : Phase
  suspendCount : Nat
  deriving DecidableEq, Repr, Inhabited

/-- The Array Controller, R18: the operation on the port; the suspended erase, when an erase is suspended; the one
waiting request of each requester (R8); the pass counter; the quiesce condition. -/
structure Controller where
  op : Option Operation
  paused : Option Operation
  waitEngine : Option ArrayOp
  waitReclaimer : Option ArrayOp
  waitScanner : Option ArrayOp
  pass : Nat
  quiesced : Bool
  deriving DecidableEq, Repr, Inhabited

/-! ### The sector table (04) -/

/-- The state of a sector record, R65. -/
inductive RecState where
  | unscanned
  | ready
  | inUse
  | reclaiming
  | worn
  | torn
  | blankHeader
  | erasePending
  | abandoned
  deriving DecidableEq, Repr, Inhabited

/-- The role of a sector, R65. -/
inductive Role where
  | none
  | isOpen
  | readyQueued
  | victim
  deriving DecidableEq, Repr, Inhabited

/-- One sector record, R65. `faultyCount` is the faulty count. It is the size of the faulty set `faulty`, but for the
recovery scan, which fills the set in step 3 (R175) and keeps the counts of R66 until step 8 (R173): DEDUCED,
notes/assumptions/25.md. -/
structure SectorRec where
  state : RecState
  epoch : Nat
  erases : Nat
  role : Role
  blank : Nat
  live : Nat
  dead : Nat
  faultyCount : Nat
  faulty : List Nat
  pinned : Bool
  deriving DecidableEq, Repr, Inhabited

/-- A claim for cells, R71. -/
structure Claim where
  who : Requester
  count : Nat
  deriving DecidableEq, Repr, Inhabited

/-- The Sector Table, R65 to R82: the 32 records, the allocation cursor, the ready-sector queue, the claim list and
SECTOR_SEL. The open sector is the one whose role is OPEN. -/
structure SectorTable where
  recs : List SectorRec
  cursor : Nat
  queue : List Nat
  claims : List Claim
  sel : Nat
  deriving DecidableEq, Repr, Inhabited

/-! ### The key index (03) -/

/-- An index entry, R47. -/
structure IndexEntry where
  key : Nat
  seq : Nat
  len : Nat
  count : Nat
  map : List Nat
  deriving DecidableEq, Repr, Inhabited

/-! ### Commands and completions (06, 07) -/

/-- A staging buffer. -/
inductive Buf where
  | bufA
  | bufB
  deriving DecidableEq, Repr, Inhabited

/-- The seven command kinds, R112. -/
inductive Kind where
  | store
  | fetch
  | drop
  | probe
  | next
  | reclaim
  | format
  deriving DecidableEq, Repr, Inhabited

/-- The completion statuses, R122. -/
inductive Status where
  | done
  | notFound
  | noSpace
  | indexFull
  | arrayFault
  | dataCheck
  | seqExhausted
  | epochExhausted
  | cancelled
  | nothingToDo
  deriving DecidableEq, Repr, Inhabited

/-- A command as the Command Queue holds it, R113: absent fields are not held. -/
structure Command where
  tag : Byte
  kind : Kind
  key : Option Nat
  len : Option Nat
  buf : Option Buf
  deriving DecidableEq, Repr, Inhabited

/-- A completion entry, R120. -/
structure Completion where
  tag : Byte
  kind : Kind
  status : Status
  key : Nat
  len : Nat
  seq : Option Nat
  frags : Nat
  deriving DecidableEq, Repr, Inhabited

/-- The Command Queue block: the command fields (R111), the queue (R115) and the two result registers (R114, R129). -/
structure CommandQueue where
  tag : Byte
  key : Half
  len : Half
  buf : Byte
  queue : List Command
  submitResult : Byte
  cancelResult : Byte
  deriving DecidableEq, Repr, Inhabited

/-! ### The record engine (02, 06, 07) -/

/-- The engine states, R117. -/
inductive EngineState where
  | idle
  | running
  | waitSpace
  | holding
  deriving DecidableEq, Repr, Inhabited

/-- The phases of a STORE, R132. -/
inductive StorePhase where
  | reserving
  | waiting
  | programming
  | committing
  | retiring
  | cleaning
  deriving DecidableEq, Repr, Inhabited

/-- The working state of a STORE, R132. `toRetire` lists the cells RETIRING or CLEANING has still to retire, the one
whose advance is asked for at its head; `ending` is the status CLEANING ends with. -/
structure StoreWork where
  phase : StorePhase
  replaces : Bool
  seq : Nat
  count : Nat
  map : List Nat
  next : Nat
  fails : Nat
  oldMap : Option (List Nat)
  toRetire : List Nat
  ending : Status
  deriving DecidableEq, Repr, Inhabited

/-- The working state of a FETCH, R132. -/
structure FetchWork where
  seq : Nat
  len : Nat
  count : Nat
  map : List Nat
  next : Nat
  readOnce : Bool
  delivered : Nat
  deriving DecidableEq, Repr, Inhabited

/-- The working state of a DROP, R132: the head its lookup named, the removed map once the head retirement is
granted, and the cells still to retire, the one asked for at the head. -/
structure DropWork where
  head : Nat
  removed : Option (List Nat)
  toRetire : List Nat
  deriving DecidableEq, Repr, Inhabited

/-- The working state of a FORMAT, R132: `erasing` is false in STOPPING and true in ERASING. -/
structure FormatWork where
  erasing : Bool
  next : Nat
  deriving DecidableEq, Repr, Inhabited

/-- The working state of the command in progress, by kind, R132. -/
inductive Work where
  | none
  | store (w : StoreWork)
  | fetch (w : FetchWork)
  | drop (w : DropWork)
  | reclaim (answered : Bool)
  | format (w : FormatWork)
  deriving DecidableEq, Repr, Inhabited

/-- A held completion, R117, with the buffer of its command (R126). -/
structure Held where
  entry : Completion
  buf : Option Buf
  deriving DecidableEq, Repr, Inhabited

/-- The Record Engine, R117. `seqNext` is 0 for no value, 1 to 4,294,967,295, and 4,294,967,296 for EXHAUSTED (R29);
`epoch` is 0 for no value (R31). -/
structure Engine where
  state : EngineState
  cmd : Option Command
  work : Work
  held : Option Held
  seqNext : Nat
  epoch : Nat
  deriving DecidableEq, Repr, Inhabited

/-! ### The reclaimer (05) -/

/-- The Reclaimer's states, R83, R84. -/
inductive ReclaimState where
  | idle
  | marking
  | moving
  | draining
  | erasing
  | halted
  deriving DecidableEq, Repr, Inhabited

/-- The halt cause, R83. -/
inductive HaltCause where
  | none
  | faults
  | empty
  deriving DecidableEq, Repr, Inhabited

/-- The engine request the Reclaimer holds, R83: a demand is held as taken (R88), a reclaim request waiting or taken
(R89). -/
inductive EngineRequest where
  | none
  | demandTaken
  | reclaimWaiting
  | reclaimTaken
  deriving DecidableEq, Repr, Inhabited

/-- The relocation in progress, R83. `refused` marks one the index has answered REFUSED and whose copy is being
retired (R97): it is no longer one that a DROP's removal answers (R58). -/
structure Relocation where
  source : Nat
  reading : Option ReadOutcome
  copy : Option Nat
  refused : Bool
  deriving DecidableEq, Repr, Inhabited

/-- The Reclaimer, R83. -/
structure Reclaimer where
  state : ReclaimState
  victim : Option Nat
  cursor : Nat
  faults : Nat
  cause : HaltCause
  reloc : Option Relocation
  request : EngineRequest
  barred : Bool
  deriving DecidableEq, Repr, Inhabited

/-! ### Staging buffers (08) -/

/-- The owner of a buffer, R154. -/
inductive Owner where
  | host
  | engine
  deriving DecidableEq, Repr, Inhabited

/-- The Staging Buffers block, R154, R160, R161. -/
structure Staging where
  bytesA : List Byte
  bytesB : List Byte
  ownerA : Owner
  ownerB : Owner
  select : Buf
  offset : BufOffset
  conflict : Bool
  deriving DecidableEq, Repr, Inhabited

/-! ### The recovery scanner (09) -/

/-- The ten steps of the recovery scan (R172), before it and after it. -/
inductive ScanStep where
  | waiting
  | headers
  | epoch
  | cells
  | records
  | indexStep
  | sequence
  | sectors
  | allocation
  | ready
  | handOver
  | finished
  deriving DecidableEq, Repr, Inhabited

/-- What step 1 found of a sector header, R173. -/
inductive HeaderFound where
  | unread
  | blank
  | torn
  | readable (state : SectorState) (epoch erases : Nat)
  deriving DecidableEq, Repr, Inhabited

/-- What step 3 found of a cell that is not BLANK, R175. -/
structure CellFound where
  cell : Nat
  cond : Condition
  state : CellState
  header : Option CellHeader
  deriving DecidableEq, Repr, Inhabited

/-- The report kinds, R192. -/
inductive ReportKind where
  | tornCell
  | orphan
  | superseded
  | incompleteRecord
  | indexOverflow
  | tornSector
  | oldEpoch
  | headerRestored
  | reclaimResumed
  | recoveryFault
  deriving DecidableEq, Repr, Inhabited

/-- A report entry, R192. -/
structure Report where
  kind : ReportKind
  num : Nat
  key : Option Nat
  seq : Option Nat
  deriving DecidableEq, Repr, Inhabited

/-- The cause of the latest reset, R166. -/
inductive StartCause where
  | powerOn
  | pin
  | soft
  deriving DecidableEq, Repr, Inhabited

/-- The Recovery Scanner, R172: step, position, findings, retirement list, chosen live generations, the report ring
with its lost count (R193), and START_CAUSE. -/
structure Scanner where
  step : ScanStep
  pos : Nat
  headers : List HeaderFound
  found : List CellFound
  retire : List (Nat × CellState)
  chosen : List IndexEntry
  ring : List Report
  lost : Nat
  cause : StartCause
  deriving DecidableEq, Repr, Inhabited

/-! ### Resets, supply, power-fail monitor (09, 10) -/

/-- The supply, the RESET# level and the reset holds of R166. `starting` and `ready` of R171 are read from
`running` and `isReady`: while a hold stands the device state is neither. -/
structure Power where
  supply : Bool
  supplyHold : Bool
  resetLow : Bool
  softHold : Bool
  isReady : Bool
  deriving DecidableEq, Repr, Inhabited

/-- The Power-Fail Monitor, R195: the level PFW# stands at and the monitor's level. -/
structure PowerFail where
  pinLow : Bool
  asserted : Bool
  deriving DecidableEq, Repr, Inhabited

/-! ### The serial port and the register window (11) -/

/-- The open frame, R209: none open; opened and waiting for its control byte; decoded; or a frame that is not decoded
(R168, R214). `bank` is true for bank 1. -/
inductive Frame where
  | closed
  | control
  | data (read : Bool) (bank : Bool) (addr : RegAddr)
  | undecoded
  deriving DecidableEq, Repr, Inhabited

/-- The Serial Port, R209 to R214: the frame, the STATUS byte latched at its start, the byte last shifted out, the
RECLAIM_LOW bytes collected in the frame (R213), and the register groups the frame has taken (R212), each under its
bank and first address. -/
structure Port where
  frame : Frame
  statusOut : Byte
  out : Byte
  lowByte : Option Byte
  highByte : Option Byte
  taken : List ((Bool × RegAddr) × List Byte)
  deriving DecidableEq, Repr, Inhabited

/-- The sticky interrupt flags and the mask, R221, R223. The level flags follow their causes. -/
structure Interrupts where
  ready : Bool
  fault : Bool
  space : Bool
  mask : Byte
  deriving DecidableEq, Repr, Inhabited

/-- CONFIG (R218) and RECLAIM_LOW (R85). -/
structure Settings where
  background : Bool
  suspend : Bool
  reclaimLow : Nat
  deriving DecidableEq, Repr, Inhabited

end Sys2Proof.Machine
end

