-- ==== Sys2Proof/Syntax.lean ====
section
/-! DEFINITION. Syntax.lean: the commands of the block, one constructor for each row of spec/opcode_table.json, with
the byte the host writes or the physical answer of the array as its operand. -/

namespace Sys2Proof

open Machine

/-- The commands and events of the VB4160. The byte rows are bytes of the serial port; the completion rows are the
ends of array operations, whose operand is what the verify of the operation met in the array. -/
inductive Instr where
  /-- POWER_ON (R166): the supply rises into its operating range. -/
  | powerOn
  /-- POWER_ON_HOLD_END (R168): the supply has been in range long enough. -/
  | powerOnHoldEnd
  /-- PIN_RESET (R166): a falling edge of RESET#. -/
  | pinReset
  /-- RESET_RELEASE (R168): a rising edge of RESET#. -/
  | resetRelease
  /-- SOFT_RESET (R169): the byte `v`, with bit 0 set, written to CONTROL. -/
  | softReset (v : Byte)
  /-- PFW_ASSERTION (R196): a falling edge of PFW#. -/
  | pfwAssertion
  /-- PFW_DEASSERTION (R200): a rising edge of PFW#. -/
  | pfwDeassertion
  /-- CONTROL_BYTE (R209): the first byte of a frame. -/
  | controlByte (v : Byte)
  /-- FRAME_END (R213): chip select rises. -/
  | frameEnd
  /-- STORE (R133): 1 written to SUBMIT. -/
  | store
  /-- FETCH (R139): 2 written to SUBMIT. -/
  | fetch
  /-- DROP (R143): 3 written to SUBMIT. -/
  | drop
  /-- PROBE (R144): 4 written to SUBMIT. -/
  | probe
  /-- NEXT (R145): 5 written to SUBMIT. -/
  | next
  /-- RECLAIM (R146): 6 written to SUBMIT. -/
  | reclaim
  /-- FORMAT (R148): 7 written to SUBMIT. -/
  | format
  /-- BAD_KIND (R112): a byte that is no kind code written to SUBMIT. -/
  | badKind (v : Byte)
  /-- CANCEL (R127): a tag written to CANCEL. -/
  | cancel (tag : Byte)
  /-- COMP_POP (R125): a byte, whatever its value, written to COMP_POP. -/
  | compPop (v : Byte)
  /-- REPORT_POP (R194): a byte, whatever its value, written to REPORT_POP. -/
  | reportPop (v : Byte)
  /-- IRQ_FLAGS_WRITE (R222). -/
  | irqFlagsWrite (v : Byte)
  /-- BUF_FLAGS_WRITE (R161). -/
  | bufFlagsWrite (v : Byte)
  /-- BUF_DATA_WRITE (R158). -/
  | bufDataWrite (v : Byte)
  /-- BUF_DATA_READ (R159). -/
  | bufDataRead
  /-- CONFIG_WRITE (R218). -/
  | configWrite (v : Byte)
  /-- IRQ_MASK_WRITE (R223). -/
  | irqMaskWrite (v : Byte)
  /-- RECLAIM_LOW_WRITE (R213): a byte written to the low or the high byte of RECLAIM_LOW. -/
  | reclaimLowWrite (v : Byte)
  /-- REGISTER_WRITE (R213): a byte written at the current address of a write frame. -/
  | registerWrite (v : Byte)
  /-- FRAGMENT_READ_COMPLETE (R9). -/
  | fragmentReadComplete
  /-- HEADER_READ_COMPLETE (R173). -/
  | headerReadComplete
  /-- CELL_PROGRAM_COMPLETE (R10). -/
  | cellProgramComplete (r : ProgramResult)
  /-- STATE_ADVANCE_COMPLETE (R12). -/
  | stateAdvanceComplete (r : AdvanceResult)
  /-- ERASE_PHASE_END (R15): the blank verify of an erase ends, passed or failed. -/
  | erasePhaseEnd (blankVerified : Bool)
  /-- SECTOR_ERASE_COMPLETE (R15). -/
  | sectorEraseComplete (r : EraseResult)
  /-- FRAME_BEGIN (R209): chip select falls. -/
  | frameBegin
  /-- SUPPLY_LOSS (R208): the supply falls out of its operating range. -/
  | supplyLoss
  deriving DecidableEq, Repr

end Sys2Proof
end

