-- ==== Sys2Proof/Decode.lean ====
section
/-! DEFINITION. Decode.lean: the table of this block gives none of its rows a bit: no row has "fixed" or "fields" in
spec/opcode_table.json. So no word spells a command. Which byte of a frame is which command is decided by the port
(Machine/PortOps.lean), from R209 to R211. -/

namespace Sys2Proof

/-- The command a word of `nbits` bits spells by the table's bits. No row of the table gives bits, so none does. -/
def decodeTableWord (_nbits _w : Nat) : Option Instr := none

end Sys2Proof
end

