-- ==== Sys2Proof/Machine/Check.lean ====
section
/-! DEFINITION. Machine/Check.lean: the 16-bit cyclic check of R3 and R6, and the little-endian bytes it is taken
over. -/

namespace Sys2Proof.Machine

/-- The little-endian bytes of a value, `width` of them: the byte at the lower place is the least significant. -/
def leBytes : Nat → Nat → List Byte
  | 0, _ => []
  | width + 1, n => BitVec.ofNat 8 n :: leBytes width (n / 256)

/-- One bit of the check: generator x^16 + x^12 + x^5 + 1, most significant bit first (R3). -/
def crcBit (c : Half) : Half := if c.msb then (c <<< 1) ^^^ 0x1021#16 else c <<< 1

/-- One byte of the check (R3). -/
def crcByte (c : Half) (b : Byte) : Half :=
  crcBit (crcBit (crcBit (crcBit (crcBit (crcBit (crcBit (crcBit (c ^^^ (b.setWidth 16 <<< 8)))))))))

/-- R3: the check over bytes, starting from FFFFh, with no inversion at the end. -/
def check16 (bytes : List Byte) : Half := bytes.foldl crcByte 0xFFFF#16

/-- R3: the 13 bytes of a cell header that its check covers, in the order of the table of R2. -/
def headerBytes (h : CellHeader) : List Byte :=
  leBytes 2 h.key ++ leBytes 4 h.seq ++ leBytes 1 h.frag ++ leBytes 1 h.count ++ leBytes 2 (h.recLen.getD 0) ++
    leBytes 1 h.payLen ++ leBytes 2 h.payCheck.toNat

/-- R3: the header check. -/
def headerCheck (h : CellHeader) : Half := check16 (headerBytes h)

/-- R6: the sector header check, over the epoch as 2 bytes and the erase count as 3. -/
def sectorCheck (epoch erases : Nat) : Half := check16 (leBytes 2 epoch ++ leBytes 3 erases)

end Sys2Proof.Machine
end

