-- ==== Sys2Proof/Config.lean ====
section
/-! DEFINITION. Config.lean: the numbers the spec fixes for the part, and the free values: constants with no body,
which no proof can see into. A free value is applied to the state's counter `free`, so that each use is a fresh one.
Every free value has its row in notes/assumptions/. -/

namespace Sys2Proof.Config

/-- R1: 32 sectors. -/
abbrev sectors : Nat := 32
/-- R1: 32 cells a sector. -/
abbrev cellsPerSector : Nat := 32
/-- R1: 1024 cells. -/
abbrev cells : Nat := 1024
/-- R1: 64 payload bytes a cell. -/
abbrev payloadBytes : Nat := 64
/-- R154: 1024 bytes a staging buffer. -/
abbrev bufferBytes : Nat := 1024
/-- R48: the capacity of the key index. -/
abbrev indexCapacity : Nat := 256
/-- R115: the capacity of the Command Queue. -/
abbrev queueCapacity : Nat := 4
/-- R123: the capacity of the Completion Queue. -/
abbrev completionCapacity : Nat := 8
/-- R193: the capacity of the report ring. -/
abbrev ringCapacity : Nat := 8
/-- R75: the reserve. -/
abbrev reserve : Nat := 32
/-- R20: the pass counter's end. -/
abbrev passEnd : Nat := 4
/-- R23: the suspensions an erase may take. -/
abbrev suspendEnd : Nat := 8
/-- R29: the next-sequence counter's value EXHAUSTED stands where 4,294,967,296 would stand. -/
abbrev seqExhausted : Nat := 4294967296
/-- R31: the last epoch. -/
abbrev epochEnd : Nat := 65535
/-- R65: the last erase count. -/
abbrev eraseCountEnd : Nat := 16777215
/-- R78: the erase count at which a sector is due for wear. -/
abbrev wearErases : Nat := 100000
/-- R78: the faulty cells at which a sector is due for wear. -/
abbrev wearFaulty : Nat := 4

/-- Free value, R165: the bytes of the staging buffers after power-on are unknown. -/
opaque powerOnByte : Nat → Nat → Byte

/-- Free value, R17, R16: a cell of a sector whose erase was cut, abandoned or failed its blank verify may be in any
condition. -/
opaque residueCell : Nat → Nat → Machine.Cell

/-- Free value, R11, R17: what a failed or cut cell program left programmed in its target. -/
opaque programResidue : Nat → Machine.Cell

/-- Free value, R17: whether an erase cut in its header phase had begun its header program. -/
opaque headerProgramBegun : Nat → Bool

/-- Free value, R19: which of two requests that come in one event to a free port arrives first. -/
opaque engineArrivesFirst : Nat → Bool

/-- Free value, R135: whether the background start at the Reclaimer's entry to IDLE is taken before the engine acts on
the answer given at that entry. -/
opaque startBeforeAnswer : Nat → Bool

/-- Free value: the erase count that stands where 16,777,216 would stand (R184 with R6). -/
opaque eraseCountPastEnd : Nat → Nat

end Sys2Proof.Config
end

