-- ==== Sys2Proof/Machine/ResetValues.lean ====
section
/-! DEFINITION. Machine/ResetValues.lean: the value of each block after a reset, block by block, from R18, R50, R66,
R83, R111, R114, R117, R129, R165 to R167, R172 and R209. -/

namespace Sys2Proof.Machine

/-- R2: an erased payload reads FFh in all 64 bytes. -/
def erasedPayload : List Byte := List.replicate Config.payloadBytes 0xFF

/-- R2: a cell that has not been programmed since its sector was last erased. -/
def blankCell : Cell := { header := .erased, state := .blank, payload := erasedPayload }

/-- The array of a fresh part: every cell blank and every sector BLANK-headered (R174, R185). DESIGN CHOICE: the spec
gives the array no value at reset, since a reset does not change it (R1); notes/assumptions/2.md. -/
def freshArray : CellArray := { cells := [], sectors := List.replicate Config.sectors .erased }

/-- R18: no operation, no suspended erase, no waiting request, pass counter 0. -/
def resetController (quiesced : Bool) : Controller :=
  { op := none, paused := none, waitEngine := none, waitReclaimer := none, waitScanner := none,
    pass := 0, quiesced := quiesced }

/-- R66: the record of a sector after a reset. -/
def resetRec : SectorRec :=
  { state := .unscanned, epoch := 0, erases := 0, role := .none, blank := 0, live := 0, dead := 32,
    faultyCount := 0, faulty := [], pinned := false }

/-- R66: the Sector Table after a reset. -/
def resetTable : SectorTable :=
  { recs := List.replicate Config.sectors resetRec, cursor := 32, queue := [], claims := [], sel := 0 }

/-- R117: the Record Engine after a reset; the counter and the epoch hold no value (R29, R31). -/
def resetEngine : Engine :=
  { state := .idle, cmd := none, work := .none, held := none, seqNext := 0, epoch := 0 }

/-- R83: the Reclaimer after a reset. -/
def resetReclaimer : Reclaimer :=
  { state := .idle, victim := none, cursor := 0, faults := 0, cause := .none, reloc := none,
    request := .none, barred := false }

/-- R111, R114, R115, R129: the Command Queue block after a reset. -/
def resetCommands : CommandQueue :=
  { tag := 0, key := 0, len := 0, buf := 0, queue := [], submitResult := 0xFF, cancelResult := 0xFF }

/-- R165: owners, pointer and conflict flag after a reset; the bytes are given, since only power-on changes them. -/
def resetStaging (bytesA bytesB : List Byte) : Staging :=
  { bytesA := bytesA, bytesB := bytesB, ownerA := .host, ownerB := .host, select := .bufA, offset := 0,
    conflict := false }

/-- R166, R172: the Recovery Scanner at the beginning of a reset: start of the scan, no findings, an empty ring. -/
def resetScanner (cause : StartCause) : Scanner :=
  { step := .waiting, pos := 0, headers := List.replicate Config.sectors .unread, found := [], retire := [],
    chosen := [], ring := [], lost := 0, cause := cause }

/-- R167: the settings after power-on and pin reset. -/
def resetSettings : Settings := { background := true, suspend := true, reclaimLow := 96 }

/-- R209, R214: no frame is decoded after a reset; a frame open at its beginning stays undecoded until it ends. -/
def resetPort (frame : Frame) : Port :=
  { frame := (match frame with | .closed => .closed | _ => .undecoded), statusOut := 0xFF, out := 0xFF,
    lowByte := none, highByte := none, taken := [] }

/-- R165: the bytes of a buffer after power-on are unknown: free values, fresh at each use. -/
def powerOnBytes (use first : Nat) : List Byte :=
  (List.range Config.bufferBytes).map fun i => Config.powerOnByte use (first + i)

end Sys2Proof.Machine
end

