-- ==== Sys2Proof/Machine/CellOps.lean ====
section
/-! DEFINITION. Machine/CellOps.lean: the cell array and what each array operation does to it (01_the_cell_array.md):
reading and writing one cell in the canonical form, the conditions of R4 and R6, and the end of a cell program, a state
advance and a sector erase, whole, failed or cut. -/

namespace Sys2Proof.Machine

/-! ### One cell, one sector header -/

/-- The cell listed under `n`, or the blank cell. -/
def lookupCell (n : Nat) : List (Nat × Cell) → Cell
  | [] => blankCell
  | (m, c) :: rest => if n = m then c else lookupCell n rest

/-- The list with cell `n` set to `c`, in canonical form: rising numbers, the blank cell not listed. -/
def insertCell (n : Nat) (c : Cell) : List (Nat × Cell) → List (Nat × Cell)
  | [] => if c = blankCell then [] else [(n, c)]
  | (m, d) :: rest =>
    if n < m then (if c = blankCell then (m, d) :: rest else (n, c) :: (m, d) :: rest)
    else if n = m then (if c = blankCell then rest else (n, c) :: rest)
    else (m, d) :: insertCell n c rest

/-- The contents of cell `n`. -/
def CellArray.cellAt (a : CellArray) (n : Nat) : Cell := lookupCell n a.cells

/-- Cell `n` given new contents; a number outside C0 to C1023 names no cell (R1). -/
def CellArray.putCell (a : CellArray) (n : Nat) (c : Cell) : CellArray :=
  if n < Config.cells then { a with cells := insertCell n c a.cells } else a

/-- The header area of sector `n`. -/
def CellArray.sectorAt (a : CellArray) (n : Nat) : SectorArea := a.sectors.getD n .garbled

/-- The header area of sector `n` given new contents. -/
def CellArray.putSector (a : CellArray) (n : Nat) (h : SectorArea) : CellArray :=
  { a with sectors := a.sectors.set n h }

/-- Cell Cn lies in sector n div 32 (R1). -/
def sectorOf (cell : Nat) : Nat := cell / Config.cellsPerSector

/-- The 32 cells of a sector in ascending order (R1). -/
def cellsOf (sector : Nat) : List Nat :=
  (List.range Config.cellsPerSector).map fun p => sector * Config.cellsPerSector + p

/-- The 64 payload bytes with `bytes` first and the rest erased (R2). -/
def padPayload (bytes : List Byte) : List Byte :=
  bytes.take Config.payloadBytes ++ List.replicate (Config.payloadBytes - bytes.length) 0xFF

/-! ### State orders and conditions -/

/-- The place of a state in the order of R5. -/
def cellRank : CellState → Nat
  | .blank => 0
  | .written => 1
  | .committed => 2
  | .retired => 3
  | .faulty => 4

/-- The state at a place of the order of R5. -/
def cellStateOfRank : Nat → CellState
  | 0 => .blank
  | 1 => .written
  | 2 => .committed
  | 3 => .retired
  | _ => .faulty

/-- The place of a sector state in the order of R7. -/
def sectorRank : SectorState → Nat
  | .ready => 0
  | .inUse => 1
  | .reclaiming => 2
  | .worn => 3

/-- The state at a place of the order of R7. -/
def sectorStateOfRank : Nat → SectorState
  | 0 => .ready
  | 1 => .inUse
  | 2 => .reclaiming
  | _ => .worn

/-- R2, R4: every field in its range, fragment below fragment count, record length present exactly in fragment 0. -/
def headerInRange (h : CellHeader) : Bool :=
  decide (1 ≤ h.key ∧ h.key ≤ 4095 ∧ 1 ≤ h.seq ∧ h.seq ≤ 4294967295 ∧ h.frag ≤ 15 ∧ 1 ≤ h.count ∧ h.count ≤ 16 ∧
    h.payLen ≤ Config.payloadBytes ∧ h.frag < h.count) &&
    (match h.recLen with
     | some n => decide (h.frag = 0 ∧ n ≤ 1024)
     | none => decide (h.frag ≠ 0))

/-- R4: the condition of a cell by its own header, state and payload. -/
def cellCondition (c : Cell) : Condition :=
  match c.header with
  | .erased => if c.state = .blank ∧ c.payload = erasedPayload then .blank else .torn
  | .fields h => if h.check = headerCheck h ∧ headerInRange h ∧ c.state ≠ .blank then .readable else .torn
  | .garbled => .torn

/-- R6: the header of a sector when it is readable. -/
def readableSector : SectorArea → Option SectorHeader
  | .fields h => if h.check = sectorCheck h.epoch h.erases ∧ 1 ≤ h.epoch then some h else none
  | _ => none

/-- R6: a sector whose header area is neither fully erased nor readable is torn. -/
def sectorTorn (h : SectorArea) : Bool := decide (h ≠ .erased) && (readableSector h).isNone

/-- R9: what a fragment read of a cell returns. A cell of a sector whose header reads torn reads TORN (R25, R198). -/
def CellArray.readCell (a : CellArray) (n : Nat) : ReadOutcome :=
  let c := a.cellAt n
  let cond := if sectorTorn (a.sectorAt (sectorOf n)) then Condition.torn else cellCondition c
  { cond := cond
    state := c.state
    header := (match cond, c.header with
      | .readable, .fields h => some h
      | _, _ => none)
    payload := c.payload }

/-- R173: what a header read of a sector finds. -/
def CellArray.readHeader (a : CellArray) (n : Nat) : HeaderFound :=
  match a.sectorAt n with
  | .erased => .blank
  | h => match readableSector h with
    | some x => .readable x.state x.epoch x.erases
    | none => .torn

/-! ### Cell program -/

/-- R10: the payload check written: the one given, or the one computed over the bytes in use. -/
def Program.payCheckWritten (p : Program) : Half := p.check.getD (check16 (p.payload.take p.payLen))

/-- R10, R27: the header a program writes, with the header check the Array Controller computes. -/
def Program.header (p : Program) : CellHeader :=
  let h : CellHeader :=
    { key := p.key, seq := p.seq, frag := p.frag, count := p.count, recLen := p.recLen, payLen := p.payLen,
      payCheck := p.payCheckWritten, check := 0 }
  { h with check := headerCheck h }

/-- R10: the cell a program that verifies leaves. -/
def Program.image (p : Program) : Cell :=
  { header := .fields p.header, state := p.state, payload := padPayload (p.payload.take p.payLen) }

/-- R11: every bit of the key field programmed, so that the key reads 0. -/
def zeroKey : HeaderArea → HeaderArea
  | .fields h => .fields { h with key := 0 }
  | _ => .garbled

/-- R11: the cell a failed program of a BLANK target leaves: FAULTY where the mark held, else with its key field
programmed. What else of the cell was programmed is a free value. -/
def failedProgramCell (markHeld : Bool) (residue : Cell) : Cell :=
  if markHeld then { header := residue.header, state := .faulty, payload := padPayload residue.payload }
  else
    { header := zeroKey residue.header
      state := (if residue.state = .faulty then .blank else residue.state)
      payload := padPayload residue.payload }

/-- R5, R13: the state a cell whose FAULTY mark did not hold is left reading: from its former state up to the last
before FAULTY, in the order of R5. -/
def cellLeft (former : CellState) (left : Nat) : CellState :=
  cellStateOfRank (max (cellRank former) (min left 3))

/-- R10, R11: the end of a cell program. A target that was not BLANK is not programmed; it takes the FAULTY mark, and
where the mark did not hold, R11 does not say what its state field reads: it reads as the free value has it, from its
former state up to RETIRED, as after a failed advance (DESIGN CHOICE, notes/assumptions/42.md). -/
def CellArray.endProgram (a : CellArray) (p : Program) (r : ProgramResult) (residue : Cell) :
    CellArray × ArrayOutcome :=
  let old := a.cellAt p.cell
  if cellCondition old = .blank then
    match r with
    | .verified => (a.putCell p.cell p.image, .done)
    | .failed mark => (a.putCell p.cell (failedProgramCell mark residue), .failed)
  else
    match r with
    | .verified => (a.putCell p.cell { old with state := .faulty }, .failed)
    | .failed mark =>
      (a.putCell p.cell
        { old with state := if mark then .faulty else cellLeft old.state (cellRank residue.state) }, .failed)

/-- R17: a cell program cut by reset leaves a BLANK target torn. A target that was not BLANK was not programmed. -/
def CellArray.cutProgram (a : CellArray) (p : Program) (residue : Cell) : CellArray :=
  if cellCondition (a.cellAt p.cell) = .blank then
    a.putCell p.cell
      { header := .garbled
        state := (if cellRank residue.state ≤ cellRank p.state then residue.state else .blank)
        payload := padPayload residue.payload }
  else a

/-! ### State advances -/

/-- R12: whether a cell's advance is performed. -/
def advancePerformed (c : Cell) (target : CellState) : Bool :=
  decide (cellRank c.state < cellRank target) && !(decide (cellCondition c = .blank ∧ target ≠ .faulty)) &&
    !(decide (cellCondition c = .torn ∧ target = .committed))

/-- R12, R13: the end of a cell's state advance. -/
def CellArray.endCellAdvance (a : CellArray) (n : Nat) (target : CellState) (r : AdvanceResult) :
    CellArray × ArrayOutcome :=
  let c := a.cellAt n
  if advancePerformed c target then
    match r with
    | .verified => (a.putCell n { c with state := target }, .done)
    | .failed mark left =>
      if mark ∧ target ≠ .faulty then (a.putCell n { c with state := .faulty }, .failed)
      else (a.putCell n { c with state := cellLeft c.state left }, .failed)
  else (a, .notAdvanced)

/-- R7, R14: the state a header whose advance failed is left reading: the former, the target or one between. -/
def sectorLeft (former target : SectorState) (left : Nat) : SectorState :=
  sectorStateOfRank (max (sectorRank former) (min left (sectorRank target)))

/-- R12, R14: the end of a sector header's state advance. It programs the state field alone. -/
def CellArray.endHeaderAdvance (a : CellArray) (n : Nat) (target : SectorState) (r : AdvanceResult) :
    CellArray × ArrayOutcome :=
  match readableSector (a.sectorAt n) with
  | none => (a, .notAdvanced)
  | some h =>
    if sectorRank h.state < sectorRank target then
      match r with
      | .verified => (a.putSector n (.fields { h with state := target }), .done)
      | .failed _ left => (a.putSector n (.fields { h with state := sectorLeft h.state target left }), .failed)
    else (a, .notAdvanced)

/-! ### Sector erase -/

/-- R6: the erase mark, the first act of an erase, makes the header torn. -/
def CellArray.eraseMark (a : CellArray) (n : Nat) : CellArray := a.putSector n .garbled

/-- Every cell of sector `n` blank (R1, R15). -/
def CellArray.blankSector (a : CellArray) (n : Nat) : CellArray :=
  { a with cells := a.cells.filter fun p => decide (sectorOf p.1 ≠ n) }

/-- R17, R16, R198: every cell of sector `n` in a condition the spec does not give: free values. -/
def CellArray.disturbSector (a : CellArray) (n : Nat) (use : Nat) : CellArray :=
  (cellsOf n).foldl
    (fun a c =>
      let r := Config.residueCell use c
      a.putCell c { r with payload := padPayload r.payload }) a

/-- R15, R16: the end of the blank verify. Passed, every bit of the sector is erased. Failed, the cells are as the
erase left them: free values (notes/assumptions/13.md), which no sequence bounds, so that one may read READABLE with a
sequence at or above the counter of R30: DESIGN CHOICE, notes/assumptions/51.md. -/
def CellArray.endErasePhase (a : CellArray) (n : Nat) (blankVerified : Bool) (use : Nat) : CellArray :=
  if blankVerified then (a.blankSector n).putSector n .erased else (a.disturbSector n use).putSector n .garbled

/-- A sector header with its check (R6, R15). -/
def writtenHeader (state : SectorState) (epoch erases : Nat) : SectorArea :=
  .fields { state := state, epoch := epoch, erases := erases, check := sectorCheck epoch erases }

/-- R15, R16, R185: the end of the header phase. A header that reads fully erased after a blank verify that failed is
taken as torn, since R17 gives a BLANK-headered sector as one that passed its blank verify: DEDUCED,
notes/assumptions/18.md. -/
def CellArray.endHeaderPhase (a : CellArray) (n epoch erases : Nat) (blankVerified : Bool) (r : EraseResult) :
    CellArray × ArrayOutcome :=
  let out := if blankVerified ∧ r = .verified then ArrayOutcome.done else .failed
  let left : SectorArea :=
    match r with
    | .verified => writtenHeader (if blankVerified then .ready else .worn) epoch erases
    | .failed (.reads st) => writtenHeader st epoch erases
    | .failed .torn => .garbled
    | .failed .erased => if blankVerified then .erased else .garbled
  (a.putSector n left, out)

/-- R17: what a reset leaves of the operation it cuts. A read leaves nothing; an advance leaves the former state; an
erase in its erase phase, suspended or not, leaves the sector torn; one in its header phase leaves it BLANK-headered, or
torn if the header program had begun, which is a free value. One whose blank verify failed leaves it torn: a
BLANK-headered sector has passed its blank verify. -/
def CellArray.cut (a : CellArray) (o : Operation) (use : Nat) : CellArray :=
  match o.op, o.phase with
  | .program p, _ => a.cutProgram p (Config.programResidue use)
  | .erase n _ _, .headerPhase false => a.putSector n .garbled
  | .erase n _ _, .headerPhase true | .restoreHeader n _ _, _ =>
    if Config.headerProgramBegun use then a.putSector n .garbled else a.putSector n .erased
  | .erase n _ _, _ => (a.disturbSector n use).putSector n .garbled
  | .read _, _ | .headerRead _, _ | .advanceCell _ _, _ | .advanceHeader _ _, _ => a

end Sys2Proof.Machine
end

