-- ==== Sys2Proof/Machine/State.lean ====
section
/-! DEFINITION. Machine/State.lean: the state of the part, the queue of waiting commands, the reasons a step can stop,
and the state after reset. -/

namespace Sys2Proof.Machine

/-- The whole state of the VB4160. `pending` is the model's own queue of waiting commands, first in, first out. `free`
is the model's own counter for the free values of Config. Every other field is a block of the spec. -/
structure State where
  /-- Commands waiting to be taken; not the spec's. -/
  pending : List Instr
  /-- Supply, RESET#, reset holds, device state (R166, R171). -/
  power : Power
  /-- The nonvolatile array (R1). -/
  array : CellArray
  /-- The Array Controller (R18). -/
  ctl : Controller
  /-- The Sector Table (R65 to R82). -/
  table : SectorTable
  /-- The key index, entries in ascending key order (R47, R48). -/
  index : List IndexEntry
  /-- The Record Engine (R117). -/
  engine : Engine
  /-- The Reclaimer (R83). -/
  reclaimer : Reclaimer
  /-- The command fields, the Command Queue and the result registers (R111 to R115, R129). -/
  cmds : CommandQueue
  /-- The Completion Queue, oldest first (R123). -/
  comps : List Completion
  /-- The staging buffers (R154). -/
  staging : Staging
  /-- The Recovery Scanner, the report ring, START_CAUSE (R172, R193). -/
  scanner : Scanner
  /-- The Power-Fail Monitor (R195). -/
  pfw : PowerFail
  /-- The Serial Port (R209). -/
  port : Port
  /-- The sticky interrupt flags and IRQ_MASK (R221, R223). -/
  irq : Interrupts
  /-- CONFIG and RECLAIM_LOW (R218, R85). -/
  settings : Settings
  /-- The number of free values used so far; not the spec's. -/
  free : Nat
  deriving DecidableEq, Repr

/-- The faults a step can stop with. There is none: the spec describes no condition that stops the part short of the
loss of its supply, and that is a state (`power.supply`), not a fault. -/
inductive Fault where
  deriving DecidableEq, Repr

/-- The refusals of a step. -/
inductive Refusal where
  /-- Raised by an arm of exec whose command has no meaning yet, by its mnemonic. Safe. No arm raises it. -/
  | notModelled (mnemonic : String)
  deriving DecidableEq, Repr

/-- One named update a block; Laws/State.lean has one lemma a field for each. -/
def State.setPending (s : State) (x : List Instr) : State := { s with pending := x }
/-- Update of the supply, RESET# and hold block. -/
def State.setPower (s : State) (x : Power) : State := { s with power := x }
/-- Update of the array. -/
def State.setArray (s : State) (x : CellArray) : State := { s with array := x }
/-- Update of the Array Controller. -/
def State.setCtl (s : State) (x : Controller) : State := { s with ctl := x }
/-- Update of the Sector Table. -/
def State.setTable (s : State) (x : SectorTable) : State := { s with table := x }
/-- Update of the key index. -/
def State.setIndex (s : State) (x : List IndexEntry) : State := { s with index := x }
/-- Update of the Record Engine. -/
def State.setEngine (s : State) (x : Engine) : State := { s with engine := x }
/-- Update of the Reclaimer. -/
def State.setReclaimer (s : State) (x : Reclaimer) : State := { s with reclaimer := x }
/-- Update of the Command Queue block. -/
def State.setCmds (s : State) (x : CommandQueue) : State := { s with cmds := x }
/-- Update of the Completion Queue. -/
def State.setComps (s : State) (x : List Completion) : State := { s with comps := x }
/-- Update of the staging buffers. -/
def State.setStaging (s : State) (x : Staging) : State := { s with staging := x }
/-- Update of the Recovery Scanner. -/
def State.setScanner (s : State) (x : Scanner) : State := { s with scanner := x }
/-- Update of the Power-Fail Monitor. -/
def State.setPfw (s : State) (x : PowerFail) : State := { s with pfw := x }
/-- Update of the Serial Port. -/
def State.setPort (s : State) (x : Port) : State := { s with port := x }
/-- Update of the interrupt block. -/
def State.setIrq (s : State) (x : Interrupts) : State := { s with irq := x }
/-- Update of the settings. -/
def State.setSettings (s : State) (x : Settings) : State := { s with settings := x }
/-- Update of the free-value counter. -/
def State.setFree (s : State) (x : Nat) : State := { s with free := x }

/-- The machine right after reset: a power-on reset has begun on a fresh part and its hold has not ended (R166). RESET#
and PFW# stand high and no frame is open. The array, the buffer bytes and the pin levels are DESIGN CHOICE
(notes/assumptions/1.md to 4.md); every other value is the spec's. -/
def State.reset : State :=
  { pending := []
    power := { supply := true, supplyHold := true, resetLow := false, softHold := false, isReady := false }
    array := freshArray
    ctl := resetController false
    table := resetTable
    index := []
    engine := resetEngine
    reclaimer := resetReclaimer
    cmds := resetCommands
    comps := []
    staging := resetStaging (List.replicate Config.bufferBytes 0) (List.replicate Config.bufferBytes 0)
    scanner := resetScanner .powerOn
    pfw := { pinLow := false, asserted := false }
    port := resetPort .closed
    irq := { ready := false, fault := false, space := false, mask := 0 }
    settings := resetSettings
    free := 0 }

end Sys2Proof.Machine
end

