-- ==== Sys2Proof/Machine/Index.lean ====
section
/-! DEFINITION. Machine/Index.lean: the key index (03_the_key_index.md): what it is asked and what it is told. -/

namespace Sys2Proof.Machine

/-- R51: the lookup of a key. -/
def lookup (key : Nat) (index : List IndexEntry) : Option IndexEntry := index.find? fun e => decide (e.key = key)

/-- R53: the successor search from a key: the first entry, in ascending order, above it. -/
def successor (key : Nat) (index : List IndexEntry) : Option IndexEntry := index.find? fun e => decide (key < e.key)

/-- R54, R55, R48: the entry inserted at its place, or replacing the entry of its key. -/
def upsert (x : IndexEntry) : List IndexEntry → List IndexEntry
  | [] => [x]
  | e :: rest =>
    if x.key < e.key then x :: e :: rest
    else if x.key = e.key then x :: rest
    else e :: upsert x rest

/-- R56: the entry of a key removed. -/
def removeKey (key : Nat) (index : List IndexEntry) : List IndexEntry := index.filter fun e => decide (e.key ≠ key)

/-- R57: whether the index accepts a conditional map update. -/
def acceptsMove (key seq frag source : Nat) (index : List IndexEntry) : Bool :=
  match lookup key index with
  | some e => decide (e.seq = seq) && decide (e.map[frag]? = some source)
  | none => false

/-- R57: position `frag` of the key's map names the copy in place of the source. -/
def moveInMap (key frag copy : Nat) (index : List IndexEntry) : List IndexEntry :=
  index.map fun e => if e.key = key then { e with map := e.map.set frag copy } else e

/-- R93: whether any fragment map names the cell. -/
def isNamed (cell : Nat) (index : List IndexEntry) : Bool := index.any fun e => e.map.contains cell

end Sys2Proof.Machine
end

