-- ==== Sys2Proof/Machine/Ops.lean ====
section
/-! DEFINITION. Machine/Ops.lean: the operations the blocks share: the device state, the waiting requests of the array
port (R8, R19, R22, R23), the Sector Table's records and counts (R65 to R82), pins, buffer owners, the report ring. -/

namespace Sys2Proof.Machine

/-! ### Device state -/

/-- R166: the part is held in reset. -/
def State.held (s : State) : Bool := s.power.supplyHold || s.power.resetLow || s.power.softHold

/-- The supply is in range and no reset holds the part: the device state is STARTING or READY (R171). -/
def State.running (s : State) : Bool := s.power.supply && !s.held

/-- R171: the device state is READY. -/
def State.deviceReady (s : State) : Bool := s.running && s.power.isReady

/-- R171: the device state is STARTING. -/
def State.deviceStarting (s : State) : Bool := s.running && !s.power.isReady

/-- A free value is taken: the next one is another. -/
def useFree (s : State) : State := s.setFree (s.free + 1)

/-! ### Interrupt causes -/

/-- R221: the FAULT flag raised. -/
def raiseFault (s : State) : State := s.setIrq { s.irq with fault := true }

/-- R119, R221: the SPACE flag raised. -/
def raiseSpace (s : State) : State := s.setIrq { s.irq with space := true }

/-- R190, R221: the READY flag raised. -/
def raiseReady (s : State) : State := s.setIrq { s.irq with ready := true }

/-! ### Array requests -/

/-- R8: the one waiting request of a requester. -/
def Controller.waiting (c : Controller) : Requester → Option ArrayOp
  | .engine => c.waitEngine
  | .reclaimer => c.waitReclaimer
  | .scanner => c.waitScanner

/-- The waiting request of a requester set or removed. -/
def Controller.setWaiting (c : Controller) (who : Requester) (o : Option ArrayOp) : Controller :=
  match who with
  | .engine => { c with waitEngine := o }
  | .reclaimer => { c with waitReclaimer := o }
  | .scanner => { c with waitScanner := o }

/-- R196: whether a request is of the kind that is granted while quiesced. -/
def isRead : ArrayOp → Bool
  | .read _ | .headerRead _ => true
  | .program _ | .advanceCell _ _ | .advanceHeader _ _ | .erase _ _ _ | .restoreHeader _ _ _ => false

/-- R197: the phase an operation has at its grant. -/
def firstPhase : ArrayOp → Phase
  | .erase _ _ _ => .erasePhase
  | .restoreHeader _ _ _ => .headerPhase true
  | .read _ | .headerRead _ | .program _ | .advanceCell _ _ | .advanceHeader _ _ => .single

/-- R22: the operation as it stands at its grant; the suspend count of an erase is 0. -/
def granted (who : Requester) (op : ArrayOp) : Operation :=
  { who := who, op := op, phase := firstPhase op, suspendCount := 0 }

/-- R8: a requester places a request. It waits for the next point at which the arbiter grants. -/
def placeWaiting (who : Requester) (op : ArrayOp) (s : State) : State :=
  s.setCtl (s.ctl.setWaiting who (some op))

/-- R23: whether a Record Engine read that arrives now suspends the erase on the port. -/
def suspends (s : State) : Bool :=
  match s.ctl.op with
  | some o => decide (o.phase = .erasePhase) && s.settings.suspend && decide (o.suspendCount < Config.suspendEnd)
  | none => false

/-- R8, R22, R23: a Record Engine fragment read arrives: it suspends the erase in progress and is granted, or waits. -/
def placeEngineRead (cell : Nat) (s : State) : State :=
  match s.ctl.op with
  | some o =>
    if suspends s then
      s.setCtl { s.ctl with op := some (granted .engine (.read cell))
                            paused := some { o with suspendCount := o.suspendCount + 1 } }
    else placeWaiting .engine (.read cell) s
  | none => placeWaiting .engine (.read cell) s

/-- R21: a waiting Reclaimer request is withdrawn and the pass counter becomes 0. -/
def withdrawRequest (s : State) : State :=
  match s.ctl.waitReclaimer with
  | some _ => s.setCtl { s.ctl with waitReclaimer := none, pass := 0 }
  | none => s

/-- Whether the operation on the port, or the suspended erase, is one of this requester. -/
def inProgress (who : Requester) (s : State) : Bool :=
  (match s.ctl.op with | some o => decide (o.who = who) | none => false) ||
    (match s.ctl.paused with | some o => decide (o.who = who) | none => false)

/-! ### Sector records -/

/-- The record of sector `n`. -/
def State.recAt (s : State) (n : Nat) : SectorRec := s.table.recs.getD n resetRec

/-- The record of sector `n` changed. -/
def modRec (n : Nat) (f : SectorRec → SectorRec) (s : State) : State :=
  s.setTable { s.table with recs := s.table.recs.modify n f }

/-- The records of the cells' sectors changed, cell by cell. -/
def modCells (f : Nat → SectorRec → SectorRec) : List Nat → State → State
  | [], s => s
  | c :: cs, s => modCells f cs (modRec (sectorOf c) (f c) s)

/-- R69: a cell handed out moves from blank to dead. A faulty cell takes no move. -/
def blankToDead (c : Nat) (r : SectorRec) : SectorRec :=
  if c ∈ r.faulty ∨ r.blank = 0 then r else { r with blank := r.blank - 1, dead := r.dead + 1 }

/-- R69: a cell of a new map, or an accepted copy, moves from dead to live. -/
def deadToLive (c : Nat) (r : SectorRec) : SectorRec :=
  if c ∈ r.faulty ∨ r.dead = 0 then r else { r with dead := r.dead - 1, live := r.live + 1 }

/-- R69: a cell of an old or removed map, or the source of an accepted copy, moves from live to dead. -/
def liveToDead (c : Nat) (r : SectorRec) : SectorRec :=
  if c ∈ r.faulty ∨ r.live = 0 then r else { r with live := r.live - 1, dead := r.dead + 1 }

/-- R68: what a record becomes when its sector becomes WORN. -/
def wornRec (r : SectorRec) : SectorRec :=
  { r with state := .worn, role := .none, blank := 0, live := 0, dead := 32 - r.faulty.length
           faultyCount := r.faulty.length }

/-- R67, R65: a cell joins the faulty set in ascending order, once. -/
def insertFaulty (c : Nat) (l : List Nat) : List Nat := List.orderedInsert (· ≤ ·) c l

/-- The class counts of a record, less one cell of the class it was in (R33). A record whose count of that class is 0
gives the cell from another. -/
def takeFrom (named canHandOut : Bool) (r : SectorRec) : Option SectorRec :=
  if named ∧ r.live ≠ 0 then some { r with live := r.live - 1 }
  else if canHandOut ∧ r.blank ≠ 0 then some { r with blank := r.blank - 1 }
  else if r.dead ≠ 0 then some { r with dead := r.dead - 1 }
  else if r.live ≠ 0 then some { r with live := r.live - 1 }
  else if r.blank ≠ 0 then some { r with blank := r.blank - 1 }
  else none

/-- R67: a cell moves to faulty from the class it was in. -/
def joinFaulty (named canHandOut : Bool) (c : Nat) (r : SectorRec) : SectorRec :=
  if c ∈ r.faulty then r
  else match takeFrom named canHandOut r with
    | some r' => { r' with faultyCount := r.faultyCount + 1, faulty := insertFaulty c r.faulty }
    | none => r

/-- R175: a cell joins the faulty set in the recovery scan, whose step 8 sets the counts (R173, R187). -/
def noteFaulty (c : Nat) (r : SectorRec) : SectorRec :=
  if c ∈ r.faulty then r else { r with faulty := insertFaulty c r.faulty }

/-- R77: the open sector. -/
def State.openSector (s : State) : Option Nat := s.table.recs.findIdx? fun r => decide (r.role = .isOpen)

/-- R77: the sector whose role is VICTIM. -/
def State.victimSector (s : State) : Option Nat := s.table.recs.findIdx? fun r => decide (r.role = .victim)

/-- R70: the cells the open sector can still hand out. -/
def State.openRoom (s : State) : Nat :=
  match s.openSector with
  | some _ => 32 - s.table.cursor
  | none => 0

/-- R74: the erased-cell count. -/
def State.erasedCount (s : State) : Nat := s.openRoom + 32 * s.table.queue.length

/-- R33: whether the allocator can still hand out a cell. -/
def canHandOut (c : Nat) (s : State) : Bool :=
  s.table.queue.contains (sectorOf c) ||
    (decide (s.openSector = some (sectorOf c)) && decide (s.table.cursor ≤ c % 32))

/-- R67, R175: a cell joins its sector's faulty set, at a FAILED operation on it or in step 3 of the scan. Before READY
the counts stay as R173 says: DEDUCED, notes/assumptions/25.md. -/
def cellFailed (c : Nat) (s : State) : State :=
  modRec (sectorOf c)
    (fun r => if s.power.isReady then joinFaulty (isNamed c s.index) (canHandOut c s) c r else noteFaulty c r) s

/-- R79: the Sector Table records a sector WORN, and the FAULT flag is raised. -/
def makeWorn (n : Nat) (s : State) : State := raiseFault (modRec n wornRec s)

/-- R78: a record due for wear. -/
def dueForWear (r : SectorRec) : Bool :=
  decide (Config.wearErases ≤ r.erases) || decide (Config.wearFaulty ≤ r.faulty.length)

/-- The record state of a header state (R65). -/
def recStateOf : SectorState → RecState
  | .ready => .ready
  | .inUse => .inUse
  | .reclaiming => .reclaiming
  | .worn => .worn

/-- R67: the Sector Table takes a header advance that ended DONE or FAILED. -/
def headerAdvanced (n : Nat) (target : SectorState) (s : State) : State :=
  match target with
  | .worn => makeWorn n s
  | .ready | .inUse | .reclaiming => modRec n (fun r => { r with state := recStateOf target }) s

/-- R67: the Sector Table takes an erase, or a header restoration, that ended. One that FAILED gives the record the
erase count the erase carried, for a FORMAT's erase too: DEDUCED, notes/assumptions/44.md. -/
def eraseEnded (who : Requester) (n epoch erases : Nat) (out : ArrayOutcome) (s : State) : State :=
  match out with
  | .done =>
    match who with
    | .reclaimer =>
      let s1 := modRec n (fun r => { r with
        state := .ready, epoch := epoch, erases := erases, faulty := [], blank := 32, live := 0, dead := 0,
        faultyCount := 0, role := .readyQueued }) s
      s1.setTable { s1.table with queue := s1.table.queue ++ [n] }
    | .engine | .scanner =>
      modRec n (fun r => { r with
        state := .ready, epoch := epoch, erases := erases, faulty := [], blank := 0, live := 0, dead := 32,
        faultyCount := 0, role := .none }) s
  | .failed => makeWorn n (modRec n (fun r => { r with epoch := epoch, erases := erases }) s)
  | .abandoned => modRec n (fun r => { r with state := .abandoned }) s
  | .notAdvanced => s

/-- R65: the erase count one above a count. The spec gives no value past 16,777,215: a free value stands there. -/
def nextEraseCount (n : Nat) : Nat := if n < Config.eraseCountEnd then n + 1 else Config.eraseCountPastEnd n

/-! ### Allocation -/

/-- R70: `k` cells handed out from the cursor of the open sector, or as many as it has. At cursor 32 the sector's role
becomes none. -/
def handOut (k : Nat) (s : State) : List Nat × State :=
  match s.openSector with
  | none => ([], s)
  | some n =>
    let cells := (List.range (min k (32 - s.table.cursor))).map fun i => n * 32 + s.table.cursor + i
    let s1 := modCells blankToDead cells s
    let s2 := s1.setTable { s1.table with cursor := s.table.cursor + cells.length }
    (cells, if 32 ≤ s2.table.cursor then modRec n (fun r => { r with role := .none }) s2 else s2)

/-- R72: at the grant of an opening, the former open sector gives up its remaining cells, the named sector becomes the
open sector, and the rest of the claim is handed out from it. -/
def openSectorFor (k n : Nat) (s : State) : List Nat × State :=
  let (first, s1) := handOut (min k s.openRoom) s
  let s2 := match s1.openSector with
    | some m => modRec m (fun r => { r with role := .none }) s1
    | none => s1
  let s3 := modRec n (fun r => { r with role := .isOpen, state := .inUse }) s2
  let s4 := s3.setTable { s3.table with queue := s3.table.queue.filter (fun m => decide (m ≠ n)), cursor := 0 }
  let (rest, s5) := handOut (k - first.length) s4
  (first ++ rest, s5)

/-- R81: the order of the rebuild: ascending erase count, then ascending sector number. -/
def rebuildOrder (s : State) : List Nat :=
  ((List.range 32).filter fun n =>
      decide ((s.recAt n).state = .ready) && decide ((s.recAt n).role ≠ .isOpen)).insertionSort
    fun m n => (s.recAt m).erases < (s.recAt n).erases ∨ ((s.recAt m).erases = (s.recAt n).erases ∧ m ≤ n)

/-- R81: the rebuild of the ready-sector queue. -/
def rebuildQueue (s : State) : State :=
  let order := rebuildOrder s
  let s1 := order.foldl
    (fun s n => modRec n (fun r => { r with role := .readyQueued, blank := 32, live := 0, dead := 0,
                                            faultyCount := 0, faulty := [] }) s) s
  s1.setTable { s1.table with queue := order }

/-- R71: a claim joins the tail of the claim list. -/
def appendClaim (who : Requester) (k : Nat) (s : State) : State :=
  s.setTable { s.table with claims := s.table.claims ++ [{ who := who, count := k }] }

/-- R71: the claim at the head leaves the list. -/
def dropClaim (s : State) : State := s.setTable { s.table with claims := s.table.claims.tail }

/-- R71, R72: whether the head claim, if any, is one of this requester. -/
def headClaimIs (who : Requester) (s : State) : Bool :=
  match s.table.claims with
  | c :: _ => decide (c.who = who)
  | [] => false

/-! ### Pins (R80) -/

/-- R80: every sector holding one of the cells is pinned. -/
def pinCells (cells : List Nat) (s : State) : State :=
  modCells (fun _ r => { r with pinned := true }) cells s

/-- R80: every pinned mark is cleared. -/
def clearPins (s : State) : State :=
  s.setTable { s.table with recs := s.table.recs.map fun r => { r with pinned := false } }

/-! ### Buffers (R154 to R163) -/

/-- The bytes of a buffer. -/
def Staging.bytes (g : Staging) : Buf → List Byte
  | .bufA => g.bytesA
  | .bufB => g.bytesB

/-- The owner of a buffer. -/
def Staging.owner (g : Staging) : Buf → Owner
  | .bufA => g.ownerA
  | .bufB => g.ownerB

/-- The owner of a buffer changed. -/
def Staging.setOwner (g : Staging) (b : Buf) (o : Owner) : Staging :=
  match b with
  | .bufA => { g with ownerA := o }
  | .bufB => { g with ownerB := o }

/-- The bytes of a buffer changed. -/
def Staging.setBytes (g : Staging) (b : Buf) (l : List Byte) : Staging :=
  match b with
  | .bufA => { g with bytesA := l }
  | .bufB => { g with bytesB := l }

/-- R156: the buffer a command names, if it names one, given an owner. -/
def setOwner (b : Option Buf) (o : Owner) (s : State) : State :=
  match b with
  | some x => s.setStaging (s.staging.setOwner x o)
  | none => s

/-- R162: the bytes of a buffer from an offset on. -/
def takeBytes (b : Buf) (offset n : Nat) (s : State) : List Byte := ((s.staging.bytes b).drop offset).take n

/-- Bytes written into a list from a place on; bytes past its end are not written. -/
def overwrite (at_ : Nat) : List Byte → List Byte → List Byte
  | [], l => l
  | x :: xs, l => overwrite (at_ + 1) xs (l.set at_ x)

/-- R163: the engine writes bytes of a fragment into a buffer. -/
def writeBytes (b : Buf) (offset : Nat) (bytes : List Byte) (s : State) : State :=
  s.setStaging (s.staging.setBytes b (overwrite offset bytes (s.staging.bytes b)))

/-! ### Reports (R193) -/

/-- R193: a report joins the tail of the ring; at 8 entries the oldest is lost and counted. -/
def report (r : Report) (s : State) : State :=
  if s.scanner.ring.length < Config.ringCapacity then
    s.setScanner { s.scanner with ring := s.scanner.ring ++ [r] }
  else
    s.setScanner { s.scanner with ring := s.scanner.ring.tail ++ [r], lost := min 255 (s.scanner.lost + 1) }

/-- A report of a cell or a sector, with no key and no sequence (R192). -/
def reportNumber (k : ReportKind) (n : Nat) (s : State) : State :=
  report { kind := k, num := n, key := none, seq := none } s

/-- A report of a group, with its key and sequence (R192). -/
def reportGroup (k : ReportKind) (n key seq : Nat) (s : State) : State :=
  report { kind := k, num := n, key := some key, seq := some seq } s

end Sys2Proof.Machine
end

