-- ==== Sys2Proof/Machine/ReclaimOps.lean ====
section
/-! DEFINITION. Machine/ReclaimOps.lean: the Reclaimer's own actions (05_reclamation.md): the choice of a victim, the
background start, the walk of the move cursor, draining, erasing and stopping. None of them answers the engine: the
answers are given in Machine/EngineOps.lean. -/

namespace Sys2Proof.Machine

/-- The Reclaimer block changed. -/
def modReclaimer (f : Reclaimer → Reclaimer) (s : State) : State := s.setReclaimer (f s.reclaimer)

/-! ### Victim choice (R90, R91) -/

/-- R90: whether sector `n` is eligible as a victim. -/
def eligible (s : State) (n : Nat) : Bool :=
  let r := s.recAt n
  !s.reclaimer.barred && decide (r.state = .inUse) && decide (r.role ≠ .isOpen) && decide (r.epoch = s.engine.epoch) &&
    decide (1 ≤ r.dead) && decide (r.live ≤ s.erasedCount)

/-- R91: whether record `q` is chosen before record `r` of a lower sector number: more dead cells, or as many and fewer
erases. -/
def chosenBefore (q r : SectorRec) : Bool := decide (r.dead < q.dead ∨ (q.dead = r.dead ∧ q.erases < r.erases))

/-- R91: the sector chosen among a list in ascending number. -/
def bestVictim (s : State) : List Nat → Option Nat
  | [] => none
  | n :: rest =>
    match bestVictim s rest with
    | none => some n
    | some m => if chosenBefore (s.recAt m) (s.recAt n) then some m else some n

/-- R91: the victim chosen, if any sector is eligible. -/
def chooseVictim (s : State) : Option Nat := bestVictim s ((List.range Config.sectors).filter (eligible s))

/-! ### Starting (R86, R92) -/

/-- R92: the Reclaimer enters MARKING with its victim. -/
def startMarking (victim : Nat) (s : State) : State :=
  placeWaiting .reclaimer (.advanceHeader victim .reclaiming)
    (modReclaimer (fun r => { r with state := .marking, victim := some victim, cursor := 0, faults := 0,
                                     cause := .none }) s)

/-- R86: the conditions of the background start but for an eligible victim. -/
def backgroundDue (s : State) : Bool :=
  s.deviceReady && decide (s.reclaimer.state = .idle) && s.settings.background && !s.reclaimer.barred &&
    decide (s.reclaimer.request = .none) && decide (s.erasedCount < s.settings.reclaimLow)

/-- R86: an evaluation point of the background start. -/
def evaluate (s : State) : State :=
  if backgroundDue s then
    match chooseVictim s with
    | some v => startMarking v s
    | none => s
  else s

/-! ### Erasing and draining (R101, R102) -/

/-- R102: the Reclaimer enters ERASING and asks for the victim's erase, or for its advance to WORN. -/
def enterErasing (s : State) : State :=
  match s.reclaimer.victim with
  | none => s
  | some v =>
    let r := s.recAt v
    placeWaiting .reclaimer
      (if dueForWear r then .advanceHeader v .worn else .erase v s.engine.epoch (nextEraseCount r.erases))
      (modReclaimer (fun r => { r with state := .erasing }) s)

/-- R93: the first position of the victim, from `from_` on, whose cell a fragment map names. -/
def nextNamed (victim from_ : Nat) (s : State) : Option Nat :=
  (List.range 32).find? fun p => decide (from_ ≤ p) && isNamed (victim * 32 + p) s.index

/-- R93: the cell at the move cursor becomes the source of a relocation and its read is asked for. -/
def startRelocation (victim position : Nat) (s : State) : State :=
  let source := victim * 32 + position
  placeWaiting .reclaimer (.read source)
    (modReclaimer (fun r => { r with cursor := position,
                                     reloc := some { source := source, reading := none, copy := none,
                                                     refused := false } }) s)

/-- R100, R101: the end of a pass that found no named cell: DRAINING when the victim's live count is 0, and ERASING in
the same event when it is not pinned. A live count above 0 begins a new pass from position 0; a new pass that finds no
named cell either leaves the Reclaimer in MOVING, which R49 rules out. -/
def endPass (victim : Nat) (s : State) : State :=
  if (s.recAt victim).live = 0 then
    let s1 := modReclaimer (fun r => { r with state := .draining, cursor := 32 }) s
    if (s.recAt victim).pinned then s1 else enterErasing s1
  else
    match nextNamed victim 0 s with
    | some p => startRelocation victim p s
    | none => modReclaimer (fun r => { r with cursor := 32 }) s

/-- R93: the Reclaimer, in MOVING with no relocation in progress, reaches the move cursor. -/
def reachCursor (s : State) : State :=
  match s.reclaimer.victim with
  | none => s
  | some v =>
    match nextNamed v s.reclaimer.cursor s with
    | some p => startRelocation v p s
    | none => endPass v s

/-- R96, R97, R99: a relocation ends: the move cursor rises by 1 and the Reclaimer reaches it. -/
def endRelocation (s : State) : State :=
  reachCursor (modReclaimer (fun r => { r with reloc := none, cursor := r.cursor + 1 }) s)

/-- R101: in DRAINING with the victim not pinned, the Reclaimer erases it or moves the cells that became live. -/
def drainStep (s : State) : State :=
  match s.reclaimer.state, s.reclaimer.victim with
  | .draining, some v =>
    if (s.recAt v).pinned then s
    else if (s.recAt v).live = 0 then enterErasing s
    else reachCursor (modReclaimer (fun r => { r with state := .moving, cursor := 0 }) s)
  | _, _ => s

/-! ### Halting and stopping (R107 to R109) -/

/-- R107: the Reclaimer enters HALTED; FAULT is raised. Its answer to the engine is given by the caller. -/
def haltReclaimer (cause : HaltCause) (s : State) : State :=
  raiseFault (modReclaimer (fun r => { r with state := .halted, cause := cause, reloc := none }) s)

/-- R108: a halted Reclaimer resumes at its move cursor. -/
def resumeReclaimer (s : State) : State :=
  reachCursor (modReclaimer (fun r => { r with state := .moving, faults := 0, cause := .none,
                                               request := .reclaimTaken }) s)

/-- R109: a FORMAT has asked the Reclaimer to stop and its operation in progress is still to complete. -/
def stopping (s : State) : Bool := s.reclaimer.barred && decide (s.reclaimer.state ≠ .idle)

/-- R76, R21: the Reclaimer's claim leaves the claim list. -/
def withdrawClaim (s : State) : State :=
  s.setTable { s.table with claims := s.table.claims.filter fun c => decide (c.who ≠ .reclaimer) }

/-- R109: the Reclaimer is stopped. -/
def stopNow (s : State) : State :=
  let s1 := match s.reclaimer.victim with
    | some v => modRec v (fun r => if r.role = .victim then { r with role := .none } else r) s
    | none => s
  modReclaimer (fun r => { r with state := .idle, victim := none, cursor := 0, faults := 0, cause := .none,
                                  reloc := none }) s1

/-- R109: FORMAT asks the Reclaimer to stop; true when it is stopped in this event. -/
def requestStop (s : State) : Bool × State :=
  let s1 := modReclaimer (fun r => { r with barred := true }) s
  match s1.reclaimer.state with
  | .idle => (true, s1)
  | .halted => (true, stopNow s1)
  | .marking | .moving | .draining | .erasing =>
    let s2 := withdrawClaim (withdrawRequest s1)
    if inProgress .reclaimer s2 then (false, s2) else (true, stopNow s2)

/-! ### Relocation copies (R44, R57) -/

/-- R44: the program of a copy, from the outcome of the source's read. Its state is COMMITTED for a head and WRITTEN for
any other fragment, also where the source was retired or made FAULTY before its read (R97: a refused copy is a COMMITTED
head or a WRITTEN fragment): DEDUCED, notes/assumptions/43.md. -/
def copyProgram (copy : Nat) (o : ReadOutcome) : Program :=
  let h := o.header.getD default
  { cell := copy, state := if h.frag = 0 then .committed else .written, key := h.key, seq := h.seq, frag := h.frag,
    count := h.count, recLen := h.recLen, payLen := h.payLen, payload := o.payload.take h.payLen, check := some h.payCheck }

/-- R94, R95, R98: the Reclaimer asks for the program of the copy it has a cell for. -/
def requestCopy (s : State) : State :=
  match s.reclaimer.reloc with
  | some { reading := some o, copy := some c, .. } => placeWaiting .reclaimer (.program (copyProgram c o)) s
  | _ => s

/-- R71: the cell handed out becomes the copy cell. -/
def assignCopy (cells : List Nat) (s : State) : State :=
  modReclaimer (fun r => { r with reloc := r.reloc.map fun x => { x with copy := cells.head? } }) s

/-- R57: the conditional map update for the copy whose program ended DONE: the answer, and the index and counts after
it. -/
def conditionalUpdate (copy source : Nat) (o : ReadOutcome) (s : State) : Bool × State :=
  let h := o.header.getD default
  if acceptsMove h.key h.seq h.frag source s.index then
    (true, modCells liveToDead [source] (modCells deadToLive [copy] (s.setIndex (moveInMap h.key h.frag copy s.index))))
  else (false, s)

end Sys2Proof.Machine
end

