-- ==== Sys2Proof/Machine/EngineOps.lean ====
section
/-! DEFINITION. Machine/EngineOps.lean: the Record Engine's actions (02, 06, 07), the service of claims (R71 to R76), the
Reclaimer's answers to the engine (R88, R89, R106, R107), and FORMAT's clear. The order of the definitions is the order
in which one action can lead to another inside one event. -/

namespace Sys2Proof.Machine

/-- R88, R89: the Reclaimer's answers. -/
inductive Answer where
  | ended
  | halted
  | noVictim
  deriving DecidableEq, Repr

/-- The engine block changed. -/
def modEngine (f : Engine → Engine) (s : State) : State := s.setEngine (f s.engine)

/-- The working state of the command in progress changed. -/
def setWork (w : Work) (s : State) : State := modEngine (fun e => { e with work := w }) s

/-- The number of a command's key, 0 where it holds none (R121). -/
def Command.keyNum (c : Command) : Nat := c.key.getD 0

/-- The length of a command, 0 where it holds none. -/
def Command.lenNum (c : Command) : Nat := c.len.getD 0

/-- R26: the number of fragments of a record of `len` bytes. -/
def fragmentCount (len : Nat) : Nat := if len = 0 then 1 else (len + 63) / 64

/-- R26: the byte count of fragment `f` of a record of `len` bytes. -/
def fragmentBytes (len f : Nat) : Nat := min 64 (len - 64 * f)

/-! ### Producing a completion (R119) -/

/-- R119: the completion entry of the command is produced: the pins are cleared, the entry joins the Completion Queue
and its buffer returns to HOST, or it is held with its buffer kept. The clearing of the pins is passed to the Reclaimer
(R101). -/
def produce (c : Command) (e : Completion) (s : State) : State :=
  let s1 := clearPins s
  let s2 := if e.kind = .store ∧ e.status = .noSpace then raiseSpace s1 else s1
  let s3 :=
    if s2.comps.length < Config.completionCapacity then
      modEngine (fun g => { g with state := .idle, cmd := none, work := .none, held := none })
        (setOwner c.buf .host (s2.setComps (s2.comps ++ [e])))
    else
      modEngine (fun g => { g with state := .holding, cmd := none, work := .none,
                                   held := some { entry := e, buf := c.buf } }) s2
  drainStep s3

/-- R119, R120: the command in progress ends. -/
def finish (status : Status) (key len : Nat) (seq : Option Nat) (frags : Nat) (s : State) : State :=
  match s.engine.cmd with
  | none => s
  | some c =>
    produce c { tag := c.tag, kind := c.kind, status := status, key := key, len := len, seq := seq, frags := frags } s

/-- R121: an ending with the command's key and nothing else to report. -/
def finishPlain (status : Status) (s : State) : State :=
  finish status ((s.engine.cmd.map Command.keyNum).getD 0) 0 none 0 s

/-- R109, R152: the end of a FORMAT: barred is cleared, and the end is an evaluation point, evaluated before the engine
takes its next command in that event (R116): DESIGN CHOICE, notes/assumptions/49.md. -/
def endFormat (status : Status) (s : State) : State :=
  evaluate (modReclaimer (fun r => { r with barred := false }) (finish status 0 0 none 0 s))

/-! ### STORE: programs and cleanup (R134, R138) -/

/-- R27, R134, R162: the program of fragment `f` of the STORE, its bytes taken from the buffer now. -/
def fragmentProgram (c : Command) (w : StoreWork) (f : Nat) (s : State) : Program :=
  let len := c.lenNum
  { cell := w.map.getD f 0, state := .written, key := c.keyNum, seq := w.seq, frag := f, count := w.count,
    recLen := if f = 0 then some len else none
    payLen := fragmentBytes len f
    payload := takeBytes (c.buf.getD .bufA) (64 * f) (fragmentBytes len f) s
    check := none }

/-- R37, R134: the program of the next fragment is asked for. -/
def requestFragment (s : State) : State :=
  match s.engine.cmd, s.engine.work with
  | some c, .store w => placeWaiting .engine (.program (fragmentProgram c w w.next s)) s
  | _, _ => s

/-- R40, R41, R43: the advance to RETIRED of a cell is asked for. -/
def requestRetire (cell : Nat) (s : State) : State := placeWaiting .engine (.advanceCell cell .retired) s

/-- R40, R138: the STORE enters CLEANING with the cells it has to retire, or ends at once if there are none. -/
def startCleaning (ending : Status) (cells : List Nat) (s : State) : State :=
  match s.engine.work with
  | .store w =>
    let s1 := setWork (.store { w with phase := .cleaning, toRetire := cells, ending := ending }) s
    match cells with
    | [] => finishPlain ending s1
    | c :: _ => requestRetire c s1
  | _ => s

/-! ### Answers that end a command (R135, R146) -/

/-- R135, R146: the engine takes HALTED or NO_VICTIM: a STORE in WAITING ends NO_SPACE, a RECLAIM ends ARRAY_FAULT or
NOTHING_TO_DO. -/
def endOnAnswer (a : Answer) (s : State) : State :=
  match s.engine.work with
  | .store w => if w.phase = .waiting then finishPlain .noSpace s else s
  | .reclaim _ => finish (if a = .halted then .arrayFault else .nothingToDo) 0 0 none 0 s
  | _ => s

/-- R88: the engine places a demand. -/
def demand (s : State) : State :=
  match s.reclaimer.state with
  | .idle =>
    match chooseVictim s with
    | some v => modReclaimer (fun r => { r with request := .demandTaken }) (startMarking v s)
    | none => endOnAnswer .noVictim s
  | .marking | .moving | .draining | .erasing => modReclaimer (fun r => { r with request := .demandTaken }) s
  | .halted => endOnAnswer .halted s

/-- R89: the engine places a reclaim request, or one that waited is dealt with. -/
def reclaimRequest (s : State) : State :=
  match s.reclaimer.state with
  | .idle =>
    match chooseVictim s with
    | some v => modReclaimer (fun r => { r with request := .reclaimTaken }) (startMarking v s)
    | none => endOnAnswer .noVictim s
  | .marking | .moving | .draining | .erasing => modReclaimer (fun r => { r with request := .reclaimWaiting }) s
  | .halted => resumeReclaimer s

/-- R107: the Reclaimer enters HALTED and answers the request it holds: a taken one HALTED, a waiting reclaim request by
resuming. -/
def enterHalted (cause : HaltCause) (s : State) : State :=
  let s1 := haltReclaimer cause s
  match s1.reclaimer.request with
  | .none => s1
  | .reclaimWaiting => resumeReclaimer s1
  | .demandTaken | .reclaimTaken =>
    endOnAnswer .halted (modReclaimer (fun r => { r with request := .none }) s1)

/-! ### Claims (R71 to R76) -/

/-- R36, R38: the cells handed out to the STORE are assigned and their sectors pinned. A reservation gives the whole
map; a further cell takes the place of the one whose program failed. -/
def assignCells (cells : List Nat) (s : State) : State :=
  match s.engine.work with
  | .store w =>
    let map := if w.phase = .reserving then cells else w.map.set w.next (cells.headD 0)
    pinCells cells (setWork (.store { w with map := map }) s)
  | _ => s

/-- R134, R136: the STORE enters PROGRAMMING, or goes on in it, and asks for its next fragment's program. -/
def startProgramming (s : State) : State :=
  match s.engine.work with
  | .store w => requestFragment (setWork (.store { w with phase := .programming }) s)
  | _ => s

/-- R75, R135, R136: the engine's claim is refused SHORT: a reservation waits for space and places a demand; a further
cell ends the STORE NO_SPACE through the cleanup. -/
def engineShort (s : State) : State :=
  match s.engine.work with
  | .store w =>
    if w.phase = .reserving then
      demand (modEngine (fun e => { e with state := .waitSpace, work := .store { w with phase := .waiting } }) s)
    else startCleaning .noSpace (w.map.take w.next) s
  | _ => s

/-- R72: the claimant asks for the advance of the sector at the head of the ready-sector queue to IN_USE. -/
def requestOpening (who : Requester) (s : State) : State :=
  match s.table.queue with
  | n :: _ => placeWaiting who (.advanceHeader n .inUse) s
  | [] => s

/-- R71: the claim at the head of the list is dealt with, and each claim that reaches the head after it; the first
argument bounds how many. A claim that needs an opening stays at the head. The background start is evaluated once for
each claim served, after its last cell: DESIGN CHOICE, notes/assumptions/47.md. -/
def dealClaims : Nat → State → State
  | 0, s => s
  | n + 1, s =>
    match s.table.claims with
    | [] => s
    | c :: _ =>
      match c.who with
      | .engine =>
        if s.erasedCount < c.count + Config.reserve then dealClaims n (engineShort (dropClaim s))
        else if c.count ≤ s.openRoom then
          let (cells, s1) := handOut c.count (dropClaim s)
          dealClaims n (startProgramming (assignCells cells (evaluate s1)))
        else requestOpening .engine s
      | .reclaimer | .scanner =>
        if s.erasedCount = 0 then dealClaims n (enterHalted .empty (dropClaim s))
        else if c.count ≤ s.openRoom then
          let (cells, s1) := handOut c.count (dropClaim s)
          dealClaims n (requestCopy (assignCopy cells (evaluate s1)))
        else requestOpening .reclaimer s

/-- R71: a claim arrives; at an empty list it is dealt with at once. -/
def claim (who : Requester) (k : Nat) (s : State) : State :=
  let s1 := appendClaim who k s
  if s.table.claims = [] then dealClaims 1 s1 else s1

/-- R76: the Reclaimer's claim leaves the list, and a claim that was behind it reaches the head. -/
def withdrawClaimDeal (s : State) : State :=
  let s1 := withdrawClaim s
  if headClaimIs .reclaimer s then dealClaims s1.table.claims.length s1 else s1

/-- R72: the grant of an opening advance: the head claim is served, and the next claim reaches the head. The background
start is evaluated once, after the last cell of the claim is handed out: DESIGN CHOICE, notes/assumptions/47.md. -/
def openingGranted (who : Requester) (n : Nat) (s : State) : State :=
  match s.table.claims with
  | c :: _ =>
    if c.who = who then
      let (cells, s1) := openSectorFor c.count n (dropClaim s)
      let s2 := evaluate s1
      let s3 := match who with
        | .engine => assignCells cells s2
        | .reclaimer | .scanner => assignCopy cells s2
      dealClaims s3.table.claims.length s3
    else s
  | [] => s

/-! ### The Reclaimer's return to IDLE (R106) -/

/-- R135, R146: the engine takes ENDED: a STORE in WAITING claims again, a RECLAIM ends DONE. -/
def answerEnded (s : State) : State :=
  match s.engine.work with
  | .store w =>
    if w.phase = .waiting then
      claim .engine w.count
        (modEngine (fun e => { e with state := .running, work := .store { w with phase := .reserving } }) s)
    else s
  | .reclaim _ => finish .done 0 0 none 0 s
  | _ => s

/-- R106: the Reclaimer enters IDLE from ERASING. Where a taken request is answered ENDED and a background start is due
in the same event, the order of the two is a free value (R135). The background start is evaluated before the engine
takes its next command in that event (R116): DESIGN CHOICE, notes/assumptions/49.md. -/
def enterIdle (s : State) : State :=
  let s1 := modReclaimer (fun r => { r with state := .idle, victim := none, cursor := 0, faults := 0, cause := .none,
                                            reloc := none, request := .none }) s
  match s.reclaimer.request with
  | .none => evaluate s1
  | .reclaimWaiting => evaluate (reclaimRequest s1)
  | .demandTaken | .reclaimTaken =>
    if backgroundDue s1 && (chooseVictim s1).isSome then
      if Config.startBeforeAnswer s1.free then answerEnded (evaluate (useFree s1))
      else evaluate (answerEnded (useFree s1))
    else evaluate (answerEnded s1)

/-! ### FORMAT (R148 to R152) -/

/-- R150, R152: FORMAT examines the sectors from `from_` on: it asks for the erase, or the WORN advance, of the next
ERASE_PENDING sector; past the last it asks for the rebuild and ends DONE. -/
def formatExamine (from_ : Nat) (s : State) : State :=
  match (List.range 32).find? fun n => decide (from_ ≤ n) && decide ((s.recAt n).state = .erasePending) with
  | some n =>
    let r := s.recAt n
    placeWaiting .engine
      (if dueForWear r then .advanceHeader n .worn else .erase n s.engine.epoch (nextEraseCount r.erases))
      (setWork (.format { erasing := true, next := n }) s)
  | none => endFormat .done (rebuildQueue (setWork (.format { erasing := true, next := 32 }) s))

/-- R81, R69: what FORMAT's clears make of a record: the live and the blank cells move to dead, and a record not WORN
takes ERASE_PENDING and role none. -/
def clearedRec (r : SectorRec) : SectorRec :=
  let r1 := { r with blank := 0, live := 0, dead := r.dead + r.live + r.blank }
  if r.state = .worn then r1 else { r1 with state := .erasePending, role := .none }

/-- R149: the Reclaimer has told the FORMAT that it stopped. -/
def formatClear (s : State) : State :=
  let s1 := (s.setIndex []).setTable
    { s.table with recs := s.table.recs.map clearedRec, cursor := 32, queue := [], claims := [] }
  formatExamine 0 (modEngine (fun e => { e with seqNext := 1, epoch := e.epoch + 1 }) s1)

/-- R109: the Reclaimer, asked to stop, stops at the completion it has taken, and tells the FORMAT. -/
def stopAndTell (s : State) : State := formatClear (stopNow s)

/-! ### Beginning a command (R116, R133 to R148) -/

/-- R133: a STORE is taken. -/
def beginStore (c : Command) (s : State) : State :=
  let present := (lookup c.keyNum s.index).isSome
  if Config.seqExhausted ≤ s.engine.seqNext then finishPlain .seqExhausted s
  else if !present && decide (Config.indexCapacity ≤ s.index.length) then finishPlain .indexFull s
  else
    let n := fragmentCount c.lenNum
    let w : StoreWork :=
      { phase := .reserving, replaces := present, seq := s.engine.seqNext, count := n, map := [], next := 0,
        fails := 0, oldMap := none, toRetire := [], ending := .done }
    claim .engine n (modEngine (fun e => { e with seqNext := e.seqNext + 1, work := .store w }) s)

/-- R139: a FETCH is taken. -/
def beginFetch (c : Command) (s : State) : State :=
  match lookup c.keyNum s.index with
  | none => finishPlain .notFound s
  | some e =>
    placeEngineRead (e.map.headD 0)
      (pinCells e.map
        (setWork (.fetch { seq := e.seq, len := e.len, count := e.count, map := e.map, next := 0, readOnce := false,
                           delivered := 0 }) s))

/-- R143: a DROP is taken. -/
def beginDrop (c : Command) (s : State) : State :=
  match lookup c.keyNum s.index with
  | none => finishPlain .notFound s
  | some e =>
    requestRetire (e.map.headD 0)
      (pinCells e.map (setWork (.drop { head := e.map.headD 0, removed := none, toRetire := [] }) s))

/-- R144: a PROBE is taken and ends. -/
def beginProbe (c : Command) (s : State) : State :=
  match lookup c.keyNum s.index with
  | none => finishPlain .notFound s
  | some e => finish .done c.keyNum e.len (some e.seq) e.count s

/-- R145: a NEXT is taken and ends. -/
def beginNext (c : Command) (s : State) : State :=
  match successor c.keyNum s.index with
  | none => finishPlain .notFound s
  | some e => finish .done e.key e.len (some e.seq) e.count s

/-- R146: a RECLAIM is taken. -/
def beginReclaim (s : State) : State := reclaimRequest (setWork (.reclaim false) s)

/-- R148: a FORMAT is taken. -/
def beginFormat (s : State) : State :=
  if Config.epochEnd ≤ s.engine.epoch then endFormat .epochExhausted s
  else
    let (stopped, s1) := requestStop (setWork (.format { erasing := false, next := 0 }) s)
    if stopped then formatClear s1 else s1

/-- R116: the engine takes a command and begins it. -/
def beginCommand (c : Command) (s : State) : State :=
  let s1 := modEngine (fun e => { e with state := .running, cmd := some c, work := .none }) s
  match c.kind with
  | .store => beginStore c s1
  | .fetch => beginFetch c s1
  | .drop => beginDrop c s1
  | .probe => beginProbe c s1
  | .next => beginNext c s1
  | .reclaim => beginReclaim s1
  | .format => beginFormat s1

/-- R116: at the end of an event, an IDLE engine of a READY part takes the head of the Command Queue, and the next one
if that command ended at once; the first argument bounds how many. -/
def takeCommands : Nat → State → State
  | 0, s => s
  | n + 1, s =>
    match s.cmds.queue with
    | [] => s
    | c :: rest =>
      if s.engine.state = .idle ∧ s.deviceReady then
        takeCommands n (beginCommand c (s.setCmds { s.cmds with queue := rest }))
      else s

/-- R116: every command the engine can take in this event is taken, after the evaluations of the background start that
fall in it: DESIGN CHOICE, notes/assumptions/49.md. -/
def takeAll (s : State) : State := takeCommands s.cmds.queue.length s

/-! ### Outcomes taken by the engine -/

/-- R41, R137: the STORE asks for the next retirement, or ends when none is left. -/
def storeRetireNext (s : State) : State :=
  match s.engine.cmd, s.engine.work with
  | some c, .store w =>
    match w.toRetire.tail with
    | next :: rest => requestRetire next (setWork (.store { w with toRetire := next :: rest }) s)
    | [] =>
      if w.phase = .retiring then finish .done c.keyNum c.lenNum (some w.seq) w.count s
      else finishPlain w.ending s
  | _, _ => s

/-- R39, R54, R55: the commit event. The background start is evaluated once, after the moves of both maps: DESIGN CHOICE,
notes/assumptions/47.md. -/
def commitEvent (s : State) : State :=
  match s.engine.cmd, s.engine.work with
  | some c, .store w =>
    let entry : IndexEntry := { key := c.keyNum, seq := w.seq, len := c.lenNum, count := w.count, map := w.map }
    let old := lookup c.keyNum s.index
    let s1 := modCells deadToLive w.map (s.setIndex (upsert entry s.index))
    match old with
    | none => finish .done c.keyNum c.lenNum (some w.seq) w.count (evaluate s1)
    | some e =>
      let s2 := evaluate (modCells liveToDead e.map s1)
      let s3 := pinCells e.map
        (setWork (.store { w with phase := .retiring, oldMap := some e.map, toRetire := e.map }) s2)
      match e.map with
      | h :: _ => requestRetire h s3
      | [] => finish .done c.keyNum c.lenNum (some w.seq) w.count s3
  | _, _ => s

/-- R37, R38, R136, R137: the engine takes the outcome of a fragment's program. -/
def storeProgramEnded (out : ArrayOutcome) (s : State) : State :=
  match s.engine.work with
  | .store w =>
    if out = .done then
      let w1 := { w with next := w.next + 1 }
      if w1.next < w.count then requestFragment (setWork (.store w1) s)
      else placeWaiting .engine (.advanceCell (w.map.headD 0) .committed)
        (setWork (.store { w1 with phase := .committing }) s)
    else
      let w1 := { w with fails := w.fails + 1 }
      let s1 := setWork (.store w1) s
      if w1.fails < 3 then claim .engine 1 s1 else startCleaning .arrayFault (w.map.take w.next) s1
  | _ => s

/-- R39, R40, R138: the engine takes the outcome of its commit advance. -/
def storeCommitEnded (out : ArrayOutcome) (s : State) : State :=
  match s.engine.work with
  | .store w =>
    match out with
    | .done => commitEvent s
    | .failed => startCleaning .arrayFault w.map.tail s
    | .notAdvanced | .abandoned => startCleaning .arrayFault w.map s
  | _ => s

/-- R43: the DROP asks for the next retirement, or ends DONE when none is left. -/
def dropRetire (cells removed : List Nat) (d : DropWork) (s : State) : State :=
  match cells with
  | next :: _ => requestRetire next (setWork (.drop { d with toRetire := cells }) s)
  | [] => finish .done ((s.engine.cmd.map Command.keyNum).getD 0) 0 none removed.length s

/-- R43: the engine takes the outcome of a DROP's retirement. After the head retirement the removed map's cells follow
in fragment order, but for one already retired. -/
def dropAdvanceEnded (cell : Nat) (s : State) : State :=
  match s.engine.work with
  | .drop d =>
    let removed := d.removed.getD []
    match d.toRetire with
    | [] => dropRetire (removed.filter fun c => decide (c ≠ cell)) removed d s
    | _ :: rest => dropRetire rest removed d s
  | _ => s

/-- R57, R58, R99: the removal of an entry answers the relocation in progress whose source it held. -/
def answerRelocation (removed : List Nat) (s : State) : State :=
  match s.reclaimer.reloc with
  | some x =>
    if x.source ∈ removed ∧ !x.refused ∧ s.reclaimer.state = .moving then
      endRelocation (withdrawClaimDeal (withdrawRequest s))
    else s
  | none => s

/-- R42, R56: the grant of a DROP's head retirement: the index removes the entry and hands over the removed map.
The background start is evaluated once, after the moves of the whole map: DESIGN CHOICE, notes/assumptions/47.md. -/
def dropRemoval (s : State) : State :=
  match s.engine.cmd, s.engine.work with
  | some c, .drop d =>
    if d.removed.isNone then
      let removed := match lookup c.keyNum s.index with
        | some e => e.map
        | none => []
      let s1 := modCells liveToDead removed (s.setIndex (removeKey c.keyNum s.index))
      answerRelocation removed (evaluate (pinCells removed (setWork (.drop { d with removed := some removed }) s1)))
    else s
  | _, _ => s

/-- R140: whether a read of fragment `f` passes the FETCH's comparison. -/
def fetchPasses (c : Command) (w : FetchWork) (o : ReadOutcome) : Bool :=
  match o.cond, o.header with
  | .readable, some h =>
    decide (h.key = c.keyNum ∧ h.seq = w.seq ∧ h.count = w.count ∧ h.frag = w.next ∧
      h.payLen = fragmentBytes w.len w.next) &&
      decide (check16 (o.payload.take h.payLen) = h.payCheck)
  | _, _ => false

/-- R140, R141, R163: the engine takes the outcome of a FETCH's read. -/
def fetchReadEnded (o : ReadOutcome) (s : State) : State :=
  match s.engine.cmd, s.engine.work with
  | some c, .fetch w =>
    if fetchPasses c w o then
      let n := fragmentBytes w.len w.next
      let w1 := { w with next := w.next + 1, readOnce := false, delivered := w.delivered + n }
      let s1 := setWork (.fetch w1) (writeBytes (c.buf.getD .bufA) (64 * w.next) (o.payload.take n) s)
      if w1.next < w.count then placeEngineRead (w.map.getD w1.next 0) s1
      else finish .done c.keyNum w.len (some w.seq) w.count s1
    else if w.readOnce then finish .dataCheck c.keyNum w.delivered (some w.seq) w.count s
    else placeEngineRead (w.map.getD w.next 0) (setWork (.fetch { w with readOnce := true }) s)
  | _, _ => s

/-- R40, R41, R43: the engine takes the outcome of a cell's state advance. -/
def engineCellAdvanceEnded (cell : Nat) (out : ArrayOutcome) (s : State) : State :=
  match s.engine.work with
  | .store w => if w.phase = .committing then storeCommitEnded out s else storeRetireNext s
  | .drop _ => dropAdvanceEnded cell s
  | _ => s

/-- R134, R136, R151: the engine takes the outcome of a header advance: an opening is followed by the program it was
for, whatever the outcome; FORMAT's WORN advance ending NOT_ADVANCED is taken as FAILED. -/
def engineHeaderAdvanceEnded (n : Nat) (out : ArrayOutcome) (s : State) : State :=
  match s.engine.work with
  | .store _ => startProgramming s
  | .format _ => formatExamine (n + 1) (if out = .notAdvanced then makeWorn n s else s)
  | _ => s

/-- R151: the engine takes the end of a FORMAT's erase. -/
def engineEraseEnded (n : Nat) (s : State) : State :=
  match s.engine.work with
  | .format _ => formatExamine (n + 1) s
  | _ => s

/-! ### Outcomes taken by the Reclaimer -/

/-- R94: the Reclaimer takes the outcome of its source's read and claims one cell. -/
def reclaimerReadEnded (o : ReadOutcome) (s : State) : State :=
  if stopping s then stopAndTell s
  else
    claim .reclaimer 1
      (modReclaimer (fun r => { r with reloc := r.reloc.map fun x => { x with reading := some o } }) s)

/-- R97: a refused copy is retired. -/
def retireCopy (copy : Nat) (s : State) : State :=
  placeWaiting .reclaimer (.advanceCell copy .retired)
    (modReclaimer (fun r => { r with reloc := r.reloc.map fun x => { x with refused := true } }) s)

/-- R96, R97, R98: the Reclaimer takes the outcome of a copy's program. One that is asked to stop takes it in the same
way, but makes no claim and places no request (R109): its third failure halts it, which raises FAULT (R107), and it stops
from HALTED in that event. -/
def reclaimerProgramEnded (out : ArrayOutcome) (s : State) : State :=
  match s.reclaimer.reloc with
  | some { source := source, reading := some o, copy := some copy, .. } =>
    if out = .done then
      let (accepted, s1) := conditionalUpdate copy source o s
      if stopping s1 then stopAndTell s1
      else if accepted then endRelocation s1
      else retireCopy copy s1
    else
      let s1 := modReclaimer (fun r => { r with faults := r.faults + 1,
                                                reloc := r.reloc.map fun x => { x with copy := none } }) s
      if s1.reclaimer.faults < 3 then if stopping s1 then stopAndTell s1 else claim .reclaimer 1 s1
      else if stopping s1 then stopAndTell (haltReclaimer .faults s1)
      else enterHalted .faults s1
  | _ => if stopping s then stopAndTell s else s

/-- R97: the Reclaimer takes the end of a refused copy's retirement, whatever its outcome. -/
def reclaimerCellAdvanceEnded (s : State) : State := if stopping s then stopAndTell s else endRelocation s

/-- R92, R95, R104: the Reclaimer takes the end of a header advance: marking, opening or WORN. -/
def reclaimerHeaderAdvanceEnded (n : Nat) (target : SectorState) (out : ArrayOutcome) (s : State) : State :=
  match target with
  | .worn =>
    let s1 := if out = .notAdvanced then makeWorn n s else s
    if stopping s1 then stopAndTell s1 else enterIdle s1
  | .reclaiming =>
    if stopping s then stopAndTell s
    else reachCursor (modReclaimer (fun r => { r with state := .moving }) s)
  | .inUse | .ready => if stopping s then stopAndTell s else requestCopy s

/-- R103: the Reclaimer takes the end of the victim's erase, DONE or FAILED. -/
def reclaimerEraseEnded (s : State) : State := if stopping s then stopAndTell s else enterIdle s

/-- R110: the Reclaimer takes over a RECLAIMING sector from the recovery scan. -/
def takeOver (victim : Nat) (s : State) : State :=
  let s1 := modReclaimer (fun r => { r with victim := some victim, cursor := 0, faults := 0, cause := .none,
                                            state := .moving }) s
  if (s1.recAt victim).live = 0 then
    drainStep (modReclaimer (fun r => { r with state := .draining }) s1)
  else reachCursor s1

end Sys2Proof.Machine
end

