-- ==== Sys2Proof/Machine/ScanOps.lean ====
section
/-! DEFINITION. Machine/ScanOps.lean: the Recovery Scanner (09_start_up_and_recovery.md, R172 to R191): its ten steps,
in their order from the last to the first, since each begins in the event in which the one before ends. -/

namespace Sys2Proof.Machine

/-- The scanner block changed. -/
def modScanner (f : Scanner → Scanner) (s : State) : State := s.setScanner (f s.scanner)

/-- R173: the highest erase count among readable headers, 0 if none is readable. -/
def highestErases (headers : List HeaderFound) : Nat :=
  headers.foldl (fun m h => match h with | .readable _ _ e => max m e | _ => m) 0

/-- R174: the highest epoch among readable headers, 1 if none is readable. -/
def highestEpoch (headers : List HeaderFound) : Nat :=
  headers.foldl (fun m h => match h with | .readable _ e _ => max m e | _ => m) 1

/-! ### Steps 8 to 10: allocation, READY, hand-over -/

/-- R188: the position after the last cell of a sector that is not BLANK, from what step 3 found. -/
def afterLastUsed (n : Nat) (found : List CellFound) : Nat :=
  found.foldl (fun m f => if sectorOf f.cell = n then max m (f.cell % 32 + 1) else m) 0

/-- R188: one more than the highest sequence of a READABLE cell of a sector, 0 where it holds none. -/
def sequenceRank (n : Nat) (found : List CellFound) : Nat :=
  found.foldl (fun m f => match f.header with
    | some h => if sectorOf f.cell = n then max m (h.seq + 1) else m
    | none => m) 0

/-- R188: whether sector `n` qualifies as the open sector. -/
def canOpen (s : State) (n : Nat) : Bool :=
  decide ((s.recAt n).state = .inUse) && decide ((s.recAt n).epoch = s.engine.epoch) &&
    decide (afterLastUsed n s.scanner.found < 32)

/-- R188: the sector of highest rank in a list in ascending number, the lowest number among equals. -/
def bestOpen (found : List CellFound) : List Nat → Option Nat
  | [] => none
  | n :: rest =>
    match bestOpen found rest with
    | none => some n
    | some m => if sequenceRank n found < sequenceRank m found then some m else some n

/-- R188: the open sector chosen. -/
def chooseOpen (s : State) : Option Nat := bestOpen s.scanner.found ((List.range 32).filter (canOpen s))

/-- R187, R188: the record of sector `n` with its counts, given the open sector and its cursor. -/
def countedRec (index : List IndexEntry) (open_ : Option Nat) (cursor n : Nat) (r : SectorRec) : SectorRec :=
  if r.state = .worn then wornRec r
  else
    let live := ((cellsOf n).filter fun c => isNamed c index && !(r.faulty.contains c)).length
    let blank := if open_ = some n then
        ((cellsOf n).filter fun c => decide (cursor ≤ c % 32) && !(isNamed c index) && !(r.faulty.contains c)).length
      else 0
    { r with
      blank := blank, live := live, dead := 32 - r.faulty.length - live - blank, faultyCount := r.faulty.length
      role := if open_ = some n then .isOpen else .none }

/-- R191: step 10, the hand-over of a RECLAIMING sector, or the evaluation point of the background start. -/
def scanHandOver (s : State) : State :=
  match (List.range 32).find? fun n =>
      decide ((s.recAt n).state = .reclaiming) && decide ((s.recAt n).epoch = s.engine.epoch) with
  | some n => reportNumber .reclaimResumed n (takeOver n (modRec n (fun r => { r with role := .victim }) s))
  | none => evaluate s

/-- R190: step 9, READY; the findings are discarded. -/
def scanReady (s : State) : State :=
  let s1 := s.setPower { s.power with isReady := true }
  scanHandOver
    (raiseReady (modScanner (fun c => { resetScanner c.cause with step := .finished, ring := c.ring, lost := c.lost }) s1))

/-- R187 to R189: step 8. -/
def scanAllocation (s : State) : State :=
  let open_ := chooseOpen s
  let cursor := match open_ with
    | some n => afterLastUsed n s.scanner.found
    | none => 32
  let recs := s.table.recs.mapIdx fun n r => countedRec s.index open_ cursor n r
  scanReady (rebuildQueue (s.setTable { s.table with recs := recs, cursor := cursor, queue := [], claims := [] }))

/-! ### Step 7: sectors -/

/-- R184 to R186: the request step 7 places for sector `n`, if the sector needs work. -/
def sectorWork (s : State) (n : Nat) : Option ArrayOp :=
  let r := s.recAt n
  let high := highestErases s.scanner.headers
  match r.state with
  | .torn => some (.erase n s.engine.epoch (nextEraseCount high))
  | .erasePending =>
    some (if dueForWear r then .advanceHeader n .worn else .erase n s.engine.epoch (nextEraseCount r.erases))
  | .blankHeader => some (.restoreHeader n s.engine.epoch high)
  | .inUse =>
    match s.scanner.headers.getD n .unread with
    | .readable .ready _ _ => some (.advanceHeader n .inUse)
    | _ => none
  | .reclaiming =>
    match s.scanner.headers.getD n .unread with
    | .readable .ready _ _ | .readable .inUse _ _ => some (.advanceHeader n .reclaiming)
    | _ => none
  | .unscanned | .ready | .worn | .abandoned => none

/-- R184: the first sector from `n` on that needs work, with its request. -/
def nextSectorWork (s : State) (n : Nat) : Option (Nat × ArrayOp) :=
  (List.range 32).findSome? fun k => if n ≤ k then (sectorWork s k).map fun o => (k, o) else none

/-- R184: step 7 from sector `n` on; past the last sector, step 8. -/
def scanSectors (n : Nat) (s : State) : State :=
  match nextSectorWork s n with
  | some (k, o) => placeWaiting .scanner o (modScanner (fun c => { c with step := .sectors, pos := k }) s)
  | none => scanAllocation s

/-- R184: the report of a sector erased, or made WORN in place of the erase. -/
def erasedReport (s : State) (n : Nat) : ReportKind :=
  match s.scanner.headers.getD n .unread with
  | .readable _ _ _ => .oldEpoch
  | .unread | .blank | .torn => .tornSector

/-- R184: the scanner takes the end of an erase. -/
def scanEraseEnded (n : Nat) (out : ArrayOutcome) (s : State) : State :=
  let s1 := reportNumber (erasedReport s n) n s
  scanSectors (n + 1) (if out = .failed then reportNumber .recoveryFault (1024 + n) s1 else s1)

/-- R185: the scanner takes the end of a header restoration. -/
def scanRestoreEnded (n : Nat) (out : ArrayOutcome) (s : State) : State :=
  scanSectors (n + 1)
    (if out = .failed then reportNumber .recoveryFault (1024 + n) s else reportNumber .headerRestored n s)

/-- R184, R186: the scanner takes the end of a header advance. -/
def scanHeaderAdvanceEnded (n : Nat) (target : SectorState) (out : ArrayOutcome) (s : State) : State :=
  match target with
  | .worn => scanSectors (n + 1) (reportNumber .oldEpoch n (if out = .notAdvanced then makeWorn n s else s))
  | .ready | .inUse | .reclaiming =>
    let s1 := reportNumber .headerRestored n s
    scanSectors (n + 1) (if out = .failed then reportNumber .recoveryFault (1024 + n) s1 else s1)

/-! ### Steps 5 and 6: the index and the sequence counter -/

/-- R183: one more than the highest sequence of a READABLE cell read in step 3, of any state, or 1. -/
def nextSequence (found : List CellFound) : Nat :=
  found.foldl (fun m f => match f.header with | some h => max m (h.seq + 1) | none => m) 1

/-- R182, R183: steps 5 and 6, and step 7 from its first sector. -/
def scanIndex (s : State) : State :=
  scanSectors 0 (modEngine (fun e => { e with seqNext := nextSequence s.scanner.found }) (s.setIndex s.scanner.chosen))

/-! ### Step 4: records -/

/-- A cell kept for step 4, R175, R176. -/
structure Member where
  cell : Nat
  state : CellState
  key : Nat
  seq : Nat
  frag : Nat
  count : Nat
  len : Nat
  deriving DecidableEq, Repr

/-- R175, R176: the cells kept for step 4: READABLE, not FAULTY, of READY, IN_USE and RECLAIMING sectors. -/
def membersOf (s : State) : List Member :=
  s.scanner.found.filterMap fun f =>
    match f.header with
    | some h =>
      if f.state ≠ .faulty ∧ (s.recAt (sectorOf f.cell)).state ∈ [RecState.ready, .inUse, .reclaiming] then
        some { cell := f.cell, state := f.state, key := h.key, seq := h.seq, frag := h.frag, count := h.count,
               len := h.recLen.getD 0 }
      else none
    | none => none

/-- R176: two members carry one fragment. -/
def sameFragment (x y : Member) : Bool := decide (x.key = y.key ∧ x.seq = y.seq ∧ x.frag = y.frag)

/-- R176: the members left when those inside the RECLAIMING sector with a member of their fragment outside it are set
aside. -/
def keepOutside (reclaiming : Option Nat) (ms : List Member) : List Member :=
  match reclaiming with
  | none => ms
  | some r => ms.filter fun m =>
      !(decide (sectorOf m.cell = r) && ms.any fun x => sameFragment x m && decide (sectorOf x.cell ≠ r))

/-- R177: the members of fragments with two or more members. -/
def duplicates (ms : List Member) : List Member :=
  ms.filter fun m => decide (2 ≤ (ms.filter (sameFragment m)).length)

/-- R177: the IN_USE sector that is the unmarked victim of the relocations that made the duplicates. -/
def unmarkedVictim (s : State) (ms : List Member) : Option Nat :=
  let dups := duplicates ms
  if dups = [] then none
  else (List.range 32).find? fun n =>
    decide ((s.recAt n).state = .inUse) && decide ((s.recAt n).epoch = s.engine.epoch) &&
      (dups.all fun d => dups.any fun x => sameFragment x d && decide (sectorOf x.cell = n)) &&
      (dups.all fun x => decide (sectorOf x.cell ≠ n) ||
        (dups.all fun y => !(sameFragment x y) || decide (cellRank x.state ≤ cellRank y.state)))

/-- R177: member `x` is kept before member `m`: a later state, or an equal state in a higher-numbered sector. -/
def keptBefore (x m : Member) : Bool :=
  decide (cellRank m.state < cellRank x.state ∨ (x.state = m.state ∧ m.cell < x.cell))

/-- R177: whether a member is one of those advanced to FAULTY. -/
def demoted (ms : List Member) (m : Member) : Bool := ms.any fun x => sameFragment x m && keptBefore x m

/-- The members of a group in ascending fragment, then ascending cell. -/
def sortMembers (ms : List Member) : List Member :=
  ms.insertionSort fun x y => x.frag < y.frag ∨ (x.frag = y.frag ∧ x.cell ≤ y.cell)

/-- R176: the group of a key and a sequence. -/
def groupOf (key seq : Nat) (ms : List Member) : List Member :=
  sortMembers (ms.filter fun m => decide (m.key = key ∧ m.seq = seq))

/-- The values of a list once each, ascending. -/
def ascending (l : List Nat) : List Nat := l.dedup.insertionSort (· ≤ ·)

/-- Every value of a list of present values. -/
def allPresent : List (Option Nat) → Option (List Nat)
  | [] => some []
  | none :: _ => none
  | some x :: rest => (allPresent rest).map (x :: ·)

/-- R178: the member of fragment 0, if its state is COMMITTED. -/
def committedHead (g : List Member) : Option Member :=
  g.find? fun m => decide (m.frag = 0 ∧ m.state = .committed)

/-- R28, R178: the index entry of a group that is a complete generation. -/
def completeEntry (g : List Member) : Option IndexEntry :=
  match committedHead g with
  | none => none
  | some h =>
    let cells := (List.range h.count).map fun f =>
      if f = 0 then some h.cell
      else (g.find? fun m => decide (m.frag = f ∧ m.state = .written ∧ m.count = h.count)).map Member.cell
    (allPresent cells).map fun map => { key := h.key, seq := h.seq, len := h.len, count := h.count, map := map }

/-- R178: the sequences of a key, ascending. -/
def sequencesOf (key : Nat) (ms : List Member) : List Nat :=
  ascending ((ms.filter fun m => decide (m.key = key)).map Member.seq)

/-- R178: the live generation of a key: the complete group of highest sequence. -/
def liveGeneration (key : Nat) (ms : List Member) : Option IndexEntry :=
  (sequencesOf key ms).reverse.findSome? fun q => completeEntry (groupOf key q ms)

/-- R179: a cell that step 4 retires: WRITTEN or COMMITTED. -/
def retirable (m : Member) : Bool := decide (m.state = .written ∨ m.state = .committed)

/-- A retirement list entry that asks for RETIRED. -/
def toRetired (m : Member) : Nat × CellState := (m.cell, .retired)

/-- A report about the group of a member. -/
def groupReport (k : ReportKind) (m : Member) : Report :=
  { kind := k, num := m.cell, key := some m.key, seq := some m.seq }

/-- R178, R179: the report and the retirements of one group, given the key's live generation. Of the cells left over
beside the live generation only WRITTEN and COMMITTED ones are retired, and none is reported where all of them are
RETIRED: DEDUCED, notes/assumptions/46.md. -/
def settleGroup (live : Option IndexEntry) (key seq : Nat) (ms : List Member) : List Report × List (Nat × CellState) :=
  let g := groupOf key seq ms
  let orphan (l : List Member) : List Report × List (Nat × CellState) :=
    match l, l.filter retirable with
    | m :: _, r :: rest => ([groupReport .orphan m], (r :: rest).map toRetired)
    | _, _ => ([], [])
  match live with
  | some e =>
    if e.seq = seq then orphan (g.filter fun m => !(e.map.contains m.cell))
    else
      match committedHead g with
      | some h =>
        if seq < e.seq then ([groupReport .superseded h], (g.filter retirable).map toRetired)
        else ([groupReport .incompleteRecord h], g.map toRetired)
      | none => orphan g
  | none =>
    match committedHead g with
    | some h => ([groupReport .incompleteRecord h], g.map toRetired)
    | none => orphan g

/-- R177: the report and the FAULTY advances of the members of one group that are not kept, in ascending fragment, then
ascending cell. The order inside the group, and their place before the group's own report and retirements, are a
DESIGN CHOICE: notes/assumptions/45.md. -/
def settleDuplicates (key seq : Nat) (out : List Member) : List Report × List (Nat × CellState) :=
  let g := groupOf key seq out
  (g.map fun m => { kind := .recoveryFault, num := m.cell, key := none, seq := none },
   g.map fun m => (m.cell, CellState.faulty))

/-- R177 to R179, R181: the reports and retirements of one key, its groups in ascending sequence. -/
def settleKey (key : Nat) (ms out : List Member) : List Report × List (Nat × CellState) :=
  let live := liveGeneration key ms
  let parts := (ascending (((ms ++ out).filter fun m => decide (m.key = key)).map Member.seq)).map fun q =>
    let a := settleDuplicates key q out
    let b := settleGroup live key q ms
    (a.1 ++ b.1, a.2 ++ b.2)
  ((parts.map Prod.fst).flatten, (parts.map Prod.snd).flatten)

/-- R180: the report and the retirements of a live generation beyond the 256 lowest keys. -/
def overflowEntry (e : IndexEntry) : Report × List (Nat × CellState) :=
  ({ kind := .indexOverflow, num := e.map.headD 0, key := some e.key, seq := some e.seq },
   e.map.map fun c => (c, CellState.retired))

/-- R181: the next entry of the retirement list is asked for; when it is empty, step 5 begins. -/
def scanRetire (s : State) : State :=
  match s.scanner.retire with
  | (c, t) :: _ => placeWaiting .scanner (.advanceCell c t) (modScanner (fun x => { x with step := .records }) s)
  | [] => scanIndex s

/-- R177, R181: the scanner takes the end of an advance of its retirement list. A cell advanced to FAULTY joins the
faulty set, as one of the faulty class (R33): DEDUCED, notes/assumptions/26.md. -/
def scanCellAdvanceEnded (c : Nat) (target : CellState) (out : ArrayOutcome) (s : State) : State :=
  let s1 := if out = .done ∧ target = .faulty then cellFailed c s else s
  let s2 := if out = .failed then reportNumber .recoveryFault c s1 else s1
  scanRetire (modScanner (fun x => { x with retire := x.retire.tail }) s2)

/-- R174: the sector of a RECLAIMING record. -/
def reclaimingSectors (s : State) : List Nat :=
  (List.range 32).filter fun n => decide ((s.recAt n).state = .reclaiming)

/-- R176 to R180: step 4 up to its retirement list. -/
def scanRecords (s : State) : State :=
  let all := membersOf s
  let unmarked := if reclaimingSectors s = [] then unmarkedVictim s all else none
  let s1 := match unmarked with
    | some n => modRec n (fun r => { r with state := .reclaiming }) s
    | none => s
  let kept := keepOutside (reclaimingSectors s1).head? all
  let out := kept.filter (demoted kept)
  let ms := kept.filter fun m => !(demoted kept m)
  let keys := ascending (kept.map Member.key)
  let settled := keys.map fun k => settleKey k ms out
  let live := keys.filterMap fun k => liveGeneration k ms
  let excess := (live.drop Config.indexCapacity).map overflowEntry
  let reports := (settled.map Prod.fst).flatten ++ excess.map Prod.fst
  let retire := (settled.map Prod.snd).flatten ++ (excess.map Prod.snd).flatten
  scanRetire (modScanner (fun x => { x with retire := retire, chosen := live.take Config.indexCapacity })
    (reports.foldl (fun s r => report r s) s1))

/-! ### Steps 1 to 3: headers, epoch, cells -/

/-- R174: of several RECLAIMING sectors one is kept, and each of the others is recorded WORN and reported, in ascending
sector number: DESIGN CHOICE, notes/assumptions/50.md. -/
def settleReclaiming (s : State) : State :=
  match reclaimingSectors s with
  | first :: second :: rest =>
    let all := first :: second :: rest
    let keep := (all.find? fun n => !(dueForWear (s.recAt n))).getD first
    (all.filter fun n => decide (n ≠ keep)).foldl (fun s n => reportNumber .recoveryFault (1024 + n) (makeWorn n s)) s
  | _ => s

/-- R175: whether step 3 reads the cells of a sector. -/
def readInStep3 (s : State) (n : Nat) : Bool :=
  decide ((s.recAt n).state ∈ [RecState.ready, .inUse, .reclaiming, .worn]) &&
    decide ((s.recAt n).epoch = s.engine.epoch)

/-- R175: step 3 from cell `c` on; past the last cell to read, the end of step 3 and step 4. -/
def scanCells (c : Nat) (s : State) : State :=
  match (List.range Config.cells).find? fun k => decide (c ≤ k) && readInStep3 s (sectorOf k) with
  | some k => placeWaiting .scanner (.read k) (modScanner (fun x => { x with step := .cells, pos := k }) s)
  | none => scanRecords (settleReclaiming s)

/-- R175: the scanner takes the read of a cell. The counts stay those of R66 until step 8 (R173). -/
def scanReadEnded (c : Nat) (o : ReadOutcome) (s : State) : State :=
  if o.cond = .blank then scanCells (c + 1) s
  else
    let n := sectorOf c
    let s1 := modScanner (fun x => { x with
      found := x.found ++ [{ cell := c, cond := o.cond, state := o.state, header := o.header }] }) s
    let s2 :=
      if o.state = .faulty then cellFailed c s1
      else if o.cond = .torn ∧ (s.recAt n).state ≠ .worn then reportNumber .tornCell c s1
      else s1
    let s3 := if (s.recAt n).state = .ready then modRec n (fun r => { r with state := .inUse }) s2 else s2
    scanCells (c + 1) s3

/-- R174: what step 2 makes of a record. -/
def epochRec (epoch : Nat) (h : HeaderFound) (r : SectorRec) : SectorRec :=
  match h with
  | .readable st e _ => if e < epoch ∧ st ≠ .worn then { r with state := .erasePending } else r
  | .unread | .blank | .torn => r

/-- R174: step 2, and step 3 from its first cell. -/
def scanEpoch (s : State) : State :=
  let epoch := highestEpoch s.scanner.headers
  let recs := s.table.recs.mapIdx fun n r => epochRec epoch (s.scanner.headers.getD n .unread) r
  scanCells 0 (modEngine (fun e => { e with epoch := epoch }) (s.setTable { s.table with recs := recs }))

/-- R173: the record of a sector after its header read. -/
def headerRec (h : HeaderFound) (r : SectorRec) : SectorRec :=
  match h with
  | .readable st epoch erases => { r with state := recStateOf st, epoch := epoch, erases := erases }
  | .blank => { r with state := .blankHeader, epoch := 0, erases := 0 }
  | .torn => { r with state := .torn, epoch := 0, erases := 0 }
  | .unread => r

/-- R173: step 1 asks for the header of sector `n`. -/
def scanHeader (n : Nat) (s : State) : State :=
  placeWaiting .scanner (.headerRead n) (modScanner (fun c => { c with step := .headers, pos := n }) s)

/-- R173: the scanner takes a header read. -/
def scanHeaderEnded (n : Nat) (h : HeaderFound) (s : State) : State :=
  let s1 := modScanner (fun c => { c with headers := c.headers.set n h }) (modRec n (headerRec h) s)
  if n + 1 < 32 then scanHeader (n + 1) s1 else scanEpoch s1

end Sys2Proof.Machine
end

