-- ==== Sys2Proof/Machine/ArrayOps.lean ====
section
/-! DEFINITION. Machine/ArrayOps.lean: the arbiter (R19, R20, R24, R199), what a grant brings about, the delivery of an
operation's completion to the Sector Table and to its requester (R8), and the abandonment of an erase (R198). -/

namespace Sys2Proof.Machine

/-- R8: what acts at the grant: an opening (R72), the marking of a victim (R92), a DROP's removal (R56), the erase mark
(R6). -/
def grantEffect (who : Requester) (op : ArrayOp) (s : State) : State :=
  match op, who with
  | .advanceHeader n .inUse, .engine | .advanceHeader n .inUse, .reclaimer => openingGranted who n s
  | .advanceHeader n .reclaiming, .reclaimer =>
    modRec n (fun r => { r with state := .reclaiming, role := .victim }) s
  | .advanceCell _ .retired, .engine => dropRemoval s
  | .erase n _ _, _ => s.setArray (s.array.eraseMark n)
  | _, _ => s

/-- R8: a waiting request is granted and owns the port. -/
def grant (who : Requester) (op : ArrayOp) (s : State) : State :=
  let c := s.ctl.setWaiting who none
  grantEffect who op (s.setCtl { c with op := some (granted who op) })

/-- R19: a lone Reclaimer request is granted and sets the pass counter to 0. -/
def grantReclaimer (op : ArrayOp) (s : State) : State := grant .reclaimer op (s.setCtl { s.ctl with pass := 0 })

/-- R199: the waiting request of a requester that the arbiter may grant. -/
def grantable (who : Requester) (s : State) : Option ArrayOp :=
  match s.ctl.waiting who with
  | some op => if s.ctl.quiesced && !(isRead op) then none else some op
  | none => none

/-- R20: whether the Reclaimer is granted of the two that wait. -/
def reclaimerFirst (s : State) : Bool := decide (s.erasedCount < 32) || decide (Config.passEnd ≤ s.ctl.pass)

/-- R19, R20, R199: the arbiter at a free point. -/
def arbitrate (s : State) : State :=
  match grantable .scanner s, grantable .engine s, grantable .reclaimer s with
  | some o, _, _ => grant .scanner o s
  | none, some e, some r =>
    if reclaimerFirst s then grantReclaimer r s
    else grant .engine e (s.setCtl { s.ctl with pass := s.ctl.pass + 1 })
  | none, some e, none => grant .engine e s
  | none, none, some r => grantReclaimer r s
  | none, none, none => s

/-- R24: what follows the end of a read in a suspension: an engine read that waits is granted and the suspension goes
on; otherwise the erase resumes. -/
def continueSuspension (erase : Operation) (s : State) : State :=
  match s.ctl.waitEngine with
  | some (.read c) => grant .engine (.read c) s
  | _ => s.setCtl { s.ctl with op := some erase, paused := none }

/-- R8, R19, R20, R24: the point at which the port has become free. -/
def freePoint (s : State) : State :=
  match s.ctl.op, s.ctl.paused with
  | some _, _ => s
  | none, some e => continueSuspension e s
  | none, none => arbitrate s

/-- R19: requests that arrived in an event at a free port. One is granted as it arrives; of two, the first to arrive is
granted as a lone request, and which that is, is a free value. -/
def arrive (s : State) : State :=
  match s.ctl.op, s.ctl.paused with
  | none, none =>
    match grantable .scanner s, grantable .engine s, grantable .reclaimer s with
    | some o, _, _ => grant .scanner o s
    | none, some e, some r =>
      if Config.engineArrivesFirst s.free then grant .engine e (useFree s) else grantReclaimer r (useFree s)
    | none, some e, none => grant .engine e s
    | none, none, some r => grantReclaimer r s
    | none, none, none => s
  | _, _ => s

/-- The end of an event at which the port becomes free: the engine takes its commands, the arbiter grants, and the
engine takes what the grant leads to (R116, R8). That the takes come after what the event's own change evaluated is a
DESIGN CHOICE: notes/assumptions/49.md. -/
def settleFree (s : State) : State := takeAll (freePoint (takeAll s))

/-- The end of an event that is no end of an operation (R116, R19). -/
def settle (s : State) : State := takeAll (arrive (takeAll s))

/-- The port with no operation on it. -/
def portReleased (s : State) : State := s.setCtl { s.ctl with op := none }

/-! ### Completions (R8, R67) -/

/-- R9: a fragment read completes. -/
def endRead (who : Requester) (c : Nat) (s : State) : State :=
  let o := s.array.readCell c
  match who with
  | .engine => fetchReadEnded o (portReleased s)
  | .reclaimer => reclaimerReadEnded o (portReleased s)
  | .scanner => scanReadEnded c o (portReleased s)

/-- R67: the Sector Table takes the outcome of a cell operation; the change of a dead count is an evaluation point. -/
def tableCell (c : Nat) (out : ArrayOutcome) (s : State) : State :=
  if out = .failed then evaluate (cellFailed c s) else s

/-- R67: the Sector Table takes the outcome of a header advance. -/
def tableHeader (n : Nat) (target : SectorState) (out : ArrayOutcome) (s : State) : State :=
  if out = .done ∨ out = .failed then evaluate (headerAdvanced n target s) else s

/-- R10: a cell program completes. -/
def endProgram (who : Requester) (p : Program) (r : ProgramResult) (s : State) : State :=
  let (a, out) := s.array.endProgram p r (Config.programResidue s.free)
  let s1 := tableCell p.cell out ((if out = .failed then useFree (portReleased s) else portReleased s).setArray a)
  match who with
  | .engine => storeProgramEnded out s1
  | .reclaimer => reclaimerProgramEnded out s1
  | .scanner => s1

/-- R12: a cell's state advance completes. -/
def endCellAdvance (who : Requester) (c : Nat) (target : CellState) (r : AdvanceResult) (s : State) : State :=
  let (a, out) := s.array.endCellAdvance c target r
  let s1 := tableCell c out ((portReleased s).setArray a)
  match who with
  | .engine => engineCellAdvanceEnded c out s1
  | .reclaimer => reclaimerCellAdvanceEnded s1
  | .scanner => scanCellAdvanceEnded c target out s1

/-- R12: a sector header's state advance completes. -/
def endHeaderAdvance (who : Requester) (n : Nat) (target : SectorState) (r : AdvanceResult) (s : State) : State :=
  let (a, out) := s.array.endHeaderAdvance n target r
  let s1 := tableHeader n target out ((portReleased s).setArray a)
  match who with
  | .engine => engineHeaderAdvanceEnded n out s1
  | .reclaimer => reclaimerHeaderAdvanceEnded n target out s1
  | .scanner => scanHeaderAdvanceEnded n target out s1

/-- R15, R16, R67: an erase, or a header restoration, completes with its header phase. -/
def endErase (who : Requester) (restore : Bool) (n epoch erases : Nat) (blankVerified : Bool) (r : EraseResult)
    (s : State) : State :=
  let (a, out) := s.array.endHeaderPhase n epoch erases blankVerified r
  let s1 := evaluate (eraseEnded who n epoch erases out ((portReleased s).setArray a))
  match who with
  | .engine => engineEraseEnded n s1
  | .reclaimer => reclaimerEraseEnded s1
  | .scanner => if restore then scanRestoreEnded n out s1 else scanEraseEnded n out s1

/-! ### The power-fail warning (R196 to R201) -/

/-- R198, R201: the ABANDONED outcome of an erase goes to the Sector Table and to its requester, which reissues it; a
Reclaimer that FORMAT is stopping does not. -/
def deliverAbandoned (o : Operation) (s : State) : State :=
  match o.op with
  | .erase n epoch erases =>
    let s1 := eraseEnded o.who n epoch erases .abandoned s
    match o.who with
    | .reclaimer => if stopping s1 then stopAndTell s1 else placeWaiting .reclaimer o.op s1
    | .engine => placeWaiting .engine o.op s1
    | .scanner => placeWaiting .scanner o.op s1
  | .read _ | .headerRead _ | .program _ | .advanceCell _ _ | .advanceHeader _ _ | .restoreHeader _ _ _ => s

/-- R198: the cells of an abandoned erase are in no condition the spec gives; the header keeps the erase mark. -/
def disturb (o : Operation) (s : State) : State :=
  match o.op with
  | .erase n _ _ => useFree (s.setArray (s.array.disturbSector n s.free))
  | _ => s

/-- R197, R198: an erase in its erase phase, running or suspended, is abandoned. -/
def abandonErase (s : State) : State :=
  match s.ctl.paused, s.ctl.op with
  | some e, _ => deliverAbandoned e (disturb e (s.setCtl { s.ctl with paused := none }))
  | none, some o => if o.phase = .erasePhase then deliverAbandoned o (disturb o (portReleased s)) else s
  | none, none => s

/-- R196: the Array Controller becomes quiesced. -/
def enterQuiesce (s : State) : State := abandonErase (s.setCtl { s.ctl with quiesced := true })

/-- R200: the Array Controller leaves quiesce. -/
def leaveQuiesce (s : State) : State := s.setCtl { s.ctl with quiesced := false }

end Sys2Proof.Machine
end

