-- ==== Sys2Proof/Machine/ArrayEvents.lean ====
section
/-! DEFINITION. Machine/ArrayEvents.lean: the meanings of the ends of array operations (R9 to R16, R67, R173). The
operation that ends is the one on the port; an end that is not one of its kind changes nothing (DESIGN CHOICE,
notes/assumptions/8.md). -/

namespace Sys2Proof.Machine

/-- FRAGMENT_READ_COMPLETE (R9). -/
def execFragmentReadComplete (s : State) : Host.Outcome State Fault Refusal :=
  match s.ctl.op with
  | some { op := .read c, who := who, .. } => .next (settleFree (endRead who c s))
  | _ => .next s

/-- HEADER_READ_COMPLETE (R173). -/
def execHeaderReadComplete (s : State) : Host.Outcome State Fault Refusal :=
  match s.ctl.op with
  | some { op := .headerRead n, .. } =>
    .next (settleFree (scanHeaderEnded n (s.array.readHeader n) (portReleased s)))
  | _ => .next s

/-- CELL_PROGRAM_COMPLETE (R10, R11). -/
def execCellProgramComplete (r : ProgramResult) (s : State) : Host.Outcome State Fault Refusal :=
  match s.ctl.op with
  | some { op := .program p, who := who, .. } => .next (settleFree (endProgram who p r s))
  | _ => .next s

/-- STATE_ADVANCE_COMPLETE (R12 to R14). -/
def execStateAdvanceComplete (r : AdvanceResult) (s : State) : Host.Outcome State Fault Refusal :=
  match s.ctl.op with
  | some { op := .advanceCell c target, who := who, .. } => .next (settleFree (endCellAdvance who c target r s))
  | some { op := .advanceHeader n target, who := who, .. } => .next (settleFree (endHeaderAdvance who n target r s))
  | _ => .next s

/-- ERASE_PHASE_END (R15, R16, R197). -/
def execErasePhaseEnd (blankVerified : Bool) (s : State) : Host.Outcome State Fault Refusal :=
  match s.ctl.op with
  | some { op := .erase n epoch erases, who := who, phase := .erasePhase, suspendCount := k } =>
    .next
      ((if blankVerified then s else useFree s).setArray (s.array.endErasePhase n blankVerified s.free) |>.setCtl
        { s.ctl with op := some { who := who, op := .erase n epoch erases, phase := .headerPhase blankVerified,
                                  suspendCount := k } })
  | _ => .next s

/-- SECTOR_ERASE_COMPLETE (R15, R16, R185). -/
def execSectorEraseComplete (r : EraseResult) (s : State) : Host.Outcome State Fault Refusal :=
  match s.ctl.op with
  | some { op := .erase n epoch erases, who := who, phase := .headerPhase bv, .. } =>
    .next (settleFree (endErase who false n epoch erases bv r s))
  | some { op := .restoreHeader n epoch erases, who := who, phase := .headerPhase bv, .. } =>
    .next (settleFree (endErase who true n epoch erases bv r s))
  | _ => .next s

end Sys2Proof.Machine
end

