-- ==== Sys2Proof/Machine/Flags.lean ====
section
/-! DEFINITION. Machine/Flags.lean: what the part shows of its condition: the STATUS byte (R217), the interrupt flags
(R221), and the level of IRQ# (R223). None is stored but the sticky flags and the mask: each follows its cause. -/

namespace Sys2Proof.Machine

/-- A bit as a number. -/
def bitAt (b : Bool) (place : Nat) : Nat := if b then 2 ^ place else 0

/-- A byte from its bits, bit 0 first. -/
def byteOfBits (bits : List Bool) : Byte :=
  BitVec.ofNat 8 ((bits.zipIdx.map fun p => bitAt p.1 p.2).sum)

/-- R117: the engine is RUNNING, WAIT_SPACE or HOLDING. -/
def engineBusy (s : State) : Bool := decide (s.engine.state ≠ .idle)

/-- R84: the Reclaimer is MARKING, MOVING, DRAINING or ERASING. -/
def reclaimActive (s : State) : Bool :=
  match s.reclaimer.state with
  | .marking | .moving | .draining | .erasing => true
  | .idle | .halted => false

/-- R83: the Reclaimer is HALTED. -/
def reclaimHalted (s : State) : Bool := decide (s.reclaimer.state = .halted)

/-- R217: STATUS outside the hold. -/
def statusByte (s : State) : Byte :=
  byteOfBits [s.deviceStarting, s.deviceReady, engineBusy s, reclaimActive s, reclaimHalted s, s.ctl.quiesced,
    s.pfw.asserted]

/-- R130, R221: the COMP flag. -/
def compFlag (s : State) : Bool := !s.comps.isEmpty

/-- R194, R221: the REPORT flag. -/
def reportFlag (s : State) : Bool := !s.scanner.ring.isEmpty

/-- R207, R221: the PFW flag. -/
def pfwFlag (s : State) : Bool := s.ctl.quiesced

/-- R219, R221: IRQ_FLAGS. -/
def irqFlags (s : State) : Byte :=
  byteOfBits [compFlag s, reportFlag s, pfwFlag s, s.irq.ready, s.irq.fault, s.irq.space]

/-- R223: IRQ# is driven low. -/
def irqDriven (s : State) : Bool := s.running && decide (irqFlags s &&& s.irq.mask ≠ 0)

/-- R222: the sticky flags cleared by a byte written to IRQ_FLAGS. -/
def clearSticky (v : Byte) (s : State) : State :=
  s.setIrq { s.irq with
    ready := s.irq.ready && !v.getLsbD 3
    fault := s.irq.fault && !v.getLsbD 4
    space := s.irq.space && !v.getLsbD 5 }

/-- R223: bits 0 to 5 of a byte written to IRQ_MASK are stored. -/
def storeMask (v : Byte) (s : State) : State := s.setIrq { s.irq with mask := v &&& 0x3F }

end Sys2Proof.Machine
end

