-- ==== Sys2Proof/Machine/Operands.lean ====
section
/-! DEFINITION. Machine/Operands.lean: the codes of the coded registers (R112, R122, R166, R192, R220), the fields of the
packed registers (R219), and the two register maps (R215, R216) as the bytes each register reads. -/

namespace Sys2Proof.Machine

/-! ### Codes -/

/-- R112: the kind codes. -/
def kindCode : Kind → Byte
  | .store => 1
  | .fetch => 2
  | .drop => 3
  | .probe => 4
  | .next => 5
  | .reclaim => 6
  | .format => 7

/-- R112: the kind a byte written to SUBMIT names. -/
def kindOfCode (v : Byte) : Option Kind :=
  [Kind.store, .fetch, .drop, .probe, .next, .reclaim, .format].find? fun k => decide (kindCode k = v)

/-- R122: the status codes. -/
def statusCode : Status → Byte
  | .done => 0
  | .notFound => 1
  | .noSpace => 2
  | .indexFull => 3
  | .arrayFault => 4
  | .dataCheck => 5
  | .seqExhausted => 6
  | .epochExhausted => 7
  | .cancelled => 8
  | .nothingToDo => 9

/-- R192: the report codes. -/
def reportCode : ReportKind → Byte
  | .tornCell => 0x01
  | .orphan => 0x02
  | .superseded => 0x03
  | .incompleteRecord => 0x04
  | .indexOverflow => 0x05
  | .tornSector => 0x06
  | .oldEpoch => 0x07
  | .headerRestored => 0x08
  | .reclaimResumed => 0x09
  | .recoveryFault => 0x0A

/-- R166: the codes of START_CAUSE. -/
def causeCode : StartCause → Byte
  | .powerOn => 0x01
  | .pin => 0x02
  | .soft => 0x03

/-- R220: the codes of SEC_STATE. -/
def recStateCode : RecState → Byte
  | .unscanned => 0x00
  | .ready => 0x01
  | .inUse => 0x02
  | .reclaiming => 0x03
  | .worn => 0x04
  | .torn => 0x05
  | .blankHeader => 0x06
  | .erasePending => 0x07
  | .abandoned => 0x08

/-- R220: the role in bits 2 and 1 of SEC_FLAGS. -/
def roleCode : Role → Nat
  | .none => 0
  | .isOpen => 1
  | .readyQueued => 2
  | .victim => 3

/-- R220: SEC_FLAGS of a record. -/
def secFlags (r : SectorRec) : Byte := BitVec.ofNat 8 (2 * roleCode r.role + bitAt r.pinned 0)

/-- R220: RECLAIM_STATE. -/
def reclaimCode (r : Reclaimer) : Byte :=
  match r.state with
  | .idle => 0x00
  | .marking => 0x01
  | .moving => 0x02
  | .draining => 0x03
  | .erasing => 0x04
  | .halted => if r.cause = .empty then 0x06 else 0x05

/-! ### Submission and cancel results (R112, R114, R127, R129) -/

/-- R112: the codes of SUBMIT_RESULT. -/
inductive SubmitResult where
  | accepted
  | notReady
  | badKind
  | queueFull
  | tagInUse
  | badKey
  | badLength
  | badBuffer
  | bufferBusy
  deriving DecidableEq, Repr

/-- R112: the code of a result. -/
def SubmitResult.code : SubmitResult → Byte
  | .accepted => 0x00
  | .notReady => 0x01
  | .badKind => 0x02
  | .queueFull => 0x03
  | .tagInUse => 0x04
  | .badKey => 0x05
  | .badLength => 0x06
  | .badBuffer => 0x07
  | .bufferBusy => 0x08

/-- R127: the results of a cancel. -/
inductive CancelResult where
  | accepted
  | inFlight
  | unknownTag
  | noRoom
  deriving DecidableEq, Repr

/-- R127: the code of a result. -/
def CancelResult.code : CancelResult → Byte
  | .accepted => 0x00
  | .inFlight => 0x01
  | .unknownTag => 0x02
  | .noRoom => 0x03

/-- R111: the buffer a buffer code names. -/
def bufOfCode (v : Byte) : Option Buf :=
  if v = 0x00 then some .bufA else if v = 0x01 then some .bufB else none

/-- R113: the kinds whose entry holds a key. -/
def usesKey : Kind → Bool
  | .store | .fetch | .drop | .probe | .next => true
  | .reclaim | .format => false

/-- R113: the kinds whose entry holds a length. -/
def usesLen : Kind → Bool
  | .store => true
  | .fetch | .drop | .probe | .next | .reclaim | .format => false

/-- R113: the kinds whose entry holds a buffer. -/
def usesBuf : Kind → Bool
  | .store | .fetch => true
  | .drop | .probe | .next | .reclaim | .format => false

/-- R112 check 5: the keys a kind may name. -/
def keyAllowed (k : Kind) (key : Nat) : Bool :=
  match k with
  | .store | .fetch | .drop | .probe => decide (1 ≤ key ∧ key ≤ 4095)
  | .next => decide (key ≤ 4095)
  | .reclaim | .format => true

/-- R112 check 4, R127 check 1: the tag of the command in progress or of the held completion. -/
def tagInFlight (tag : Byte) (s : State) : Bool :=
  (match s.engine.cmd with | some c => decide (c.tag = tag) | none => false) ||
    (match s.engine.held with | some h => decide (h.entry.tag = tag) | none => false)

/-- R112 check 4, R127 check 2: the tag of a queued command. -/
def tagQueued (tag : Byte) (s : State) : Bool := s.cmds.queue.any fun c => decide (c.tag = tag)

/-- R112: the first check that fails decides. -/
def submitCheck (v : Byte) (s : State) : SubmitResult :=
  if !s.power.isReady then .notReady
  else match kindOfCode v with
    | none => .badKind
    | some k =>
      if Config.queueCapacity ≤ s.cmds.queue.length then .queueFull
      else if tagQueued s.cmds.tag s || tagInFlight s.cmds.tag s then .tagInUse
      else if !keyAllowed k s.cmds.key.toNat then .badKey
      else if usesLen k && decide (1024 < s.cmds.len.toNat) then .badLength
      else if usesBuf k then
        match bufOfCode s.cmds.buf with
        | none => .badBuffer
        | some b => if s.staging.owner b = .engine then .bufferBusy else .accepted
      else .accepted

/-- R113: the queue entry formed from the kind and the fields it uses. -/
def entryOf (k : Kind) (q : CommandQueue) : Command :=
  { tag := q.tag, kind := k
    key := if usesKey k then some q.key.toNat else none
    len := if usesLen k then some q.len.toNat else none
    buf := if usesBuf k then bufOfCode q.buf else none }

/-- R127: the first check that decides. -/
def cancelCheck (tag : Byte) (s : State) : CancelResult :=
  if tagInFlight tag s then .inFlight
  else if !tagQueued tag s then .unknownTag
  else if Config.completionCapacity ≤ s.comps.length then .noRoom
  else .accepted

/-! ### Packed registers (R219) -/

/-- R219: the low byte of BUF_PTR. -/
def ptrLow (g : Staging) : Byte := g.offset.setWidth 8

/-- R219: the high byte of BUF_PTR. -/
def ptrHigh (g : Staging) : Byte :=
  BitVec.ofNat 8 (g.offset.toNat / 256 + bitAt (decide (g.select = .bufB)) 7)

/-- R160, R219: the low byte of BUF_PTR written. -/
def Staging.writePtrLow (g : Staging) (v : Byte) : Staging :=
  { g with offset := BitVec.ofNat 10 (g.offset.toNat / 256 * 256 + v.toNat) }

/-- R160, R219: the high byte of BUF_PTR written. -/
def Staging.writePtrHigh (g : Staging) (v : Byte) : Staging :=
  { g with offset := BitVec.ofNat 10 (v.toNat % 4 * 256 + g.offset.toNat % 256)
           select := if v.getLsbD 7 then .bufB else .bufA }

/-- R219: BUF_FLAGS. -/
def bufFlags (g : Staging) : Byte :=
  byteOfBits [g.conflict, decide (g.ownerA = .engine), decide (g.ownerB = .engine)]

/-- R218: CONFIG. -/
def configByte (c : Settings) : Byte := byteOfBits [c.background, c.suspend]

/-- R111: the low byte of a two-byte field written. -/
def setLow (h : Half) (v : Byte) : Half := BitVec.ofNat 16 (h.toNat / 256 * 256 + v.toNat)

/-- R111: the high byte of a two-byte field written. -/
def setHigh (h : Half) (v : Byte) : Half := BitVec.ofNat 16 (v.toNat * 256 + h.toNat % 256)

/-- R85: the clamp of RECLAIM_LOW. -/
def clampLow (n : Nat) : Nat := max 32 (min n 1024)

/-- A sector number, FFh when there is none (R216). -/
def sectorByte : Option Nat → Byte
  | some n => BitVec.ofNat 8 n
  | none => 0xFF

/-! ### The views (R82, R124, R194) -/

/-- R124: the completion view, COMP_TAG to COMP_FRAGS. -/
def completionView : List Completion → List Byte
  | [] => List.replicate 12 0
  | e :: _ =>
    [e.tag, kindCode e.kind, statusCode e.status] ++ leBytes 2 e.key ++ leBytes 2 e.len ++
      leBytes 4 (e.seq.getD 0) ++ leBytes 1 e.frags

/-- R194: the report view, REP_KIND to REP_SEQ. -/
def reportView : List Report → List Byte
  | [] => List.replicate 9 0
  | r :: _ => [reportCode r.kind] ++ leBytes 2 r.num ++ leBytes 2 (r.key.getD 0) ++ leBytes 4 (r.seq.getD 0)

/-- R82: the sector view, SEC_STATE to SEC_FLAGS. -/
def sectorView (r : SectorRec) : List Byte :=
  [recStateCode r.state] ++ leBytes 3 r.erases ++ leBytes 1 r.blank ++ leBytes 1 r.live ++ leBytes 1 r.dead ++
    leBytes 1 r.faultyCount ++ [secFlags r]

/-- R68, R216: a sum over the 32 records. -/
def sumRecs (f : SectorRec → Nat) (s : State) : Nat := (s.table.recs.map f).sum

/-! ### The register maps -/

/-- R215: the registers of bank 0, each with its first address and its bytes in little-endian order; the completion view
is one group (R212). BUF_DATA is not here: its reads are events (R159). -/
def bank0 (s : State) : List (Nat × List Byte) :=
  [ (0x00, [statusByte s]), (0x01, [0]), (0x02, [irqFlags s]), (0x03, [s.irq.mask]),
    (0x04, [s.cmds.tag]), (0x05, leBytes 2 s.cmds.key.toNat), (0x07, leBytes 2 s.cmds.len.toNat),
    (0x09, [s.cmds.buf]), (0x0A, [0]), (0x0B, [s.cmds.submitResult]), (0x0C, [0]),
    (0x0D, [s.cmds.cancelResult]), (0x0E, leBytes 1 s.comps.length), (0x0F, completionView s.comps),
    (0x1B, [0]), (0x1C, [ptrLow s.staging, ptrHigh s.staging]), (0x1F, [bufFlags s.staging]) ]

/-- R216: the registers of bank 1; the report view and the sector view are one group each (R212). -/
def bank1 (s : State) : List (Nat × List Byte) :=
  [ (0x00, [configByte s.settings]), (0x01, leBytes 2 s.settings.reclaimLow),
    (0x03, leBytes 2 s.erasedCount), (0x05, leBytes 2 (sumRecs SectorRec.live s)),
    (0x07, leBytes 2 (sumRecs SectorRec.dead s)), (0x09, leBytes 2 (sumRecs SectorRec.faultyCount s)),
    (0x0B, leBytes 2 s.index.length), (0x0D, leBytes 1 s.table.queue.length),
    (0x0E, leBytes 1 (s.table.recs.countP fun r => decide (r.state = .worn))),
    (0x0F, [sectorByte s.openSector]), (0x10, [reclaimCode s.reclaimer]),
    (0x11, [sectorByte s.victimSector]), (0x12, leBytes 4 s.engine.seqNext), (0x16, leBytes 2 s.engine.epoch),
    (0x18, [causeCode s.scanner.cause]), (0x19, leBytes 1 s.scanner.ring.length), (0x1A, leBytes 1 s.scanner.lost),
    (0x1B, reportView s.scanner.ring), (0x24, [0]), (0x25, leBytes 1 s.table.sel),
    (0x26, sectorView (s.recAt s.table.sel)) ]

/-- The register, or the group, that holds an address. -/
def groupAt (a : Nat) (l : List (Nat × List Byte)) : Option (Nat × List Byte) :=
  l.find? fun g => decide (g.1 ≤ a ∧ a < g.1 + g.2.length)

/-- R215, R216: the register or group at an address of a bank, with its bytes as they stand. -/
def registerAt (bank : Bool) (a : RegAddr) (s : State) : Option (Nat × List Byte) :=
  groupAt a.toNat (if bank then bank1 s else bank0 s)

end Sys2Proof.Machine
end

