-- ==== Sys2Proof/Machine/CommandOps.lean ====
section
/-! DEFINITION. Machine/CommandOps.lean: the host's events at the Command Queue, the Completion Queue, the report ring,
the staging buffers and the settings (R85, R112 to R114, R125, R127, R128, R158 to R161, R194, R218). -/

namespace Sys2Proof.Machine

/-- R112, R113: a submission event: the byte `v` written to SUBMIT. -/
def submit (v : Byte) (s : State) : State :=
  let result := submitCheck v s
  let s1 := s.setCmds { s.cmds with submitResult := result.code }
  match result, kindOfCode v with
  | .accepted, some k =>
    let c := entryOf k s.cmds
    settle (setOwner c.buf .engine (s1.setCmds { s1.cmds with queue := s1.cmds.queue ++ [c] }))
  | _, _ => s1

/-- R128: the queue without the command of a tag. -/
def withoutTag (tag : Byte) (q : List Command) : List Command := q.filter fun c => decide (c.tag ≠ tag)

/-- R120, R121: the completion entry of a cancelled command. -/
def cancelledEntry (c : Command) : Completion :=
  { tag := c.tag, kind := c.kind, status := .cancelled, key := c.key.getD 0, len := 0, seq := none, frags := 0 }

/-- R127, R128: a cancel event. -/
def cancel (tag : Byte) (s : State) : State :=
  let result := cancelCheck tag s
  let s1 := s.setCmds { s.cmds with cancelResult := result.code }
  match result, s.cmds.queue.find? fun c => decide (c.tag = tag) with
  | .accepted, some c =>
    setOwner c.buf .host
      ((s1.setCmds { s1.cmds with queue := withoutTag tag s1.cmds.queue }).setComps (s1.comps ++ [cancelledEntry c]))
  | _, _ => s1

/-- R125: a pop event. -/
def popCompletion (s : State) : State :=
  match s.comps with
  | [] => s
  | _ :: rest =>
    match s.engine.held with
    | some h =>
      settle (modEngine (fun e => { e with state := .idle, held := none })
        (setOwner h.buf .host (s.setComps (rest ++ [h.entry]))))
    | none => s.setComps rest

/-- R194: a report pop event. -/
def popReport (s : State) : State := s.setScanner { s.scanner with ring := s.scanner.ring.tail }

/-- R160: the offset advances by 1 and wraps from 1023 to 0. -/
def advanceOffset (s : State) : State := s.setStaging { s.staging with offset := s.staging.offset + 1 }

/-- R161: the access-conflict flag is raised. -/
def raiseConflict (s : State) : State := s.setStaging { s.staging with conflict := true }

/-- R158: a byte written to BUF_DATA. -/
def writeBufData (v : Byte) (s : State) : State :=
  let g := s.staging
  match g.owner g.select with
  | .host => advanceOffset (s.setStaging (g.setBytes g.select ((g.bytes g.select).set g.offset.toNat v)))
  | .engine => advanceOffset (raiseConflict s)

/-- R159: a byte read from BUF_DATA, and the state after the event. -/
def readBufData (s : State) : Byte × State :=
  let g := s.staging
  match g.owner g.select with
  | .host => ((g.bytes g.select).getD g.offset.toNat 0, advanceOffset s)
  | .engine => (0, advanceOffset (raiseConflict s))

/-- R161: a byte written to BUF_FLAGS. -/
def writeBufFlags (v : Byte) (s : State) : State :=
  s.setStaging { s.staging with conflict := s.staging.conflict && !v.getLsbD 0 }

/-- R218, R86: a byte written to CONFIG. A change is an evaluation point of the background start. -/
def writeConfig (v : Byte) (s : State) : State :=
  let s1 := s.setSettings { s.settings with background := v.getLsbD 0, suspend := v.getLsbD 1 }
  if s1.settings = s.settings then s else settle (evaluate s1)

/-- R85: RECLAIM_LOW takes a value, with its clamp. A change is an evaluation point of the background start. -/
def storeReclaimLow (n : Nat) (s : State) : State :=
  if clampLow n = s.settings.reclaimLow then s
  else settle (evaluate (s.setSettings { s.settings with reclaimLow := clampLow n }))

/-- R82: SECTOR_SEL takes a value, with its clamp. -/
def storeSectorSel (v : Byte) (s : State) : State := s.setTable { s.table with sel := min v.toNat 31 }

end Sys2Proof.Machine
end

