-- ==== Sys2Proof/Machine/ResetOps.lean ====
section
/-! DEFINITION. Machine/ResetOps.lean: the three resets (R166 to R169), what a reset cuts (R17), the end of a hold, and
the loss of the supply. -/

namespace Sys2Proof.Machine

/-- R17: one operation cut, if there is one. -/
def cutOne (o : Option Operation) (s : State) : State :=
  match o with
  | some o => useFree (s.setArray (s.array.cut o s.free))
  | none => s

/-- R17: the operation on the port and a suspended erase are cut; no outcome is delivered. -/
def cutOperations (s : State) : State := cutOne s.ctl.paused (cutOne s.ctl.op s)

/-- R166, R167: every volatile block takes its reset value. `settings` and `mask` are what the reset makes of the three
settings, `bytesA` and `bytesB` what it makes of the buffer bytes. -/
def resetBlocks (cause : StartCause) (settings : Settings) (mask : Byte) (bytesA bytesB : List Byte) (s : State) :
    State :=
  let t := (((s.setCtl (resetController false)).setTable resetTable).setIndex []).setEngine resetEngine
  let u := (((t.setReclaimer resetReclaimer).setCmds resetCommands).setComps []).setStaging (resetStaging bytesA bytesB)
  let v := (u.setScanner (resetScanner cause)).setPort (resetPort s.port.frame)
  (v.setIrq { ready := false, fault := false, space := false, mask := mask }).setSettings settings

/-- R166: a power-on reset begins. The supply has been out of range, so nothing of an earlier hold is left but the level
of RESET#. -/
def beginPowerOn (s : State) : State :=
  let s1 := useFree (cutOperations s)
  (resetBlocks .powerOn resetSettings 0 (powerOnBytes s1.free 0) (powerOnBytes s1.free 1024) s1).setPower
    { s1.power with supply := true, supplyHold := true, softHold := false, isReady := false }

/-- R166: a pin reset begins. In a hold it changes START_CAUSE alone. -/
def beginPin (s : State) : State :=
  if s.running then
    (resetBlocks .pin resetSettings 0 s.staging.bytesA s.staging.bytesB (cutOperations s)).setPower
      { s.power with resetLow := true, isReady := false }
  else
    let s1 := s.setPower { s.power with resetLow := true }
    if s.power.supply then s1.setScanner { s1.scanner with cause := .pin } else s1

/-- R169: a soft reset begins, in the write to CONTROL. -/
def beginSoft (s : State) : State :=
  (resetBlocks .soft s.settings s.irq.mask s.staging.bytesA s.staging.bytesB (cutOperations s)).setPower
    { s.power with softHold := true, isReady := false }

/-- R168, R195, R206: a hold has come to its end. When no other stands, the monitor takes the level of PFW#, the Array
Controller is quiesced if it is low, the part is STARTING and the scanner begins its first step. -/
def endHold (s : State) : State :=
  if s.running then
    settle (scanHeader 0 ((s.setPfw { s.pfw with asserted := s.pfw.pinLow }).setCtl
      { s.ctl with quiesced := s.pfw.pinLow }))
  else s

/-- R208: the supply falls out of its operating range: the operation in progress is cut and the part stops. -/
def loseSupply (s : State) : State :=
  let s1 := cutOperations s
  ((s1.setCtl (resetController false)).setPort (resetPort s1.port.frame)).setPower
    { s1.power with supply := false, supplyHold := false, softHold := false, isReady := false }

end Sys2Proof.Machine
end

