-- ==== Sys2Proof/Machine/PortOps.lean ====
section
/-! DEFINITION. Machine/PortOps.lean: the Serial Port (R209 to R214): frames, the byte that is written and the byte that
is read at the current address, and the groups a frame has taken. -/

namespace Sys2Proof.Machine

/-- The port block changed. -/
def modPort (f : Port → Port) (s : State) : State := s.setPort (f s.port)

/-- A byte is shifted out. -/
def shiftOut (v : Byte) (s : State) : State := modPort (fun p => { p with out := v }) s

/-- R210: the port addresses of a bank, at which the current address stays. -/
def isPortAddress (bank : Bool) (a : RegAddr) : Bool :=
  if bank then decide (a = 0x24) else decide (a = 0x0A ∨ a = 0x0C ∨ a = 0x1B ∨ a = 0x1E)

/-- R210: the current address after a data byte; it wraps from 3Fh to 00h of its bank. -/
def nextAddress (bank : Bool) (a : RegAddr) : RegAddr := if isPortAddress bank a then a else a + 1

/-- R210: the current address advances, where the frame is still decoded. -/
def advanceAddress (s : State) : State :=
  match s.port.frame with
  | .data rd bank a => modPort (fun p => { p with frame := .data rd bank (nextAddress bank a) }) s
  | .closed | .control | .undecoded => s

/-! ### Writes (R213) -/

/-- R169, R218: a byte written to CONTROL. -/
def writeControl (v : Byte) (s : State) : State := if v.getLsbD 0 then beginSoft s else s

/-- The Command Queue block changed. -/
def modCmds (f : CommandQueue → CommandQueue) (s : State) : State := s.setCmds (f s.cmds)

/-- R213: a byte written at an address of bank 0. A register the host may not write, and an address with no register,
take no effect. -/
def writeBank0 (a : RegAddr) (v : Byte) (s : State) : State :=
  match a.toNat with
  | 0x01 => writeControl v s
  | 0x02 => clearSticky v s
  | 0x03 => storeMask v s
  | 0x04 => modCmds (fun q => { q with tag := v }) s
  | 0x05 => modCmds (fun q => { q with key := setLow q.key v }) s
  | 0x06 => modCmds (fun q => { q with key := setHigh q.key v }) s
  | 0x07 => modCmds (fun q => { q with len := setLow q.len v }) s
  | 0x08 => modCmds (fun q => { q with len := setHigh q.len v }) s
  | 0x09 => modCmds (fun q => { q with buf := v }) s
  | 0x0A => submit v s
  | 0x0C => cancel v s
  | 0x1B => popCompletion s
  | 0x1C => s.setStaging (s.staging.writePtrLow v)
  | 0x1D => s.setStaging (s.staging.writePtrHigh v)
  | 0x1E => writeBufData v s
  | 0x1F => writeBufFlags v s
  | _ => s

/-- R213: a byte written at an address of bank 1. The bytes of RECLAIM_LOW are collected. -/
def writeBank1 (a : RegAddr) (v : Byte) (s : State) : State :=
  match a.toNat with
  | 0x00 => writeConfig v s
  | 0x01 => modPort (fun p => { p with lowByte := some v }) s
  | 0x02 => modPort (fun p => { p with highByte := some v }) s
  | 0x24 => popReport s
  | 0x25 => storeSectorSel v s
  | _ => s

/-- R213: a byte written at an address of a bank. -/
def writeRegister (bank : Bool) (a : RegAddr) (v : Byte) (s : State) : State :=
  if bank then writeBank1 a v s else writeBank0 a v s

/-- R210, R214: a data byte of a write frame: the part shifts out 00h, the byte is written at the current address when
`here` says the byte is one of that address, and the address advances. In a frame that is not decoded the part shifts
out FFh. In any other state of the port the byte does not come to the block. -/
def dataWrite (here : Bool → RegAddr → Bool) (v : Byte) (s : State) : State :=
  match s.port.frame with
  | .data false bank a => if here bank a then advanceAddress (shiftOut 0x00 (writeRegister bank a v s)) else s
  | .undecoded => shiftOut 0xFF s
  | .data true _ _ | .closed | .control => s

/-- The one address of a register of bank 0. -/
def at0 (a : RegAddr) (bank : Bool) (b : RegAddr) : Bool := !bank && decide (b = a)

/-- The one address of a register of bank 1. -/
def at1 (a : RegAddr) (bank : Bool) (b : RegAddr) : Bool := bank && decide (b = a)

/-- The two addresses of RECLAIM_LOW. -/
def atReclaimLow (bank : Bool) (b : RegAddr) : Bool := bank && decide (b = 0x01 ∨ b = 0x02)

/-- Every address. -/
def anyAddress (_bank : Bool) (_b : RegAddr) : Bool := true

/-! ### Reads (R210, R212) -/

/-- R212: the group the frame has taken under a bank and a first address. -/
def takenAt (bank : Bool) (first : Nat) (p : Port) : Option (List Byte) :=
  (p.taken.find? fun t => decide (t.1 = (bank, BitVec.ofNat 6 first))).map Prod.snd

/-- R212: a byte of a register that is not BUF_DATA, and the port after its read. A register of one byte is read as it
stands. A register of more bytes, or a view, is taken whole at the first of its bytes that the frame reads. -/
def readPlain (bank : Bool) (a : RegAddr) (s : State) : Byte × Port :=
  match registerAt bank a s with
  | none => (0x00, s.port)
  | some (first, bytes) =>
    if bytes.length ≤ 1 then (bytes.getD 0 0, s.port)
    else
      match takenAt bank first s.port with
      | some old => (old.getD (a.toNat - first) 0, s.port)
      | none =>
        (bytes.getD (a.toNat - first) 0,
         { s.port with taken := s.port.taken ++ [((bank, BitVec.ofNat 6 first), bytes)] })

/-- R159, R210: a byte read at an address of a bank, and the state after it. -/
def readRegister (bank : Bool) (a : RegAddr) (s : State) : Byte × State :=
  if !bank && decide (a = 0x1E) then readBufData s
  else
    let (v, p) := readPlain bank a s
    (v, s.setPort p)

/-- R210, R214: a data byte of a read frame. -/
def dataRead (s : State) : State :=
  match s.port.frame with
  | .data true bank a =>
    let (v, s1) := readRegister bank a s
    advanceAddress (shiftOut v s1)
  | .undecoded => shiftOut 0xFF s
  | .data false _ _ | .closed | .control => s

/-! ### Frames (R209, R213, R214) -/

/-- R209, R214: chip select falls: STATUS is latched; while the part is held in reset the frame is not decoded,
and stays so until it ends, also where the hold ends first: DESIGN CHOICE, notes/assumptions/48.md. So is a frame that
begins with the supply out of range: DESIGN CHOICE, notes/assumptions/34.md. -/
def beginFrame (s : State) : State :=
  match s.port.frame with
  | .closed =>
    if s.running then
      modPort (fun p => { p with frame := .control, statusOut := statusByte s, lowByte := none, highByte := none,
                                 taken := [] }) s
    else modPort (fun p => { p with frame := .undecoded, statusOut := 0xFF }) s
  | .control | .data _ _ _ | .undecoded => s

/-- R209: the control byte is taken. -/
def takeControl (v : Byte) (s : State) : State :=
  match s.port.frame with
  | .control =>
    modPort (fun p => { p with frame := .data (v.getLsbD 7) (v.getLsbD 6) (v.setWidth 6), out := p.statusOut }) s
  | .undecoded => shiftOut 0xFF s
  | .closed | .data _ _ _ => s

/-- R213: the value formed at the end of a frame that wrote RECLAIM_LOW. -/
def formedLow (p : Port) (stored : Nat) : Nat :=
  ((p.highByte.map BitVec.toNat).getD (stored / 256)) * 256 + (p.lowByte.map BitVec.toNat).getD (stored % 256)

/-- R213: the bytes collected for RECLAIM_LOW are stored. -/
def storeCollected (s : State) : State :=
  if s.port.lowByte = none ∧ s.port.highByte = none then s
  else storeReclaimLow (formedLow s.port s.settings.reclaimLow) s

/-- R209: no frame is open, and nothing of the last one is kept. -/
def closePort (s : State) : State :=
  modPort (fun p => { p with frame := .closed, lowByte := none, highByte := none, taken := [] }) s

/-- R168, R169: the end of a frame ends the hold of the soft reset it made. -/
def endSoftHold (s : State) : State :=
  if s.power.softHold then endHold (s.setPower { s.power with softHold := false }) else s

/-- R213: chip select rises. -/
def endFrame (s : State) : State :=
  match s.port.frame with
  | .closed => s
  | .control | .data _ _ _ | .undecoded => endSoftHold (closePort (storeCollected s))

end Sys2Proof.Machine
end

