-- ==== Sys2Proof/Machine/CommandEvents.lean ====
section
/-! DEFINITION. Machine/CommandEvents.lean: the meanings of the bytes written to SUBMIT, CANCEL, COMP_POP and REPORT_POP
(R112, R125, R127, R194, R211). What the engine does with a command it takes is in Machine/EngineOps.lean. -/

namespace Sys2Proof.Machine

/-- STORE (R133). -/
def execStore (s : State) : Host.Outcome State Fault Refusal := .next (dataWrite (at0 0x0A) (kindCode .store) s)

/-- FETCH (R139). -/
def execFetch (s : State) : Host.Outcome State Fault Refusal := .next (dataWrite (at0 0x0A) (kindCode .fetch) s)

/-- DROP (R143). -/
def execDrop (s : State) : Host.Outcome State Fault Refusal := .next (dataWrite (at0 0x0A) (kindCode .drop) s)

/-- PROBE (R144). -/
def execProbe (s : State) : Host.Outcome State Fault Refusal := .next (dataWrite (at0 0x0A) (kindCode .probe) s)

/-- NEXT (R145). -/
def execNext (s : State) : Host.Outcome State Fault Refusal := .next (dataWrite (at0 0x0A) (kindCode .next) s)

/-- RECLAIM (R146). -/
def execReclaim (s : State) : Host.Outcome State Fault Refusal := .next (dataWrite (at0 0x0A) (kindCode .reclaim) s)

/-- FORMAT (R148). -/
def execFormat (s : State) : Host.Outcome State Fault Refusal := .next (dataWrite (at0 0x0A) (kindCode .format) s)

/-- BAD_KIND (R112). -/
def execBadKind (v : Byte) (s : State) : Host.Outcome State Fault Refusal := .next (dataWrite (at0 0x0A) v s)

/-- CANCEL (R127, R128). -/
def execCancel (tag : Byte) (s : State) : Host.Outcome State Fault Refusal := .next (dataWrite (at0 0x0C) tag s)

/-- COMP_POP (R125). -/
def execCompPop (v : Byte) (s : State) : Host.Outcome State Fault Refusal := .next (dataWrite (at0 0x1B) v s)

/-- REPORT_POP (R194). -/
def execReportPop (v : Byte) (s : State) : Host.Outcome State Fault Refusal := .next (dataWrite (at1 0x24) v s)

end Sys2Proof.Machine
end

