-- ==== Sys2Proof/Machine/PortEvents.lean ====
section
/-! DEFINITION. Machine/PortEvents.lean: the meanings of the frame events and of the bytes written to and read from
registers that are not triggers (R209 to R213, R158 to R161, R218, R222, R223). -/

namespace Sys2Proof.Machine

/-- FRAME_BEGIN (R209). -/
def execFrameBegin (s : State) : Host.Outcome State Fault Refusal := .next (beginFrame s)

/-- CONTROL_BYTE (R209). -/
def execControlByte (v : Byte) (s : State) : Host.Outcome State Fault Refusal := .next (takeControl v s)

/-- FRAME_END (R213, R169). -/
def execFrameEnd (s : State) : Host.Outcome State Fault Refusal := .next (endFrame s)

/-- IRQ_FLAGS_WRITE (R222). -/
def execIrqFlagsWrite (v : Byte) (s : State) : Host.Outcome State Fault Refusal := .next (dataWrite (at0 0x02) v s)

/-- IRQ_MASK_WRITE (R223). -/
def execIrqMaskWrite (v : Byte) (s : State) : Host.Outcome State Fault Refusal := .next (dataWrite (at0 0x03) v s)

/-- BUF_DATA_WRITE (R158). -/
def execBufDataWrite (v : Byte) (s : State) : Host.Outcome State Fault Refusal := .next (dataWrite (at0 0x1E) v s)

/-- BUF_FLAGS_WRITE (R161). -/
def execBufFlagsWrite (v : Byte) (s : State) : Host.Outcome State Fault Refusal := .next (dataWrite (at0 0x1F) v s)

/-- CONFIG_WRITE (R218). -/
def execConfigWrite (v : Byte) (s : State) : Host.Outcome State Fault Refusal := .next (dataWrite (at1 0x00) v s)

/-- RECLAIM_LOW_WRITE (R213). -/
def execReclaimLowWrite (v : Byte) (s : State) : Host.Outcome State Fault Refusal :=
  .next (dataWrite atReclaimLow v s)

/-- REGISTER_WRITE (R213): the byte at whatever address is current. -/
def execRegisterWrite (v : Byte) (s : State) : Host.Outcome State Fault Refusal := .next (dataWrite anyAddress v s)

/-- BUF_DATA_READ (R159): the byte of a read frame at its current address. The table has no row for a read at another
address: the row stands for every byte of a read frame (DESIGN CHOICE, notes/assumptions/10.md). -/
def execBufDataRead (s : State) : Host.Outcome State Fault Refusal := .next (dataRead s)

end Sys2Proof.Machine
end

