-- ==== Sys2Proof/Machine/ResetEvents.lean ====
section
/-! DEFINITION. Machine/ResetEvents.lean: the meanings of the supply, RESET#, CONTROL and PFW# events. An edge that the
line cannot make as it stands changes nothing (DESIGN CHOICE, notes/assumptions/8.md). -/

namespace Sys2Proof.Machine

/-- POWER_ON (R166, R167). -/
def execPowerOn (s : State) : Host.Outcome State Fault Refusal := .next (beginPowerOn s)

/-- POWER_ON_HOLD_END (R168). -/
def execPowerOnHoldEnd (s : State) : Host.Outcome State Fault Refusal :=
  .next (if s.power.supplyHold then endHold (s.setPower { s.power with supplyHold := false }) else s)

/-- PIN_RESET (R166, R167). -/
def execPinReset (s : State) : Host.Outcome State Fault Refusal := .next (beginPin s)

/-- RESET_RELEASE (R168). -/
def execResetRelease (s : State) : Host.Outcome State Fault Refusal :=
  .next (if s.power.resetLow then endHold (s.setPower { s.power with resetLow := false }) else s)

/-- SOFT_RESET (R169, R218): the byte `v` at CONTROL. -/
def execSoftReset (v : Byte) (s : State) : Host.Outcome State Fault Refusal := .next (dataWrite (at0 0x01) v s)

/-- R195: the level of PFW#, and the monitor's, which follows it while the part has its supply. -/
def pfwEdge (low : Bool) (s : State) : State :=
  s.setPfw { pinLow := low, asserted := if s.power.supply then low else s.pfw.asserted }

/-- PFW_ASSERTION (R195, R196): outside a hold the Array Controller becomes quiesced. -/
def execPfwAssertion (s : State) : Host.Outcome State Fault Refusal :=
  .next
    (if s.running && !s.ctl.quiesced then settleFree (enterQuiesce (pfwEdge true s))
     else pfwEdge true s)

/-- PFW_DEASSERTION (R195, R200): outside a hold the Array Controller leaves quiesce. -/
def execPfwDeassertion (s : State) : Host.Outcome State Fault Refusal :=
  .next
    (if s.running && s.ctl.quiesced then settleFree (leaveQuiesce (pfwEdge false s))
     else pfwEdge false s)

/-- SUPPLY_LOSS (R208). -/
def execSupplyLoss (s : State) : Host.Outcome State Fault Refusal := .next (loseSupply s)

end Sys2Proof.Machine
end

