-- ==== Sys2Proof/Machine/Dispatch.lean ====
section
/-! DEFINITION. Machine/Dispatch.lean: one arm a command, each one call of its meaning. -/

namespace Sys2Proof.Machine

def exec (i : Instr) (s : State) : Host.Outcome State Fault Refusal :=
  match i with
  | .powerOn => Sys2Proof.Machine.execPowerOn s
  | .powerOnHoldEnd => Sys2Proof.Machine.execPowerOnHoldEnd s
  | .pinReset => Sys2Proof.Machine.execPinReset s
  | .resetRelease => Sys2Proof.Machine.execResetRelease s
  | .softReset v => Sys2Proof.Machine.execSoftReset v s
  | .pfwAssertion => Sys2Proof.Machine.execPfwAssertion s
  | .pfwDeassertion => Sys2Proof.Machine.execPfwDeassertion s
  | .controlByte v => Sys2Proof.Machine.execControlByte v s
  | .frameEnd => Sys2Proof.Machine.execFrameEnd s
  | .store => Sys2Proof.Machine.execStore s
  | .fetch => Sys2Proof.Machine.execFetch s
  | .drop => Sys2Proof.Machine.execDrop s
  | .probe => Sys2Proof.Machine.execProbe s
  | .next => Sys2Proof.Machine.execNext s
  | .reclaim => Sys2Proof.Machine.execReclaim s
  | .format => Sys2Proof.Machine.execFormat s
  | .badKind v => Sys2Proof.Machine.execBadKind v s
  | .cancel tag => Sys2Proof.Machine.execCancel tag s
  | .compPop v => Sys2Proof.Machine.execCompPop v s
  | .reportPop v => Sys2Proof.Machine.execReportPop v s
  | .irqFlagsWrite v => Sys2Proof.Machine.execIrqFlagsWrite v s
  | .bufFlagsWrite v => Sys2Proof.Machine.execBufFlagsWrite v s
  | .bufDataWrite v => Sys2Proof.Machine.execBufDataWrite v s
  | .bufDataRead => Sys2Proof.Machine.execBufDataRead s
  | .configWrite v => Sys2Proof.Machine.execConfigWrite v s
  | .irqMaskWrite v => Sys2Proof.Machine.execIrqMaskWrite v s
  | .reclaimLowWrite v => Sys2Proof.Machine.execReclaimLowWrite v s
  | .registerWrite v => Sys2Proof.Machine.execRegisterWrite v s
  | .fragmentReadComplete => Sys2Proof.Machine.execFragmentReadComplete s
  | .headerReadComplete => Sys2Proof.Machine.execHeaderReadComplete s
  | .cellProgramComplete r => Sys2Proof.Machine.execCellProgramComplete r s
  | .stateAdvanceComplete r => Sys2Proof.Machine.execStateAdvanceComplete r s
  | .erasePhaseEnd blankVerified => Sys2Proof.Machine.execErasePhaseEnd blankVerified s
  | .sectorEraseComplete r => Sys2Proof.Machine.execSectorEraseComplete r s
  | .frameBegin => Sys2Proof.Machine.execFrameBegin s
  | .supplyLoss => Sys2Proof.Machine.execSupplyLoss s

end Sys2Proof.Machine
end

