-- ==== Sys2Proof/Safety.lean ====
section
/-! DEFINITION. Safety.lean: what a sound state of the part is, block by block: the canonical form of the array, the
counts of the sector records, the capacities of the queues, the ranges of the registers. Each is kept by every command
from every state that has it. -/

namespace Sys2Proof.Machine

/-- R1, R2: an entry of the array: a cell of the part, not the blank cell, with 64 payload bytes. -/
abbrev cellOk (p : Nat × Cell) : Prop :=
  p.1 < Config.cells ∧ p.2 ≠ blankCell ∧ p.2.payload.length = Config.payloadBytes

/-- The canonical form of the array: cells in strictly rising number, none of them the blank cell, and 32 sector headers
(R1). -/
abbrev CellArray.wf (a : CellArray) : Prop :=
  a.cells.Pairwise (fun p q => p.1 < q.1) ∧ (∀ p ∈ a.cells, cellOk p) ∧ a.sectors.length = Config.sectors

/-- R65, R68: the four counts of a sector add to 32, its faulty set is in ascending order, without repeats, inside the
sector, and its faulty count counts no more cells than the set holds. -/
abbrev recOk (n : Nat) (r : SectorRec) : Prop :=
  r.blank + r.live + r.dead + r.faultyCount = 32 ∧ r.faulty.Pairwise (· < ·) ∧ (∀ c ∈ r.faulty, sectorOf c = n) ∧
    r.faultyCount ≤ r.faulty.length

/-- R65: the faulty count is the size of the faulty set. -/
abbrev recExact (r : SectorRec) : Prop := r.faultyCount = r.faulty.length

/-- R65: the faulty count of every record is the size of its faulty set. -/
abbrev SectorTable.exact (t : SectorTable) : Prop := ∀ n < Config.sectors, recExact (t.recs.getD n resetRec)

/-- R65, R187: once the part is READY every faulty count is the size of its faulty set. -/
abbrev countsExact (s : State) : Prop := s.power.isReady = true → s.table.exact

/-- R65, R70, R82: 32 sound records, a cursor of 0 to 32, a selected sector of 0 to 31. -/
abbrev SectorTable.wf (t : SectorTable) : Prop :=
  t.recs.length = Config.sectors ∧ (∀ n < Config.sectors, recOk n (t.recs.getD n resetRec)) ∧ t.cursor ≤ 32 ∧
    t.sel ≤ 31

/-- R48: index entries in ascending key order, one a key. -/
abbrev ascendingKeys (l : List IndexEntry) : Prop := (l.map IndexEntry.key).Pairwise (· < ·)

/-- R48: the key index and the scanner's findings for it are in ascending key order. -/
abbrev indexOk (s : State) : Prop := ascendingKeys s.index ∧ ascendingKeys s.scanner.chosen

/-- R115, R123, R193: no queue is longer than its capacity, and the lost-report count is at most 255. -/
abbrev capacitiesOk (s : State) : Prop :=
  s.cmds.queue.length ≤ Config.queueCapacity ∧ s.comps.length ≤ Config.completionCapacity ∧
    s.scanner.ring.length ≤ Config.ringCapacity ∧ s.scanner.lost ≤ 255

/-- R123: while a completion is held the Completion Queue holds 8 entries. -/
abbrev heldOk (s : State) : Prop := s.engine.held ≠ none → s.comps.length = Config.completionCapacity

/-- R154: each staging buffer holds 1024 bytes. -/
abbrev Staging.wf (g : Staging) : Prop :=
  g.bytesA.length = Config.bufferBytes ∧ g.bytesB.length = Config.bufferBytes

/-- R85: RECLAIM_LOW is 32 to 1024. -/
abbrev Settings.wf (c : Settings) : Prop := 32 ≤ c.reclaimLow ∧ c.reclaimLow ≤ 1024

/-- R219: bits 6 and 7 of IRQ_MASK are 0. -/
abbrev Interrupts.wf (i : Interrupts) : Prop := i.mask &&& 0xC0 = 0

/-- R18, R20: the pass counter is 0 to 4. -/
abbrev Controller.wf (c : Controller) : Prop := c.pass ≤ Config.passEnd

/-- Every block is sound. -/
abbrev State.wf (s : State) : Prop :=
  s.array.wf ∧ s.table.wf ∧ countsExact s ∧ indexOk s ∧ capacitiesOk s ∧ heldOk s ∧ s.staging.wf ∧ s.settings.wf ∧ s.irq.wf ∧ s.ctl.wf

/-! ### Words of the statements -/

/-- The next byte of the open frame is written at this register (R210). -/
abbrev writing (bank : Bool) (a : RegAddr) (s : State) : Prop := s.port.frame = .data false bank a

/-- The next byte of the open frame is read at this register (R210). -/
abbrev reading (bank : Bool) (a : RegAddr) (s : State) : Prop := s.port.frame = .data true bank a

/-- The state with its port moved on past a written byte: the byte shifted out is 00h and the current address is `a`
(R210). -/
def State.afterWrite (s : State) (bank : Bool) (a : RegAddr) : State :=
  s.setPort { s.port with frame := .data false bank a, out := 0x00 }

/-- R116: the engine takes no command as things stand. -/
abbrev quiet (s : State) : Prop := s.cmds.queue = [] ∨ s.engine.state ≠ .idle ∨ s.deviceReady = false

/-- R19: the port is taken, or no request waits that may be granted, as it is after every event. -/
abbrev portSettled (s : State) : Prop :=
  s.ctl.op ≠ none ∨ s.ctl.paused ≠ none ∨
    (grantable .scanner s = none ∧ grantable .engine s = none ∧ grantable .reclaimer s = none)

/-- The part is ready and its engine is IDLE with nothing queued or held, so that an accepted command is taken in its
submission event (R116). -/
abbrev engineFree (s : State) : Prop :=
  s.deviceReady = true ∧ s.engine.state = .idle ∧ s.engine.cmd = none ∧ s.engine.held = none ∧ s.cmds.queue = []

/-- R209 to R211: the rows that are one data byte of a frame. -/
def isDataByte : Instr → Bool
  | .softReset _ | .store | .fetch | .drop | .probe | .next | .reclaim | .format | .badKind _ => true
  | .cancel _ | .compPop _ | .reportPop _ | .irqFlagsWrite _ | .bufFlagsWrite _ | .bufDataWrite _ => true
  | .bufDataRead | .configWrite _ | .irqMaskWrite _ | .reclaimLowWrite _ | .registerWrite _ => true
  | .powerOn | .powerOnHoldEnd | .pinReset | .resetRelease | .pfwAssertion | .pfwDeassertion => false
  | .controlByte _ | .frameEnd | .fragmentReadComplete | .headerReadComplete | .cellProgramComplete _ => false
  | .stateAdvanceComplete _ | .erasePhaseEnd _ | .sectorEraseComplete _ | .frameBegin | .supplyLoss => false

/-- R215, R216: the addresses of bank 0 that the host may write: CONTROL to CMD_BUF, SUBMIT, CANCEL, COMP_POP, BUF_PTR,
BUF_DATA and BUF_FLAGS; and of bank 1: CONFIG, RECLAIM_LOW, REPORT_POP and SECTOR_SEL. -/
def hostWrites (bank : Bool) (a : RegAddr) : Bool :=
  if bank then decide (a.toNat ∈ [0x00, 0x01, 0x02, 0x24, 0x25])
  else decide (a.toNat ∈ [0x01, 0x02, 0x03, 0x04, 0x05, 0x06, 0x07, 0x08, 0x09, 0x0A, 0x0C, 0x1B, 0x1C, 0x1D, 0x1E, 0x1F])

/-- R90: sector `n` is eligible as a victim. -/
abbrev eligibleVictim (s : State) (n : Nat) : Prop :=
  n < 32 ∧ s.reclaimer.barred = false ∧ (s.recAt n).state = .inUse ∧ (s.recAt n).role ≠ .isOpen ∧
    (s.recAt n).epoch = s.engine.epoch ∧ 1 ≤ (s.recAt n).dead ∧ (s.recAt n).live ≤ s.erasedCount

/-- R91: sector `n` is the victim chosen: eligible, with the most dead cells, among equals the fewest erases, among
these the lowest number. -/
def isBestVictim (s : State) (n : Nat) : Prop :=
  eligibleVictim s n ∧ ∀ m, eligibleVictim s m → m ≠ n →
    (s.recAt m).dead < (s.recAt n).dead ∨ ((s.recAt m).dead = (s.recAt n).dead ∧
      ((s.recAt n).erases < (s.recAt m).erases ∨ ((s.recAt m).erases = (s.recAt n).erases ∧ n < m)))

/-- R18: no operation on the port, none suspended, no request waiting. -/
abbrev portEmpty (s : State) : Prop :=
  s.ctl.op = none ∧ s.ctl.paused = none ∧ s.ctl.waitEngine = none ∧ s.ctl.waitReclaimer = none ∧
    s.ctl.waitScanner = none

/-- R166: the commands that begin a reset, as things stand. -/
def beginsReset (i : Instr) (s : State) : Prop :=
  i = .powerOn ∨ (i = .pinReset ∧ s.running = true) ∨
    ∃ v : Byte, i = .softReset v ∧ v.getLsbD 0 = true ∧ writing false 0x01 s

/-- R18, R50, R66, R83, R111, R114, R115, R117, R123, R129, R165, R166: the blocks that every reset brings to one
value. That the quiesce condition is clear until the hold ends is the model's reading of R18 and R206:
notes/assumptions/33.md. -/
abbrev blocksReset (t : State) : Prop :=
  t.ctl = { op := none, paused := none, waitEngine := none, waitReclaimer := none, waitScanner := none, pass := 0,
            quiesced := false } ∧
    t.table = { recs := List.replicate 32
                  { state := .unscanned, epoch := 0, erases := 0, role := .none, blank := 0, live := 0, dead := 32,
                    faultyCount := 0, faulty := [], pinned := false },
                cursor := 32, queue := [], claims := [], sel := 0 } ∧
    t.index = [] ∧ t.comps = [] ∧
    t.engine = { state := .idle, cmd := none, work := .none, held := none, seqNext := 0, epoch := 0 } ∧
    t.reclaimer = { state := .idle, victim := none, cursor := 0, faults := 0, cause := .none, reloc := none,
                    request := .none, barred := false } ∧
    t.cmds = { tag := 0, key := 0, len := 0, buf := 0, queue := [], submitResult := 0xFF, cancelResult := 0xFF } ∧
    (t.staging.ownerA = .host ∧ t.staging.ownerB = .host ∧ t.staging.select = .bufA ∧ t.staging.offset = 0 ∧
      t.staging.conflict = false) ∧
    (t.scanner.step = .waiting ∧ t.scanner.found = [] ∧ t.scanner.retire = [] ∧ t.scanner.chosen = [] ∧
      t.scanner.ring = [] ∧ t.scanner.lost = 0) ∧
    (t.irq.ready = false ∧ t.irq.fault = false ∧ t.irq.space = false) ∧ t.power.isReady = false ∧ t.running = false

/-- R17, R166, R208: the commands that cut the operation in progress: those that begin a reset, and the loss of the
supply. -/
def cutsOperation (i : Instr) (s : State) : Prop := beginsReset i s ∨ i = .supplyLoss

/-- Byte `k` of a number in little-endian order, byte 0 the least significant. -/
def byteOf (n k : Nat) : Byte := BitVec.ofNat 8 (n / 256 ^ k)

/-- R112: the kind codes. -/
def kindTable : List (Kind × Byte) :=
  [(.store, 1), (.fetch, 2), (.drop, 3), (.probe, 4), (.next, 5), (.reclaim, 6), (.format, 7)]

/-- R122: the status codes. -/
def statusTable : List (Status × Byte) :=
  [(.done, 0), (.notFound, 1), (.noSpace, 2), (.indexFull, 3), (.arrayFault, 4), (.dataCheck, 5), (.seqExhausted, 6),
   (.epochExhausted, 7), (.cancelled, 8), (.nothingToDo, 9)]

/-- R192: the report codes. -/
def reportTable : List (ReportKind × Byte) :=
  [(.tornCell, 1), (.orphan, 2), (.superseded, 3), (.incompleteRecord, 4), (.indexOverflow, 5), (.tornSector, 6),
   (.oldEpoch, 7), (.headerRestored, 8), (.reclaimResumed, 9), (.recoveryFault, 10)]

/-- R220: the codes of SEC_STATE. -/
def recStateTable : List (RecState × Byte) :=
  [(.unscanned, 0), (.ready, 1), (.inUse, 2), (.reclaiming, 3), (.worn, 4), (.torn, 5), (.blankHeader, 6),
   (.erasePending, 7), (.abandoned, 8)]

/-- R220: the pinned mark and the role as SEC_FLAGS shows them. -/
def flagsTable : List ((Bool × Role) × Byte) :=
  [((false, .none), 0), ((true, .none), 1), ((false, .isOpen), 2), ((true, .isOpen), 3), ((false, .readyQueued), 4),
   ((true, .readyQueued), 5), ((false, .victim), 6), ((true, .victim), 7)]

/-- R168, R173, R195, R206: the first act of the recovery scan at the end of a hold: the header read of S0, with the
monitor's level and the quiesce condition taken from PFW#. -/
def State.scanBegun (s : State) : State :=
  ((s.setScanner { s.scanner with step := .headers, pos := 0 }).setPfw { s.pfw with asserted := s.pfw.pinLow }).setCtl
    { s.ctl with op := some { who := .scanner, op := .headerRead 0, phase := .single, suspendCount := 0 }
                 quiesced := s.pfw.pinLow }

/-- R80: the Sector Table with every sector pinned that holds one of the cells. -/
def SectorTable.pinnedAt (t : SectorTable) (cells : List Nat) : SectorTable :=
  { t with recs := t.recs.mapIdx fun n r => { r with pinned := r.pinned || (cells.map sectorOf).contains n } }

/-- R80: the Sector Table with every pinned mark clear. -/
def SectorTable.unpinned (t : SectorTable) : SectorTable :=
  { t with recs := t.recs.map fun r => { r with pinned := false } }

/-- R112, R127: the tag is that of the command in progress or of the held completion. -/
abbrev tagTaken (tag : Byte) (s : State) : Prop :=
  s.engine.cmd.map Command.tag = some tag ∨ s.engine.held.map (fun h => h.entry.tag) = some tag

/-- R112 check 4: the tag is that of a queued command, of the command in progress or of the held completion. -/
abbrev tagUsed (tag : Byte) (s : State) : Prop := tag ∈ s.cmds.queue.map Command.tag ∨ tagTaken tag s

/-- R112: the byte a row writes to SUBMIT. -/
def submittedByte : Instr → Option Byte
  | .store => some 1
  | .fetch => some 2
  | .drop => some 3
  | .probe => some 4
  | .next => some 5
  | .reclaim => some 6
  | .format => some 7
  | .badKind v | .registerWrite v => some v
  | .powerOn | .powerOnHoldEnd | .pinReset | .resetRelease | .softReset _ | .pfwAssertion | .pfwDeassertion => none
  | .controlByte _ | .frameEnd | .cancel _ | .compPop _ | .reportPop _ | .irqFlagsWrite _ | .bufFlagsWrite _ => none
  | .bufDataWrite _ | .bufDataRead | .configWrite _ | .irqMaskWrite _ | .reclaimLowWrite _ => none
  | .fragmentReadComplete | .headerReadComplete | .cellProgramComplete _ | .stateAdvanceComplete _ => none
  | .erasePhaseEnd _ | .sectorEraseComplete _ | .frameBegin | .supplyLoss => none

/-- R112: the kind code `v` passes every check with the command fields as they stand. -/
abbrev acceptable (v : Byte) (s : State) : Prop :=
  s.deviceReady = true ∧ 1 ≤ v.toNat ∧ v.toNat ≤ 7 ∧ s.cmds.queue.length < 4 ∧ ¬ tagUsed s.cmds.tag s ∧
    (v.toNat ≤ 4 → 1 ≤ s.cmds.key.toNat ∧ s.cmds.key.toNat ≤ 4095) ∧ (v = 5 → s.cmds.key.toNat ≤ 4095) ∧
    (v = 1 → s.cmds.len.toNat ≤ 1024) ∧
    (v.toNat ≤ 2 → (s.cmds.buf = 0 ∧ s.staging.ownerA = .host) ∨ (s.cmds.buf = 1 ∧ s.staging.ownerB = .host))

/-- R111: the buffer CMD_BUF names, where it is 00h or 01h. -/
def State.namedBuf (s : State) : Buf := if s.cmds.buf = 0 then .bufA else .bufB

/-- R113: the queue entry of the command fields under a kind. -/
def State.entryFor (s : State) (k : Kind) : Command :=
  { tag := s.cmds.tag, kind := k
    key := if k = .reclaim ∨ k = .format then none else some s.cmds.key.toNat
    len := if k = .store then some s.cmds.len.toNat else none
    buf := if k = .store ∨ k = .fetch then some s.namedBuf else none }

/-- R156: the buffers after an accepted submission: the named one is the engine's for a STORE or a FETCH. -/
def State.lentStaging (s : State) (k : Kind) : Staging :=
  if k = .store ∨ k = .fetch then
    (if s.cmds.buf = 0 then { s.staging with ownerA := .engine } else { s.staging with ownerB := .engine })
  else s.staging

/-- R119, R80, R112: the state after a submitted command that ends in its own submission event: ACCEPTED, the entry at
the tail of the Completion Queue, the pins clear, the engine IDLE, the address at SUBMIT. -/
def State.answered (s : State) (e : Completion) : State :=
  ((((s.setCmds { s.cmds with submitResult := 0 }).setComps (s.comps ++ [e])).setTable s.table.unpinned).setEngine
    { s.engine with state := .idle, cmd := none, work := .none, held := none }).afterWrite false 0x0A

/-- R116: a command submitted now is taken in its submission event and, if it ends there, its completion finds room and
the Reclaimer is not waiting for its pins. -/
abbrev answersNow (s : State) : Prop :=
  writing false 0x0A s ∧ engineFree s ∧ s.comps.length < 8 ∧ s.reclaimer.state ≠ .draining

/-- R18: the operation in this phase is on the port, none is suspended, no request waits, and the Array Controller is not
quiesced. -/
abbrev aloneOnPort (who : Requester) (op : ArrayOp) (phase : Phase) (s : State) : Prop :=
  (∃ k, s.ctl.op = some { who := who, op := op, phase := phase, suspendCount := k }) ∧ s.ctl.paused = none ∧
    s.ctl.waitEngine = none ∧ s.ctl.waitReclaimer = none ∧ s.ctl.waitScanner = none ∧ s.ctl.quiesced = false

/-- R18, R22: the Array Controller with an operation just granted in place of the one it had. -/
def State.nowOnPort (s : State) (who : Requester) (op : ArrayOp) : Controller :=
  { s.ctl with op := some { who := who, op := op, phase := .single, suspendCount := 0 } }

/-- The bytes `l` with `bytes` in place of those from `at_` on; none past the end is written. -/
def bytesAt (at_ : Nat) (bytes l : List Byte) : List Byte :=
  l.mapIdx fun i x => if at_ ≤ i ∧ i < at_ + bytes.length then bytes.getD (i - at_) 0 else x

/-- R119, R156: the owners after a completion that joins the queue: the buffer of the command is the host's again. -/
def Staging.handedBack (g : Staging) (b : Option Buf) : Staging :=
  { g with ownerA := if b = some .bufA then .host else g.ownerA
           ownerB := if b = some .bufB then .host else g.ownerB }

/-- R119: the state after the command in progress ends with room in the Completion Queue. -/
def State.ended (s : State) (c : Command) (e : Completion) : State :=
  (((s.setComps (s.comps ++ [e])).setTable s.table.unpinned).setStaging (s.staging.handedBack c.buf)).setEngine
    { s.engine with state := .idle, cmd := none, work := .none, held := none }

/-- R119, R116: a command that ends now ends with room in the Completion Queue, with no other command queued and no
victim waiting for its pins. -/
abbrev endsQuietly (s : State) : Prop :=
  s.comps.length < 8 ∧ s.cmds.queue = [] ∧ s.reclaimer.state ≠ .draining

/-- R140: the outcome of a fragment read is what the FETCH expects. -/
def fetchMatches (c : Command) (w : FetchWork) (o : ReadOutcome) : Prop :=
  ∃ h, o.cond = .readable ∧ o.header = some h ∧ h.key = c.key.getD 0 ∧ h.seq = w.seq ∧ h.count = w.count ∧
    h.frag = w.next ∧ h.payLen = min 64 (w.len - 64 * w.next) ∧
    check16 (o.payload.take (min 64 (w.len - 64 * w.next))) = h.payCheck

/-- R173: what a header area reads as in the scan, with the record of its sector. -/
def headerTaken (a : SectorArea) (r : SectorRec) (f : HeaderFound) (r' : SectorRec) : Prop :=
  (∃ h, a = .fields h ∧ h.check = sectorCheck h.epoch h.erases ∧ 1 ≤ h.epoch ∧
    f = .readable h.state h.epoch h.erases ∧
    r' = { r with state := recStateOf h.state, epoch := h.epoch, erases := h.erases }) ∨
  (a = .erased ∧ f = .blank ∧ r' = { r with state := .blankHeader, epoch := 0, erases := 0 }) ∨
  ((a = .garbled ∨ ∃ h, a = .fields h ∧ (h.check ≠ sectorCheck h.epoch h.erases ∨ h.epoch = 0)) ∧ f = .torn ∧
    r' = { r with state := .torn, epoch := 0, erases := 0 })

end Sys2Proof.Machine
end

