-- ==== Sys2Proof/Certificates/Slice0/Obligations.lean ====
section
/-! DEFINITION. Obligations.lean: the statements about the model, for the provers. -/

open Sys2Proof Sys2Proof.Machine

/-! ### The machine as a whole -/

/-- A step runs the command at the front of the queue on the state with the queue's rest. -/
def Obligations.FrontCommandRuns : Prop :=
  ∀ (c : Instr) (rest : List Instr) (s : State), s.pending = c :: rest → step s = exec c (s.setPending rest)

/-- No command touches the queue of waiting commands. -/
def Obligations.QueueOfCommandsKept : Prop :=
  ∀ (i : Instr) (s t : State), exec i s = .next t → t.pending = s.pending

/-- R1, R2: every step keeps the canonical form of the array. -/
def Obligations.ArrayStaysCanonical : Prop :=
  ∀ s t : State, s.array.wf → step s = .next t → t.array.wf

/-- R65, R68, R70, R82: every step keeps 32 records whose four counts add to 32, their faulty sets inside their sectors,
in order and no smaller than their faulty counts, the cursor and the selected sector in range; and, once the part is
READY, every faulty count the size of its faulty set. -/
def Obligations.SectorCountsAdd : Prop :=
  ∀ s t : State, s.table.wf ∧ countsExact s → step s = .next t → t.table.wf ∧ countsExact t

/-- R115, R123, R193: every step keeps the three queues within their capacities, the lost-report count within 255, and a
completion held only while the Completion Queue is full. -/
def Obligations.QueuesKeepCapacity : Prop :=
  ∀ s t : State, capacitiesOk s ∧ heldOk s → step s = .next t → capacitiesOk t ∧ heldOk t

/-- R48: every step keeps the key index in ascending key order, one entry a key. -/
def Obligations.IndexStaysAscending : Prop :=
  ∀ s t : State, indexOk s → step s = .next t → indexOk t

/-- R154, R85, R219, R20: every step keeps the buffers at 1024 bytes, RECLAIM_LOW at 32 to 1024, bits 6 and 7 of IRQ_MASK
at 0, the pass counter at 0 to 4. -/
def Obligations.RangesKept : Prop :=
  ∀ s t : State, s.staging.wf ∧ s.settings.wf ∧ s.irq.wf ∧ s.ctl.wf → step s = .next t →
    t.staging.wf ∧ t.settings.wf ∧ t.irq.wf ∧ t.ctl.wf

/-- The state after reset is sound. -/
def Obligations.ResetIsSound : Prop := State.reset.wf

/-! ### Resets and the supply (R17, R166 to R169, R208) -/

/-- R166, R167: a power-on reset. The array is unchanged where no operation was cut; nothing is said of the bytes of the
buffers, which are unknown. The model's choices in it: the quiesce condition clear until the hold ends (log entry
notes/assumptions/33.md), an earlier soft reset's hold gone and an open frame not decoded (31.md), the levels of RESET#
and PFW# kept (4.md). -/
def Obligations.PowerOnResets : Prop :=
  ∀ s : State, ∃ t, exec .powerOn s = .next t ∧ blocksReset t ∧
    t.power = { supply := true, supplyHold := true, resetLow := s.power.resetLow, softHold := false, isReady := false } ∧
    t.scanner.cause = .powerOn ∧ t.settings = { background := true, suspend := true, reclaimLow := 96 } ∧
    t.irq.mask = 0 ∧ t.pfw = s.pfw ∧ (s.ctl.op = none → s.ctl.paused = none → t.array = s.array) ∧
    (t.port.frame = .closed ∨ t.port.frame = .undecoded)

/-- R166, R167, R214: a pin reset of a part that no reset holds. That the quiesce condition is clear until the hold ends
is the model's choice: notes/assumptions/33.md. -/
def Obligations.PinResets : Prop :=
  ∀ s : State, s.running = true → ∃ t, exec .pinReset s = .next t ∧ blocksReset t ∧
    t.power = { s.power with resetLow := true, isReady := false } ∧ t.scanner.cause = .pin ∧
    t.settings = { background := true, suspend := true, reclaimLow := 96 } ∧ t.irq.mask = 0 ∧
    t.staging.bytesA = s.staging.bytesA ∧ t.staging.bytesB = s.staging.bytesB ∧ t.pfw = s.pfw ∧
    (s.ctl.op = none → s.ctl.paused = none → t.array = s.array) ∧
    (s.port.frame = .closed → t.port.frame = .closed) ∧ (s.port.frame ≠ .closed → t.port.frame = .undecoded)

/-- R166, R167, R169, R214: a soft reset, in the write of a byte with bit 0 set to CONTROL, whatever its other bits; the
rest of the frame is not decoded. That the quiesce condition is clear until the hold ends is the model's choice:
notes/assumptions/33.md. -/
def Obligations.SoftResets : Prop :=
  ∀ (v : Byte) (s : State), writing false 0x01 s → v.getLsbD 0 = true →
    ∃ t, exec (.softReset v) s = .next t ∧ blocksReset t ∧
      t.power = { s.power with softHold := true, isReady := false } ∧ t.scanner.cause = .soft ∧
      t.settings = s.settings ∧ t.irq.mask = s.irq.mask ∧ t.staging.bytesA = s.staging.bytesA ∧
      t.staging.bytesB = s.staging.bytesB ∧ t.pfw = s.pfw ∧
      (s.ctl.op = none → s.ctl.paused = none → t.array = s.array) ∧ t.port.frame = .undecoded

/-- R169, R218: a byte with bit 0 clear written to CONTROL has no effect. -/
def Obligations.ControlNeedsBitZero : Prop :=
  ∀ (v : Byte) (s : State), writing false 0x01 s → v.getLsbD 0 = false →
    exec (.registerWrite v) s = .next (s.afterWrite false 0x02)

/-- R166: a pin reset of a part that a reset already holds changes START_CAUSE, and the level of RESET#, and nothing
further. -/
def Obligations.PinResetInHold : Prop :=
  ∀ s : State, s.power.supply = true → s.held = true →
    exec .pinReset s =
      .next ((s.setPower { s.power with resetLow := true }).setScanner { s.scanner with cause := .pin })

/-- R168, R171, R173, R206: the last end of hold makes the part STARTING and the scan's first step begin: the end of the
power-on hold, the rising edge of RESET#, or the end of the frame of a soft reset. -/
def Obligations.HoldEndBeginsScan : Prop :=
  ∀ s : State, portEmpty s → s.power.supply = true → s.power.isReady = false →
    (s.power.supplyHold = true → s.power.resetLow = false → s.power.softHold = false →
      exec .powerOnHoldEnd s = .next (s.setPower { s.power with supplyHold := false }).scanBegun) ∧
    (s.power.supplyHold = false → s.power.resetLow = true → s.power.softHold = false →
      exec .resetRelease s = .next (s.setPower { s.power with resetLow := false }).scanBegun) ∧
    (s.power.supplyHold = false → s.power.resetLow = false → s.power.softHold = true →
      s.port.frame = .undecoded → s.port.lowByte = none → s.port.highByte = none →
      exec .frameEnd s =
        .next ((s.setPower { s.power with softHold := false }).setPort
          { s.port with frame := .closed, taken := [] }).scanBegun)

/-- R166: the part stays held until every reset that has begun has reached its own end of hold. -/
def Obligations.HoldWaitsForAll : Prop :=
  ∀ s : State,
    (s.power.supplyHold = true → s.power.resetLow = true ∨ s.power.softHold = true →
      exec .powerOnHoldEnd s = .next (s.setPower { s.power with supplyHold := false })) ∧
    (s.power.resetLow = true → s.power.supplyHold = true ∨ s.power.softHold = true →
      exec .resetRelease s = .next (s.setPower { s.power with resetLow := false })) ∧
    (s.power.softHold = true → s.power.supplyHold = true ∨ s.power.resetLow = true →
      s.port.frame = .undecoded → s.port.lowByte = none → s.port.highByte = none →
      exec .frameEnd s =
        .next ((s.setPower { s.power with softHold := false }).setPort
          { s.port with frame := .closed, taken := [] }))

/-- R17, R208: what a reset of any kind, or the loss of the supply, leaves of a cut cell program, a cut state advance, a
cut erase in its erase phase, running or suspended, and a cut header phase, and that it changes no other cell and no
other header. -/
def Obligations.ResetCutsOperation : Prop :=
  ∀ (i : Instr) (s : State), cutsOperation i s → s.array.wf →
    (∀ o, s.ctl.op = some o → s.ctl.paused = none →
      ∃ t, exec i s = .next t ∧ t.ctl.op = none ∧ t.ctl.paused = none ∧
        (∀ c, o.op = .read c ∨ o.op = .headerRead c → t.array = s.array) ∧
        (∀ c x, o.op = .advanceCell c x → t.array = s.array) ∧
        (∀ n x, o.op = .advanceHeader n x → t.array = s.array) ∧
        (∀ p : Program, o.op = .program p → p.cell < 1024 → cellCondition (s.array.cellAt p.cell) = .blank →
          cellCondition (t.array.cellAt p.cell) = .torn ∧ t.array.sectors = s.array.sectors ∧
            ∀ c, c ≠ p.cell → t.array.cellAt c = s.array.cellAt c) ∧
        (∀ n e k, o.op = .erase n e k → n < 32 → o.phase = .erasePhase →
          sectorTorn (t.array.sectorAt n) = true ∧ (∀ m, m ≠ n → t.array.sectorAt m = s.array.sectorAt m) ∧
            ∀ c, sectorOf c ≠ n → t.array.cellAt c = s.array.cellAt c) ∧
        (∀ n e k, (o.op = .erase n e k ∧ o.phase = .headerPhase true) ∨ o.op = .restoreHeader n e k → n < 32 →
          (t.array.sectorAt n = .erased ∨ sectorTorn (t.array.sectorAt n) = true) ∧
            (∀ m, m ≠ n → t.array.sectorAt m = s.array.sectorAt m) ∧ ∀ c, t.array.cellAt c = s.array.cellAt c)) ∧
    (∀ o r n e k, s.ctl.paused = some r → r.op = .erase n e k → n < 32 → r.phase = .erasePhase →
      s.ctl.op = some o → (∃ c, o.op = .read c) →
      ∃ t, exec i s = .next t ∧ t.ctl.op = none ∧ t.ctl.paused = none ∧ sectorTorn (t.array.sectorAt n) = true ∧
        (∀ m, m ≠ n → t.array.sectorAt m = s.array.sectorAt m) ∧
        ∀ c, sectorOf c ≠ n → t.array.cellAt c = s.array.cellAt c)

/-- R208, R17: with no operation in progress the loss of the supply changes no bit of the array. That the rest of the
state stays until the next POWER_ON is the model's choice: notes/assumptions/16.md. -/
def Obligations.SupplyLossStops : Prop :=
  ∀ s : State, s.ctl.op = none → s.ctl.paused = none →
    ∃ t, exec .supplyLoss s = .next t ∧ t.running = false ∧
      t.power = { supply := false, supplyHold := false, resetLow := s.power.resetLow, softHold := false,
                  isReady := false } ∧
      portEmpty t ∧ t.array = s.array ∧ t.pfw = s.pfw ∧ t.index = s.index ∧ t.comps = s.comps

/-! ### The power-fail warning (R195 to R201) -/

/-- R195, R196, R197: a warning at a port that holds an operation other than an erase in its erase phase quiesces the
Array Controller and leaves the operation running. While a reset holds the part the edge reaches the monitor alone. -/
def Obligations.WarningQuiesces : Prop :=
  ∀ s : State,
    (∀ o, s.running = true → quiet s → s.ctl.quiesced = false → s.ctl.op = some o → o.phase ≠ .erasePhase →
      s.ctl.paused = none →
      exec .pfwAssertion s =
        .next ((s.setPfw { pinLow := true, asserted := true }).setCtl { s.ctl with quiesced := true })) ∧
    (s.power.supply = true → s.held = true →
      exec .pfwAssertion s = .next (s.setPfw { pinLow := true, asserted := true }) ∧
      exec .pfwDeassertion s = .next (s.setPfw { pinLow := false, asserted := false }))

/-- R197, R198, R201: a warning abandons the Reclaimer's erase in its erase phase: the port is free, the record of the
sector is ABANDONED, nothing outside the sector changes, no flag is raised, and the same erase waits again. -/
def Obligations.WarningAbandonsErase : Prop :=
  ∀ (s : State) (n e k sc : Nat), s.running = true → quiet s → s.ctl.quiesced = false →
    s.ctl.op = some { who := .reclaimer, op := .erase n e k, phase := .erasePhase, suspendCount := sc } →
    s.ctl.paused = none → s.ctl.waitEngine = none → s.ctl.waitReclaimer = none → s.ctl.waitScanner = none →
    s.reclaimer.barred = false → s.array.wf → n < 32 → s.table.recs.length = 32 →
    ∃ t, exec .pfwAssertion s = .next t ∧
      t.ctl = { s.ctl with op := none, waitReclaimer := some (.erase n e k), quiesced := true } ∧
      (∀ m, t.recAt m = if m = n then { s.recAt n with state := .abandoned } else s.recAt m) ∧
      t.array.sectors = s.array.sectors ∧ (∀ c, sectorOf c ≠ n → t.array.cellAt c = s.array.cellAt c) ∧
      t.pfw = { pinLow := true, asserted := true } ∧ t.irq = s.irq ∧ t.reclaimer = s.reclaimer ∧ t.index = s.index ∧
      t.comps = s.comps ∧ t.scanner = s.scanner

/-- R200, R201, R19, R22: the end of a warning at a port in use frees the withheld requests; at a free port where the
Reclaimer's erase alone waits it is granted afresh, with suspend count 0, the pass counter 0 and the erase mark on its
sector. -/
def Obligations.WarningEnds : Prop :=
  ∀ s : State, s.running = true → quiet s → s.ctl.quiesced = true →
    (s.ctl.op ≠ none →
      exec .pfwDeassertion s =
        .next ((s.setPfw { pinLow := false, asserted := false }).setCtl { s.ctl with quiesced := false })) ∧
    (∀ n e k, s.ctl = { op := none, paused := none, waitEngine := none, waitReclaimer := some (.erase n e k),
                        waitScanner := none, pass := s.ctl.pass, quiesced := true } →
      exec .pfwDeassertion s =
        .next (((s.setPfw { pinLow := false, asserted := false }).setCtl
          { op := some { who := .reclaimer, op := .erase n e k, phase := .erasePhase, suspendCount := 0 }
            paused := none, waitEngine := none, waitReclaimer := none, waitScanner := none, pass := 0,
            quiesced := false }).setArray (s.array.putSector n .garbled)))

/-- R20, R200: of a Record Engine program and a Reclaimer program that wait at a point at which the port becomes free,
the Reclaimer's is granted if fewer than 32 cells are erased or the pass counter is 4, and the counter becomes 0;
otherwise the engine's is granted and the counter rises by 1. -/
def Obligations.ArbiterChoosesByCount : Prop :=
  ∀ (s : State) (p q : Program), s.running = true → quiet s →
    s.ctl = { op := none, paused := none, waitEngine := some (.program p), waitReclaimer := some (.program q),
              waitScanner := none, pass := s.ctl.pass, quiesced := true } → s.ctl.pass ≤ 4 →
    (s.erasedCount < 32 ∨ s.ctl.pass = 4 →
      exec .pfwDeassertion s =
        .next ((s.setPfw { pinLow := false, asserted := false }).setCtl
          { op := some { who := .reclaimer, op := .program q, phase := .single, suspendCount := 0 }
            paused := none, waitEngine := some (.program p), waitReclaimer := none, waitScanner := none, pass := 0,
            quiesced := false })) ∧
    (32 ≤ s.erasedCount → s.ctl.pass < 4 →
      exec .pfwDeassertion s =
        .next ((s.setPfw { pinLow := false, asserted := false }).setCtl
          { op := some { who := .engine, op := .program p, phase := .single, suspendCount := 0 }
            paused := none, waitEngine := none, waitReclaimer := some (.program q), waitScanner := none,
            pass := s.ctl.pass + 1, quiesced := false }))

/-! ### Frames (R209 to R214) -/

/-- R209: a frame begins by latching STATUS, with nothing of an earlier frame; its control byte sets the direction, the
bank and the address, and shifts STATUS out. -/
def Obligations.FrameOpens : Prop :=
  ∀ (v : Byte) (s : State),
    (s.port.frame = .closed → s.running = true →
      exec .frameBegin s =
        .next (s.setPort { frame := .control, statusOut := statusByte s, out := s.port.out, lowByte := none,
                           highByte := none, taken := [] })) ∧
    (s.port.frame = .control →
      exec (.controlByte v) s =
        .next (s.setPort { s.port with
          frame := .data (v.getLsbD 7) (v.getLsbD 6) (v.extractLsb' 0 6), out := s.port.statusOut }))

/-- R209, R213: the end of a decoded frame that collected no byte of RECLAIM_LOW closes it and changes nothing else. -/
def Obligations.FrameCloses : Prop :=
  ∀ s : State, s.port.frame ≠ .closed → s.port.lowByte = none → s.port.highByte = none → s.power.softHold = false →
    exec .frameEnd s = .next (s.setPort { s.port with frame := .closed, taken := [] })

/-- R168, R214: a frame that begins while the part is held in reset is not decoded; while the hold stands, and in a
frame that was open when the reset began until its chip select rises, every data byte shifts out FFh and has no effect.
The model's choices in it: a frame that begins in the hold stays so after the hold ends (notes/assumptions/48.md), and a
frame that begins with the supply out of range is answered in the same way (notes/assumptions/34.md). -/
def Obligations.UndecodedFrameInert : Prop :=
  ∀ (i : Instr) (v : Byte) (s : State),
    (s.port.frame = .closed → s.running = false →
      exec .frameBegin s = .next (s.setPort { s.port with frame := .undecoded, statusOut := 0xFF })) ∧
    (s.port.frame = .undecoded → isDataByte i = true ∨ i = .controlByte v →
      exec i s = .next (s.setPort { s.port with out := 0xFF }))

/-! ### Registers (R82, R85, R111, R160, R213 to R223) -/

/-- R111, R213: each byte of the command fields is stored as written, the other byte of its field as it stood. -/
def Obligations.CommandFieldsStored : Prop :=
  ∀ (v : Byte) (s : State),
    (writing false 0x04 s →
      exec (.registerWrite v) s = .next ((s.setCmds { s.cmds with tag := v }).afterWrite false 0x05)) ∧
    (writing false 0x05 s → ∃ k : Half, k.toNat = s.cmds.key.toNat / 256 * 256 + v.toNat ∧
      exec (.registerWrite v) s = .next ((s.setCmds { s.cmds with key := k }).afterWrite false 0x06)) ∧
    (writing false 0x06 s → ∃ k : Half, k.toNat = v.toNat * 256 + s.cmds.key.toNat % 256 ∧
      exec (.registerWrite v) s = .next ((s.setCmds { s.cmds with key := k }).afterWrite false 0x07)) ∧
    (writing false 0x07 s → ∃ n : Half, n.toNat = s.cmds.len.toNat / 256 * 256 + v.toNat ∧
      exec (.registerWrite v) s = .next ((s.setCmds { s.cmds with len := n }).afterWrite false 0x08)) ∧
    (writing false 0x08 s → ∃ n : Half, n.toNat = v.toNat * 256 + s.cmds.len.toNat % 256 ∧
      exec (.registerWrite v) s = .next ((s.setCmds { s.cmds with len := n }).afterWrite false 0x09)) ∧
    (writing false 0x09 s →
      exec (.registerWrite v) s = .next ((s.setCmds { s.cmds with buf := v }).afterWrite false 0x0A))

/-- R160, R219, R82: each byte of BUF_PTR changes its part of the pointer; SECTOR_SEL stores 0 to 31. -/
def Obligations.PointerAndSelectStored : Prop :=
  ∀ (v : Byte) (s : State),
    (writing false 0x1C s → ∃ o : BufOffset, o.toNat = s.staging.offset.toNat / 256 * 256 + v.toNat ∧
      exec (.registerWrite v) s = .next ((s.setStaging { s.staging with offset := o }).afterWrite false 0x1D)) ∧
    (writing false 0x1D s → ∃ o : BufOffset, o.toNat = v.toNat % 4 * 256 + s.staging.offset.toNat % 256 ∧
      exec (.registerWrite v) s =
        .next ((s.setStaging { s.staging with
          offset := o, select := if v.getLsbD 7 then .bufB else .bufA }).afterWrite false 0x1E)) ∧
    (writing true 0x25 s →
      exec (.registerWrite v) s =
        .next ((s.setTable { s.table with sel := if 32 ≤ v.toNat then 31 else v.toNat }).afterWrite true 0x26))

/-- R210, R213: a byte written at an address that the host may not write, or that has no register, has no effect, and
the address moves on. -/
def Obligations.ReadOnlyWritesIgnored : Prop :=
  ∀ (v : Byte) (bank : Bool) (a : RegAddr) (s : State), writing bank a s → hostWrites bank a = false →
    exec (.registerWrite v) s = .next (s.afterWrite bank (a + 1))

/-- R222: a byte written to IRQ_FLAGS clears each sticky flag whose position holds 1 in the byte and leaves the others. -/
def Obligations.StickyFlagsCleared : Prop :=
  ∀ (v : Byte) (s : State), writing false 0x02 s →
    exec (.irqFlagsWrite v) s =
      .next ((s.setIrq { ready := if v.getLsbD 3 then false else s.irq.ready
                         fault := if v.getLsbD 4 then false else s.irq.fault
                         space := if v.getLsbD 5 then false else s.irq.space
                         mask := s.irq.mask }).afterWrite false 0x03)

/-- R223: a write of IRQ_MASK stores bits 0 to 5, and bits 6 and 7 are 0. -/
def Obligations.MaskStored : Prop :=
  ∀ (v : Byte) (s : State), writing false 0x03 s →
    ∃ m : Byte, (∀ i < 6, m.getLsbD i = v.getLsbD i) ∧ m.getLsbD 6 = false ∧ m.getLsbD 7 = false ∧
      exec (.irqMaskWrite v) s = .next ((s.setIrq { s.irq with mask := m }).afterWrite false 0x04)

/-- R219, R221, R223: IRQ_FLAGS bit by bit, and IRQ# driven low while the part runs and some flag is set whose mask bit
is set. -/
def Obligations.FlagsDriveIrq : Prop :=
  ∀ s : State,
    ((irqFlags s).getLsbD 0 = true ↔ s.comps ≠ []) ∧ ((irqFlags s).getLsbD 1 = true ↔ s.scanner.ring ≠ []) ∧
    (irqFlags s).getLsbD 2 = s.ctl.quiesced ∧ (irqFlags s).getLsbD 3 = s.irq.ready ∧
    (irqFlags s).getLsbD 4 = s.irq.fault ∧ (irqFlags s).getLsbD 5 = s.irq.space ∧
    (irqFlags s).getLsbD 6 = false ∧ (irqFlags s).getLsbD 7 = false ∧
    (irqDriven s = true ↔ s.running = true ∧ ∃ i < 6, (irqFlags s).getLsbD i = true ∧ s.irq.mask.getLsbD i = true)

/-- R217: STATUS bit by bit. -/
def Obligations.StatusBits : Prop :=
  ∀ s : State,
    ((statusByte s).getLsbD 0 = true ↔ s.running = true ∧ s.power.isReady = false) ∧
    ((statusByte s).getLsbD 1 = true ↔ s.running = true ∧ s.power.isReady = true) ∧
    ((statusByte s).getLsbD 2 = true ↔ s.engine.state = .running ∨ s.engine.state = .waitSpace ∨
      s.engine.state = .holding) ∧
    ((statusByte s).getLsbD 3 = true ↔ s.reclaimer.state = .marking ∨ s.reclaimer.state = .moving ∨
      s.reclaimer.state = .draining ∨ s.reclaimer.state = .erasing) ∧
    ((statusByte s).getLsbD 4 = true ↔ s.reclaimer.state = .halted) ∧
    (statusByte s).getLsbD 5 = s.ctl.quiesced ∧ (statusByte s).getLsbD 6 = s.pfw.asserted ∧
    (statusByte s).getLsbD 7 = false

/-- R218: a write to CONFIG that starts no reclamation, since bit 0 is clear or the Reclaimer is not IDLE, stores its two
settings and nothing else. -/
def Obligations.ConfigStored : Prop :=
  ∀ (v : Byte) (s : State), writing true 0x00 s → quiet s → portSettled s →
    v.getLsbD 0 = false ∨ s.reclaimer.state ≠ .idle →
    exec (.configWrite v) s =
      .next ((s.setSettings { s.settings with background := v.getLsbD 0, suspend := v.getLsbD 1 }).afterWrite true 0x01)

/-- R86, R90 to R92, R19: background reclaim enable set by a write to CONFIG, with every other condition of the
background start standing, starts the reclamation of the best victim, whose marking is granted at the free port. -/
def Obligations.BackgroundStarts : Prop :=
  ∀ (v : Byte) (s : State) (n : Nat), writing true 0x00 s → quiet s → s.deviceReady = true → portEmpty s →
    s.ctl.quiesced = false → s.table.recs.length = 32 → v.getLsbD 0 = true → s.settings.background = false →
    s.reclaimer.state = .idle → s.reclaimer.request = .none → s.erasedCount < s.settings.reclaimLow →
    isBestVictim s n →
    ∃ t, exec (.configWrite v) s = .next t ∧
      t.settings = { s.settings with background := true, suspend := v.getLsbD 1 } ∧
      t.reclaimer = { s.reclaimer with state := .marking, victim := some n, cursor := 0, faults := 0, cause := .none } ∧
      t.ctl = { s.ctl with
        op := some { who := .reclaimer, op := .advanceHeader n .reclaiming, phase := .single, suspendCount := 0 }
        pass := 0 } ∧
      (∀ m, t.recAt m = if m = n then { s.recAt n with state := .reclaiming, role := .victim } else s.recAt m) ∧
      t.array = s.array ∧ t.index = s.index ∧ t.engine = s.engine ∧ t.cmds = s.cmds ∧ t.comps = s.comps ∧
      t.staging = s.staging ∧ t.irq = s.irq

/-- R213, R85: the bytes written to RECLAIM_LOW are collected; at the end of the frame the value they form over the
stored one is stored, not below 32 and not above 1024. -/
def Obligations.ReclaimLowStored : Prop :=
  ∀ (v : Byte) (s : State),
    (writing true 0x01 s →
      exec (.reclaimLowWrite v) s = .next ((s.setPort { s.port with lowByte := some v }).afterWrite true 0x02)) ∧
    (writing true 0x02 s →
      exec (.reclaimLowWrite v) s = .next ((s.setPort { s.port with highByte := some v }).afterWrite true 0x03)) ∧
    (∀ (rd bank : Bool) (a : RegAddr) (n : Nat), s.port.frame = .data rd bank a →
      s.port.lowByte ≠ none ∨ s.port.highByte ≠ none →
      n = ((s.port.highByte.map BitVec.toNat).getD (s.settings.reclaimLow / 256)) * 256 +
        (s.port.lowByte.map BitVec.toNat).getD (s.settings.reclaimLow % 256) →
      s.power.softHold = false → quiet s → portSettled s →
      s.settings.background = false ∨ s.reclaimer.state ≠ .idle →
      exec .frameEnd s =
        .next ((s.setSettings { s.settings with
            reclaimLow := if n < 32 then 32 else if 1024 < n then 1024 else n }).setPort
          { s.port with frame := .closed, lowByte := none, highByte := none, taken := [] }))

/-! ### Staging buffers and reads (R158 to R161, R212, R124, R82) -/

/-- R161: a byte written to BUF_FLAGS clears the access-conflict flag when its bit 0 is 1 and leaves it otherwise. -/
def Obligations.ConflictFlagCleared : Prop :=
  ∀ (v : Byte) (s : State), writing false 0x1F s →
    exec (.bufFlagsWrite v) s =
      .next ((s.setStaging { s.staging with
        conflict := if v.getLsbD 0 then false else s.staging.conflict }).afterWrite false 0x20)

/-- R158, R160: a byte written to BUF_DATA is stored at the offset of a HOST-owned buffer, or discarded with the
access-conflict flag raised; the offset advances and wraps, and the address stays. -/
def Obligations.BufferByteWritten : Prop :=
  ∀ (v : Byte) (s : State), writing false 0x1E s →
    ∃ o : BufOffset, o.toNat = (s.staging.offset.toNat + 1) % 1024 ∧
      (s.staging.select = .bufA → s.staging.ownerA = .host →
        exec (.bufDataWrite v) s =
          .next ((s.setStaging { s.staging with
            bytesA := s.staging.bytesA.set s.staging.offset.toNat v, offset := o }).afterWrite false 0x1E)) ∧
      (s.staging.select = .bufB → s.staging.ownerB = .host →
        exec (.bufDataWrite v) s =
          .next ((s.setStaging { s.staging with
            bytesB := s.staging.bytesB.set s.staging.offset.toNat v, offset := o }).afterWrite false 0x1E)) ∧
      ((s.staging.select = .bufA ∧ s.staging.ownerA = .engine) ∨ (s.staging.select = .bufB ∧ s.staging.ownerB = .engine) →
        exec (.bufDataWrite v) s =
          .next ((s.setStaging { s.staging with conflict := true, offset := o }).afterWrite false 0x1E))

/-- R159, R160, R210: a byte read from BUF_DATA is the byte at the offset of a HOST-owned buffer, or 00h with the
access-conflict flag raised; the offset advances and wraps, and the address stays. -/
def Obligations.BufferByteRead : Prop :=
  ∀ s : State, reading false 0x1E s → s.staging.wf →
    ∃ o : BufOffset, o.toNat = (s.staging.offset.toNat + 1) % 1024 ∧
      (∀ b, s.staging.select = .bufA → s.staging.ownerA = .host → s.staging.bytesA[s.staging.offset.toNat]? = some b →
        exec .bufDataRead s =
          .next ((s.setStaging { s.staging with offset := o }).setPort { s.port with out := b })) ∧
      (∀ b, s.staging.select = .bufB → s.staging.ownerB = .host → s.staging.bytesB[s.staging.offset.toNat]? = some b →
        exec .bufDataRead s =
          .next ((s.setStaging { s.staging with offset := o }).setPort { s.port with out := b })) ∧
      ((s.staging.select = .bufA ∧ s.staging.ownerA = .engine) ∨ (s.staging.select = .bufB ∧ s.staging.ownerB = .engine) →
        exec .bufDataRead s =
          .next ((s.setStaging { s.staging with conflict := true, offset := o }).setPort { s.port with out := 0x00 }))

/-- R212: a read of a register other than BUF_DATA changes no state but the port's, and a group once taken gives its
later bytes. That BUF_DATA_READ stands for every byte of a read frame is the model's choice: notes/assumptions/10.md. -/
def Obligations.ReadsTakeGroupsWhole : Prop :=
  ∀ (bank : Bool) (a : RegAddr) (s : State), reading bank a s → ¬(bank = false ∧ a = 0x1E) →
    ∃ p : Port, exec .bufDataRead s = .next (s.setPort p) ∧
      p.frame = .data true bank (if bank = true ∧ a = 0x24 ∨ bank = false ∧ (a = 0x0A ∨ a = 0x0C ∨ a = 0x1B) then a
        else a + 1) ∧
      ∀ first bytes, registerAt bank a s = some (first, bytes) → 1 < bytes.length →
        (∀ old, takenAt bank first s.port = some old → p.taken = s.port.taken ∧ p.out = old.getD (a.toNat - first) 0) ∧
        (takenAt bank first s.port = none → p.out = bytes.getD (a.toNat - first) 0 ∧
          p.taken = s.port.taken ++ [((bank, BitVec.ofNat 6 first), bytes)])

/-- R124, R194, R82, R112, R122, R192, R210, R220: every byte of the three views, read as the first byte of its frame:
the head of the Completion Queue, the oldest report and the record of the selected sector, each in its coded and its
little-endian fields, an absent field as 0; with the queue or the ring empty every byte of its view is 0. The read
changes neither. That the command BUF_DATA_READ stands for the read of every register is the model's choice:
notes/assumptions/10.md. -/
def Obligations.ViewsShowHeads : Prop :=
  ∀ (s : State) (k : Nat), s.port.taken = [] →
    (k < 12 → reading false (BitVec.ofNat 6 (0x0F + k)) s → ∃ t, exec .bufDataRead s = .next t ∧ t.comps = s.comps ∧
      (s.comps = [] → t.port.out = 0) ∧
      ∀ e rest kc sc, s.comps = e :: rest → (e.kind, kc) ∈ kindTable → (e.status, sc) ∈ statusTable →
        t.port.out = [e.tag, kc, sc, byteOf e.key 0, byteOf e.key 1, byteOf e.len 0, byteOf e.len 1,
          byteOf (e.seq.getD 0) 0, byteOf (e.seq.getD 0) 1, byteOf (e.seq.getD 0) 2, byteOf (e.seq.getD 0) 3,
          byteOf e.frags 0].getD k 0) ∧
    (k < 9 → reading true (BitVec.ofNat 6 (0x1B + k)) s → ∃ t, exec .bufDataRead s = .next t ∧ t.scanner = s.scanner ∧
      (s.scanner.ring = [] → t.port.out = 0) ∧
      ∀ r rest rc, s.scanner.ring = r :: rest → (r.kind, rc) ∈ reportTable →
        t.port.out = [rc, byteOf r.num 0, byteOf r.num 1, byteOf (r.key.getD 0) 0, byteOf (r.key.getD 0) 1,
          byteOf (r.seq.getD 0) 0, byteOf (r.seq.getD 0) 1, byteOf (r.seq.getD 0) 2, byteOf (r.seq.getD 0) 3].getD k 0) ∧
    (k < 9 → reading true (BitVec.ofNat 6 (0x26 + k)) s → ∃ t, exec .bufDataRead s = .next t ∧ t.table = s.table ∧
      ∀ r sc fc, r = s.recAt s.table.sel → (r.state, sc) ∈ recStateTable → ((r.pinned, r.role), fc) ∈ flagsTable →
        t.port.out = [sc, byteOf r.erases 0, byteOf r.erases 1, byteOf r.erases 2, byteOf r.blank 0, byteOf r.live 0,
          byteOf r.dead 0, byteOf r.faultyCount 0, fc].getD k 0)

/-! ### Submission and the commands (R112 to R116, R121, R133 to R150) -/

/-- R112: the checks of a submission in their order; the first that fails decides SUBMIT_RESULT and nothing else
changes; if every check passes the result is ACCEPTED. -/
def Obligations.SubmissionChecks : Prop :=
  ∀ (i : Instr) (v r : Byte) (s : State), submittedByte i = some v → writing false 0x0A s → s.running = true →
    r = (if s.power.isReady = false then 1
      else if v = 0 ∨ 7 < v.toNat then 2
      else if 4 ≤ s.cmds.queue.length then 3
      else if tagUsed s.cmds.tag s then 4
      else if (v.toNat ≤ 4 ∧ (s.cmds.key = 0 ∨ 4095 < s.cmds.key.toNat)) ∨ (v = 5 ∧ 4095 < s.cmds.key.toNat) then 5
      else if v = 1 ∧ 1024 < s.cmds.len.toNat then 6
      else if v.toNat ≤ 2 ∧ s.cmds.buf ≠ 0 ∧ s.cmds.buf ≠ 1 then 7
      else if v.toNat ≤ 2 ∧ ((s.cmds.buf = 0 ∧ s.staging.ownerA = .engine) ∨
        (s.cmds.buf = 1 ∧ s.staging.ownerB = .engine)) then 8
      else 0) →
    (r ≠ 0 → exec i s = .next ((s.setCmds { s.cmds with submitResult := r }).afterWrite false 0x0A)) ∧
    (r = 0 → ∃ t, exec i s = .next t ∧ t.cmds.submitResult = 0)

/-- R113, R156: an accepted command that the engine cannot take joins the tail of the Command Queue with the fields its
kind uses, and its buffer becomes the engine's. -/
def Obligations.AcceptedCommandQueued : Prop :=
  ∀ (i : Instr) (v : Byte) (k : Kind) (s : State), submittedByte i = some v → kindCode k = v → writing false 0x0A s →
    acceptable v s → s.engine.state ≠ .idle → portSettled s →
    exec i s =
      .next (((s.setCmds { s.cmds with submitResult := 0, queue := s.cmds.queue ++ [s.entryFor k] }).setStaging
        (s.lentStaging k)).afterWrite false 0x0A)

/-- R144, R51, R121: a PROBE that is taken ends in the same event with what the index holds of its key. -/
def Obligations.ProbeAnswers : Prop :=
  ∀ s : State, answersNow s → portSettled s → acceptable 4 s → ascendingKeys s.index →
    (∀ e ∈ s.index, e.key = s.cmds.key.toNat →
      exec .probe s = .next (s.answered { tag := s.cmds.tag, kind := .probe, status := .done, key := e.key, len := e.len,
                                          seq := some e.seq, frags := e.count })) ∧
    ((∀ e ∈ s.index, e.key ≠ s.cmds.key.toNat) →
      exec .probe s = .next (s.answered { tag := s.cmds.tag, kind := .probe, status := .notFound,
                                          key := s.cmds.key.toNat, len := 0, seq := none, frags := 0 }))

/-- R145, R53, R121: a NEXT that is taken ends in the same event with the lowest key above its own. -/
def Obligations.NextAnswers : Prop :=
  ∀ s : State, answersNow s → portSettled s → acceptable 5 s → ascendingKeys s.index →
    (∀ e ∈ s.index, s.cmds.key.toNat < e.key → (∀ x ∈ s.index, s.cmds.key.toNat < x.key → e.key ≤ x.key) →
      exec .next s = .next (s.answered { tag := s.cmds.tag, kind := .next, status := .done, key := e.key, len := e.len,
                                         seq := some e.seq, frags := e.count })) ∧
    ((∀ e ∈ s.index, e.key ≤ s.cmds.key.toNat) →
      exec .next s = .next (s.answered { tag := s.cmds.tag, kind := .next, status := .notFound,
                                         key := s.cmds.key.toNat, len := 0, seq := none, frags := 0 }))

/-- R139, R80, R23: a FETCH that is taken captures the entry of its key, pins its sectors and asks for the read of its
first cell: granted at a free port, granted in place of a Reclaimer's erase in its erase phase that it may suspend, and
waiting otherwise. An absent key ends it NOT_FOUND. -/
def Obligations.FetchTaken : Prop :=
  ∀ (s : State) (e : IndexEntry), writing false 0x0A s → engineFree s → acceptable 2 s → ascendingKeys s.index →
    (∀ (c : Controller) (t : State), e ∈ s.index → e.key = s.cmds.key.toNat →
      t = (((((s.setCmds { s.cmds with submitResult := 0 }).setStaging (s.lentStaging .fetch)).setTable
        (s.table.pinnedAt e.map)).setEngine
          { s.engine with
            state := .running, cmd := some (s.entryFor .fetch)
            work := .fetch { seq := e.seq, len := e.len, count := e.count, map := e.map, next := 0, readOnce := false,
                             delivered := 0 } }).setCtl c).afterWrite false 0x0A →
      (portEmpty s →
        c = { s.ctl with op := some { who := .engine, op := .read (e.map.headD 0), phase := .single, suspendCount := 0 } } →
        exec .fetch s = .next t) ∧
      (∀ n ep k sc, s.ctl.op = some { who := .reclaimer, op := .erase n ep k, phase := .erasePhase, suspendCount := sc } →
        s.ctl.paused = none → s.settings.suspend = true → sc < 8 →
        c = { s.ctl with
          op := some { who := .engine, op := .read (e.map.headD 0), phase := .single, suspendCount := 0 }
          paused := some { who := .reclaimer, op := .erase n ep k, phase := .erasePhase, suspendCount := sc + 1 } } →
        exec .fetch s = .next t) ∧
      (∀ o, s.ctl.op = some o → o.phase ≠ .erasePhase ∨ s.settings.suspend = false ∨ 8 ≤ o.suspendCount →
        c = { s.ctl with waitEngine := some (.read (e.map.headD 0)) } →
        exec .fetch s = .next t)) ∧
    ((∀ x ∈ s.index, x.key ≠ s.cmds.key.toNat) → answersNow s → portSettled s →
      exec .fetch s = .next (s.answered { tag := s.cmds.tag, kind := .fetch, status := .notFound,
                                          key := s.cmds.key.toNat, len := 0, seq := none, frags := 0 }))

/-- R143, R42, R56, R80: a DROP that is taken pins the sectors of its entry and asks for the retirement of the head. At
a port in use the request waits and the key stays; at its grant, here at a free port, the index removes the entry and
the engine takes its map. An absent key ends it NOT_FOUND. -/
def Obligations.DropTaken : Prop :=
  ∀ (s : State) (e : IndexEntry), writing false 0x0A s → engineFree s → acceptable 3 s → ascendingKeys s.index →
    (∀ o, e ∈ s.index → e.key = s.cmds.key.toNat → s.ctl.op = some o →
      exec .drop s =
        .next (((((s.setCmds { s.cmds with submitResult := 0 }).setTable (s.table.pinnedAt e.map)).setEngine
          { s.engine with
            state := .running, cmd := some (s.entryFor .drop)
            work := .drop { head := e.map.headD 0, removed := none, toRetire := [] } }).setCtl
          { s.ctl with waitEngine := some (.advanceCell (e.map.headD 0) .retired) }).afterWrite false 0x0A)) ∧
    (e ∈ s.index → e.key = s.cmds.key.toNat → portEmpty s → s.ctl.quiesced = false → s.reclaimer.reloc = none →
      s.settings.background = false →
      ∃ t, exec .drop s = .next t ∧
        t.ctl = { s.ctl with
          op := some { who := .engine, op := .advanceCell (e.map.headD 0) .retired, phase := .single, suspendCount := 0 } } ∧
        (∀ x, x ∈ t.index ↔ x ∈ s.index ∧ x.key ≠ s.cmds.key.toNat) ∧ ascendingKeys t.index ∧
        t.engine = { s.engine with
          state := .running, cmd := some (s.entryFor .drop)
          work := .drop { head := e.map.headD 0, removed := some e.map, toRetire := [] } } ∧
        t.array = s.array ∧ t.comps = s.comps ∧ t.staging = s.staging ∧ t.reclaimer = s.reclaimer) ∧
    ((∀ x ∈ s.index, x.key ≠ s.cmds.key.toNat) → answersNow s → portSettled s →
      exec .drop s = .next (s.answered { tag := s.cmds.tag, kind := .drop, status := .notFound,
                                         key := s.cmds.key.toNat, len := 0, seq := none, frags := 0 }))

/-- R133, R26, R36, R71, R75, R134, R29: a STORE that is taken with room in the open sector takes its sequence, is
assigned the next cells of the sector in fragment order, and asks for the program of its head, granted at the free
port, with the first bytes of its buffer. -/
def Obligations.StoreTaken : Prop :=
  ∀ (s : State) (m n : Nat), writing false 0x0A s → engineFree s → acceptable 1 s → s.engine.seqNext < 4294967296 →
    (∃ e ∈ s.index, e.key = s.cmds.key.toNat) ∨ s.index.length < 256 →
    n = (if s.cmds.len.toNat = 0 then 1 else (s.cmds.len.toNat + 63) / 64) →
    s.table.claims = [] → s.openSector = some m → n + 32 ≤ s.erasedCount → s.table.cursor + n ≤ 32 →
    s.settings.background = false → portEmpty s → s.ctl.quiesced = false →
    ∃ t, exec .store s = .next t ∧
      (∃ b : Bool, (b = true ↔ ∃ e ∈ s.index, e.key = s.cmds.key.toNat) ∧
        t.engine = { s.engine with
          state := .running, cmd := some (s.entryFor .store), seqNext := s.engine.seqNext + 1
          work := .store { phase := .programming, replaces := b, seq := s.engine.seqNext, count := n
                           map := (List.range n).map fun f => m * 32 + s.table.cursor + f
                           next := 0, fails := 0, oldMap := none, toRetire := [], ending := .done } }) ∧
      t.ctl = { s.ctl with
        op := some { who := .engine, phase := .single, suspendCount := 0
                     op := .program { cell := m * 32 + s.table.cursor, state := .written, key := s.cmds.key.toNat
                                      seq := s.engine.seqNext, frag := 0, count := n, recLen := some s.cmds.len.toNat
                                      payLen := min 64 s.cmds.len.toNat
                                      payload := (s.staging.bytes s.namedBuf).take (min 64 s.cmds.len.toNat)
                                      check := none } } } ∧
      t.table.cursor = s.table.cursor + n ∧ t.table.claims = [] ∧ t.index = s.index ∧ t.array = s.array ∧
      t.comps = s.comps ∧ t.staging = s.lentStaging .store ∧ t.cmds = { s.cmds with submitResult := 0 }

/-- R133, R75, R88, R135, R119: a STORE ends at once SEQ_EXHAUSTED with the counter EXHAUSTED, INDEX_FULL with a new key
and 256 entries, and NO_SPACE, with SPACE raised and its sequence spent, when fewer than 32 erased cells would remain
and no victim is eligible. -/
def Obligations.StoreRefused : Prop :=
  ∀ (s : State) (e : Completion), answersNow s → portSettled s → acceptable 1 s →
    e = { tag := s.cmds.tag, kind := .store, status := e.status, key := s.cmds.key.toNat, len := 0, seq := none,
          frags := 0 } →
    (s.engine.seqNext = 4294967296 → e.status = .seqExhausted → exec .store s = .next (s.answered e)) ∧
    (s.engine.seqNext < 4294967296 → (∀ x ∈ s.index, x.key ≠ s.cmds.key.toNat) → 256 ≤ s.index.length →
      e.status = .indexFull → exec .store s = .next (s.answered e)) ∧
    (s.engine.seqNext < 4294967296 → (∃ x ∈ s.index, x.key = s.cmds.key.toNat) ∨ s.index.length < 256 →
      s.table.claims = [] →
      s.erasedCount < (if s.cmds.len.toNat = 0 then 1 else (s.cmds.len.toNat + 63) / 64) + 32 →
      s.reclaimer.state = .idle → (∀ n, ¬ eligibleVictim s n) → e.status = .noSpace →
      exec .store s =
        .next (((s.setEngine { s.engine with seqNext := s.engine.seqNext + 1 }).setIrq
          { s.irq with space := true }).answered e))

/-- R146, R89: a RECLAIM that is taken ends NOTHING_TO_DO with no eligible victim; starts the reclamation of the best
victim, whose marking is granted at a free port; and waits behind a reclamation in progress. -/
def Obligations.ReclaimTaken : Prop :=
  ∀ s : State, writing false 0x0A s → engineFree s → acceptable 6 s →
    (answersNow s → portSettled s → s.reclaimer.state = .idle → (∀ n, ¬ eligibleVictim s n) →
      exec .reclaim s = .next (s.answered { tag := s.cmds.tag, kind := .reclaim, status := .nothingToDo, key := 0,
                                            len := 0, seq := none, frags := 0 })) ∧
    (∀ n, portEmpty s → s.ctl.quiesced = false → s.table.recs.length = 32 → s.reclaimer.state = .idle →
      isBestVictim s n →
      ∃ t, exec .reclaim s = .next t ∧
        t.engine = { s.engine with state := .running, cmd := some (s.entryFor .reclaim), work := .reclaim false } ∧
        t.reclaimer = { s.reclaimer with state := .marking, victim := some n, cursor := 0, faults := 0, cause := .none,
                                         request := .reclaimTaken } ∧
        t.ctl = { s.ctl with
          op := some { who := .reclaimer, op := .advanceHeader n .reclaiming, phase := .single, suspendCount := 0 }
          pass := 0 } ∧
        (∀ m, t.recAt m = if m = n then { s.recAt n with state := .reclaiming, role := .victim } else s.recAt m) ∧
        t.array = s.array ∧ t.index = s.index ∧ t.comps = s.comps) ∧
    (portSettled s → s.reclaimer.state ≠ .idle → s.reclaimer.state ≠ .halted →
      exec .reclaim s =
        .next ((((s.setCmds { s.cmds with submitResult := 0 }).setEngine
          { s.engine with state := .running, cmd := some (s.entryFor .reclaim), work := .reclaim false }).setReclaimer
          { s.reclaimer with request := .reclaimWaiting }).afterWrite false 0x0A))

/-- R148 to R150, R81, R62: a FORMAT that is taken ends EPOCH_EXHAUSTED at epoch 65535; below it, with the Reclaimer
IDLE, it clears the index and the allocator, sets the counter to 1, raises the epoch, marks every sector that is not
WORN ERASE_PENDING, and asks for the erase of the first of them that is not WORN, granted at a free port with its erase
mark. -/
def Obligations.FormatTaken : Prop :=
  ∀ s : State, writing false 0x0A s → engineFree s → acceptable 7 s →
    (answersNow s → portSettled s → s.engine.epoch = 65535 → s.settings.background = false →
      exec .format s =
        .next ((s.setReclaimer { s.reclaimer with barred := false }).answered
          { tag := s.cmds.tag, kind := .format, status := .epochExhausted, key := 0, len := 0, seq := none,
            frags := 0 })) ∧
    (∀ m, s.engine.epoch < 65535 → s.reclaimer.state = .idle → portEmpty s → s.ctl.quiesced = false →
      s.table.recs.length = 32 → m < 32 → (∀ k < m, (s.recAt k).state = .worn) → (s.recAt m).state ≠ .worn →
      (s.recAt m).erases < 100000 → (s.recAt m).faulty.length < 4 →
      ∃ t, exec .format s = .next t ∧
        t.engine = { s.engine with
          state := .running, cmd := some (s.entryFor .format), work := .format { erasing := true, next := m }
          seqNext := 1, epoch := s.engine.epoch + 1 } ∧
        t.index = [] ∧ t.table.cursor = 32 ∧ t.table.queue = [] ∧ t.table.claims = [] ∧
        (∀ k < 32, t.recAt k =
          { s.recAt k with
            state := if (s.recAt k).state = .worn then .worn else .erasePending
            role := if (s.recAt k).state = .worn then (s.recAt k).role else .none
            blank := 0, live := 0, dead := (s.recAt k).dead + (s.recAt k).live + (s.recAt k).blank }) ∧
        t.reclaimer = { s.reclaimer with barred := true } ∧
        t.ctl = { s.ctl with
          op := some { who := .engine, op := .erase m (s.engine.epoch + 1) ((s.recAt m).erases + 1),
                       phase := .erasePhase, suspendCount := 0 } } ∧
        t.array = s.array.putSector m .garbled ∧ t.comps = s.comps)

/-- R127, R128, R121: the checks of a cancel in their order; a refused one changes nothing but CANCEL_RESULT; an accepted
one removes the command from its place, returns its buffer and adds a CANCELLED entry. -/
def Obligations.CancelAnswers : Prop :=
  ∀ (tag r : Byte) (s : State), writing false 0x0C s →
    r = (if tagTaken tag s then 1 else if tag ∉ s.cmds.queue.map Command.tag then 2
      else if 8 ≤ s.comps.length then 3 else 0) →
    (r ≠ 0 → exec (.cancel tag) s = .next ((s.setCmds { s.cmds with cancelResult := r }).afterWrite false 0x0C)) ∧
    (r = 0 → ∃ t, exec (.cancel tag) s = .next t ∧ t.cmds.cancelResult = 0) ∧
    (∀ before after c, r = 0 → s.cmds.queue = before ++ c :: after → c.tag = tag →
      tag ∉ before.map Command.tag → tag ∉ after.map Command.tag →
      exec (.cancel tag) s =
        .next ((((s.setCmds { s.cmds with queue := before ++ after, cancelResult := 0 }).setComps
          (s.comps ++ [{ tag := tag, kind := c.kind, status := .cancelled, key := c.key.getD 0, len := 0, seq := none,
                         frags := 0 }])).setStaging
            { s.staging with
              ownerA := if c.buf = some .bufA then .host else s.staging.ownerA
              ownerB := if c.buf = some .bufB then .host else s.staging.ownerB }).afterWrite false 0x0C))

/-- R125: a pop of an empty Completion Queue changes nothing; a pop removes the head; in HOLDING it takes the held
completion in, returns its buffer and leaves the engine IDLE, here with no command queued. -/
def Obligations.PopAnswers : Prop :=
  ∀ (v : Byte) (s : State), writing false 0x1B s →
    (s.comps = [] → exec (.compPop v) s = .next (s.afterWrite false 0x1B)) ∧
    (∀ e rest, s.comps = e :: rest → s.engine.held = none →
      exec (.compPop v) s = .next ((s.setComps rest).afterWrite false 0x1B)) ∧
    (∀ e rest h, s.comps = e :: rest → s.engine.held = some h → s.cmds.queue = [] → portSettled s →
      exec (.compPop v) s =
        .next ((((s.setComps (rest ++ [h.entry])).setStaging
          { s.staging with
            ownerA := if h.buf = some .bufA then .host else s.staging.ownerA
            ownerB := if h.buf = some .bufB then .host else s.staging.ownerB }).setEngine
          { s.engine with state := .idle, held := none }).afterWrite false 0x1B))

/-- R194: a byte written to REPORT_POP, whatever its value, removes the oldest entry of the ring, and has no effect on an
empty ring. -/
def Obligations.ReportPopped : Prop :=
  ∀ (v : Byte) (s : State), writing true 0x24 s →
    (s.scanner.ring = [] → exec (.reportPop v) s = .next (s.afterWrite true 0x24)) ∧
    (∀ r rest, s.scanner.ring = r :: rest →
      exec (.reportPop v) s = .next ((s.setScanner { s.scanner with ring := rest }).afterWrite true 0x24))

/-! ### Ends of array operations (R9 to R16, R37 to R41, R54 to R57, R103, R140, R141, R173) -/

/-- R140, R141, R163: the end of a FETCH's fragment read. What it expects is written into the buffer at 64 times the
fragment, and the next fragment's read is granted, or the FETCH ends DONE; what it does not expect is read once more,
and at the second read the FETCH ends DATA_CHECK. -/
def Obligations.FragmentReadTaken : Prop :=
  ∀ (s : State) (c : Command) (w : FetchWork) (b : Buf) (cell n : Nat) (o : ReadOutcome) (t : State),
    aloneOnPort .engine (.read cell) .single s → s.engine.state = .running → s.engine.cmd = some c →
    s.engine.work = .fetch w → c.buf = some b → o = s.array.readCell cell → n = min 64 (w.len - 64 * w.next) →
    t = s.setStaging (s.staging.setBytes b (bytesAt (64 * w.next) (o.payload.take n) (s.staging.bytes b))) →
    (fetchMatches c w o → w.next + 1 < w.count →
      exec .fragmentReadComplete s =
        .next ((t.setEngine { s.engine with
          work := .fetch { w with next := w.next + 1, readOnce := false, delivered := w.delivered + n } }).setCtl
            (s.nowOnPort .engine (.read (w.map.getD (w.next + 1) 0))))) ∧
    (fetchMatches c w o → w.count ≤ w.next + 1 → endsQuietly s →
      exec .fragmentReadComplete s =
        .next ((t.ended c { tag := c.tag, kind := c.kind, status := .done, key := c.key.getD 0, len := w.len,
                            seq := some w.seq, frags := w.count }).setCtl { s.ctl with op := none })) ∧
    (¬ fetchMatches c w o → w.readOnce = false →
      exec .fragmentReadComplete s =
        .next ((s.setEngine { s.engine with work := .fetch { w with readOnce := true } }).setCtl
          (s.nowOnPort .engine (.read (w.map.getD w.next 0))))) ∧
    (¬ fetchMatches c w o → w.readOnce = true → endsQuietly s →
      exec .fragmentReadComplete s =
        .next ((s.ended c { tag := c.tag, kind := c.kind, status := .dataCheck, key := c.key.getD 0,
                            len := w.delivered, seq := some w.seq, frags := w.count }).setCtl { s.ctl with op := none }))

/-- R173 to R185: the end of a header read of the scan. Before the last, the record and the finding of the sector say what
the header holds, and the next sector's header read is granted. After the last, on an array of blank headers, the epoch
becomes 1, no cell is read, no report is made, the index is empty, the counter is 1, and step 7 restores the header of
S0 with epoch 1 and erase count 0. -/
def Obligations.HeaderReadsTaken : Prop :=
  ∀ s : State, quiet s → s.table.recs.length = 32 →
    (∀ (n : Nat) (f : HeaderFound) (r : SectorRec), aloneOnPort .scanner (.headerRead n) .single s → n + 1 < 32 →
      headerTaken (s.array.sectorAt n) (s.recAt n) f r →
      ∃ x, exec .headerReadComplete s =
          .next (((s.setTable { s.table with recs := x }).setScanner
            { s.scanner with step := .headers, pos := n + 1, headers := s.scanner.headers.set n f }).setCtl
              (s.nowOnPort .scanner (.headerRead (n + 1)))) ∧
        ∀ m, x.getD m resetRec = if m = n then r else s.recAt m) ∧
    (aloneOnPort .scanner (.headerRead 31) .single s → s.array.sectorAt 31 = .erased → s.scanner.found = [] →
      (∀ m < 31, (s.recAt m).state = .blankHeader ∧ s.scanner.headers.getD m .unread = .blank) →
      s.scanner.headers.length = 32 →
      ∃ x, exec .headerReadComplete s =
          .next (((((s.setTable { s.table with recs := x }).setIndex []).setEngine
            { s.engine with epoch := 1, seqNext := 1 }).setScanner
              { s.scanner with step := .sectors, pos := 0, headers := s.scanner.headers.set 31 .blank, retire := [],
                               chosen := [] }).setCtl
                { s.ctl with op := some { who := .scanner, op := .restoreHeader 0 1 0, phase := .headerPhase true,
                                          suspendCount := 0 } }) ∧
        ∀ m, x.getD m resetRec =
          if m = 31 then { s.recAt 31 with state := .blankHeader, epoch := 0, erases := 0 } else s.recAt m)

/-- R10, R27, R37, R39: the end of a STORE's program of a BLANK cell that verifies: the cell holds the header with its
two checks, the bytes and the state, every other cell stays, and the engine asks for the program of the next fragment
or, after the last, for the commit advance of the head. -/
def Obligations.FragmentProgrammed : Prop :=
  ∀ (s : State) (c : Command) (w : StoreWork) (p : Program) (b : Buf) (h : CellHeader) (n : Nat),
    aloneOnPort .engine (.program p) .single s → s.engine.state = .running → s.engine.cmd = some c →
    s.engine.work = .store w → w.phase = .programming → c.buf = some b → s.array.wf → p.cell < 1024 → p.check = none →
    cellCondition (s.array.cellAt p.cell) = .blank →
    h = { key := p.key, seq := p.seq, frag := p.frag, count := p.count, recLen := p.recLen, payLen := p.payLen,
          payCheck := check16 (p.payload.take p.payLen), check := 0 } →
    n = min 64 (c.len.getD 0 - 64 * (w.next + 1)) →
    ∃ a, (∀ k, a.cellAt k = if k = p.cell then
        { header := .fields { h with check := headerCheck h }, state := p.state,
          payload := padPayload (p.payload.take p.payLen) } else s.array.cellAt k) ∧
      a.sectors = s.array.sectors ∧
      (w.next + 1 < w.count →
        exec (.cellProgramComplete .verified) s =
          .next (((s.setArray a).setEngine { s.engine with work := .store { w with next := w.next + 1 } }).setCtl
            (s.nowOnPort .engine (.program
              { cell := w.map.getD (w.next + 1) 0, state := .written, key := c.key.getD 0, seq := w.seq,
                frag := w.next + 1, count := w.count, recLen := none, payLen := n
                payload := ((s.staging.bytes b).drop (64 * (w.next + 1))).take n, check := none })))) ∧
      (w.count ≤ w.next + 1 →
        exec (.cellProgramComplete .verified) s =
          .next (((s.setArray a).setEngine
            { s.engine with work := .store { w with phase := .committing, next := w.next + 1 } }).setCtl
              (s.nowOnPort .engine (.advanceCell (w.map.headD 0) .committed))))

/-- R11, R38, R67: the end of a program of a BLANK cell that fails, here the third failure of a STORE with nothing
programmed: the cell reads FAULTY or TORN as its mark held or not, every other cell stays, the Sector Table holds it
faulty, and the STORE ends ARRAY_FAULT with the index as it was. -/
def Obligations.FailedProgramFaultyOrTorn : Prop :=
  ∀ (s : State) (c : Command) (w : StoreWork) (p : Program) (mark : Bool), aloneOnPort .engine (.program p) .single s →
    s.engine.state = .running → s.engine.cmd = some c → s.engine.work = .store w → w.phase = .programming →
    w.next = 0 → w.fails = 2 → s.array.wf → p.cell < 1024 → cellCondition (s.array.cellAt p.cell) = .blank →
    endsQuietly s → s.settings.background = false → s.table.recs.length = 32 →
    (s.recAt (sectorOf p.cell)).dead ≠ 0 →
    ∃ t, exec (.cellProgramComplete (.failed mark)) s = .next t ∧
      (mark = true → (t.array.cellAt p.cell).state = .faulty) ∧
      (mark = false → cellCondition (t.array.cellAt p.cell) = .torn ∧ (t.array.cellAt p.cell).state ≠ .faulty) ∧
      (∀ k, k ≠ p.cell → t.array.cellAt k = s.array.cellAt k) ∧ t.array.sectors = s.array.sectors ∧
      p.cell ∈ (t.recAt (sectorOf p.cell)).faulty ∧
      (∀ x, x ∈ (t.recAt (sectorOf p.cell)).faulty ↔ x = p.cell ∨ x ∈ (s.recAt (sectorOf p.cell)).faulty) ∧
      t.index = s.index ∧ t.staging = s.staging.handedBack c.buf ∧
      t.comps = s.comps ++ [{ tag := c.tag, kind := c.kind, status := .arrayFault, key := c.key.getD 0, len := 0,
                              seq := none, frags := 0 }] ∧
      t.engine = { s.engine with state := .idle, cmd := none, work := .none, held := none } ∧
      t.ctl = { s.ctl with op := none } ∧ t.reclaimer = s.reclaimer

/-- R12, R39, R41, R54, R55: the commit event. The head reads COMMITTED and no other cell changes. The index holds the
new generation under its key and every other key as before. With no entry before, the STORE ends DONE in the same event;
with one, it takes the old map and the retirement of its first cell is granted. -/
def Obligations.CommitEvent : Prop :=
  ∀ (s : State) (c : Command) (w : StoreWork) (head : Nat) (e : IndexEntry),
    aloneOnPort .engine (.advanceCell head .committed) .single s → s.engine.state = .running →
    s.engine.cmd = some c → s.engine.work = .store w → w.phase = .committing → s.array.wf → head < 1024 →
    cellCondition (s.array.cellAt head) = .readable → (s.array.cellAt head).state = .written →
    ascendingKeys s.index → s.settings.background = false →
    e = { key := c.key.getD 0, seq := w.seq, len := c.len.getD 0, count := w.count, map := w.map } →
    ((∀ x ∈ s.index, x.key ≠ e.key) ∧ endsQuietly s) ∨ (∃ x ∈ s.index, x.key = e.key ∧ x.map ≠ []) →
    ∃ t, exec (.stateAdvanceComplete .verified) s = .next t ∧
      (∀ k, t.array.cellAt k =
        if k = head then { s.array.cellAt head with state := .committed } else s.array.cellAt k) ∧
      t.array.sectors = s.array.sectors ∧
      (∀ x, x ∈ t.index ↔ x = e ∨ (x ∈ s.index ∧ x.key ≠ e.key)) ∧ t.cmds = s.cmds ∧ t.reclaimer = s.reclaimer ∧
      ((∀ x ∈ s.index, x.key ≠ e.key) →
        t.comps = s.comps ++ [{ tag := c.tag, kind := c.kind, status := .done, key := e.key, len := e.len,
                                seq := some e.seq, frags := e.count }] ∧
        t.staging = s.staging.handedBack c.buf ∧ t.ctl = { s.ctl with op := none } ∧
        t.engine = { s.engine with state := .idle, cmd := none, work := .none, held := none }) ∧
      (∀ x ∈ s.index, x.key = e.key →
        t.comps = s.comps ∧ t.staging = s.staging ∧
        t.ctl = s.nowOnPort .engine (.advanceCell (x.map.headD 0) .retired) ∧
        t.engine = { s.engine with
          work := .store { w with phase := .retiring, oldMap := some x.map, toRetire := x.map } })

/-- R57, R96, R97: the end of a relocation copy's program that verifies. Where the index holds an entry of the copy's
key and sequence whose map names the source at the copy's fragment, that place of the map names the copy and nothing
else of the index changes; in every other case the index stays and the retirement of the copy is granted. -/
def Obligations.CopyProgrammed : Prop :=
  ∀ (s : State) (p : Program) (source : Nat) (o : ReadOutcome) (h : CellHeader) (refused : Bool),
    aloneOnPort .reclaimer (.program p) .single s → s.reclaimer.barred = false →
    s.reclaimer.reloc = some { source := source, reading := some o, copy := some p.cell, refused := refused } →
    o.header = some h → s.array.wf → p.cell < 1024 → cellCondition (s.array.cellAt p.cell) = .blank →
    ascendingKeys s.index → quiet s →
    (∀ e ∈ s.index, e.key = h.key → e.seq = h.seq → e.map[h.frag]? = some source →
      ∃ t, exec (.cellProgramComplete .verified) s = .next t ∧ t.array.cellAt p.cell = p.image ∧
        (∀ k, k ≠ p.cell → t.array.cellAt k = s.array.cellAt k) ∧
        (∀ x, x ∈ t.index ↔ x = { e with map := e.map.set h.frag p.cell } ∨ (x ∈ s.index ∧ x.key ≠ h.key)) ∧
        t.index.map IndexEntry.key = s.index.map IndexEntry.key ∧ t.comps = s.comps ∧ t.cmds = s.cmds ∧
        t.engine = s.engine ∧ t.staging = s.staging ∧
        ∀ x, t.reclaimer.reloc = some x → x.reading = none ∧ x.copy = none ∧ x.refused = false) ∧
    ((∀ e ∈ s.index, e.key = h.key → e.seq = h.seq → e.map[h.frag]? ≠ some source) →
      ∃ a, exec (.cellProgramComplete .verified) s =
          .next (((s.setArray a).setReclaimer
            { s.reclaimer with reloc := some { source := source, reading := some o, copy := some p.cell,
                                               refused := true } }).setCtl
              { s.nowOnPort .reclaimer (.advanceCell p.cell .retired) with pass := 0 }) ∧
        a.cellAt p.cell = p.image ∧ ∀ k, k ≠ p.cell → a.cellAt k = s.array.cellAt k)

/-- R15, R16, R17: the end of the erase phase. A blank verify that passes leaves every cell of the sector blank and its
header erased; one that fails leaves the header torn. No cell of another sector and no other header changes, and the
operation goes on in its header phase. -/
def Obligations.ErasePhaseEnds : Prop :=
  ∀ (s : State) (who : Requester) (n epoch erases k : Nat) (passed : Bool), s.array.wf → n < 32 →
    s.ctl.op = some { who := who, op := .erase n epoch erases, phase := .erasePhase, suspendCount := k } →
    ∃ a x, exec (.erasePhaseEnd passed) s =
        .next (((s.setFree x).setArray a).setCtl
          { s.ctl with op := some { who := who, op := .erase n epoch erases, phase := .headerPhase passed,
                                    suspendCount := k } }) ∧
      (passed = true → x = s.free ∧ a.sectorAt n = .erased ∧ ∀ c, sectorOf c = n → a.cellAt c = blankCell) ∧
      (passed = false → a.sectorAt n = .garbled) ∧
      (∀ c, sectorOf c ≠ n → a.cellAt c = s.array.cellAt c) ∧ ∀ m, m ≠ n → a.sectorAt m = s.array.sectorAt m

/-- R15, R16, R67, R79, R103, R106: the end of the Reclaimer's erase. DONE leaves a READY header with the epoch and the
erase count, the sector at the tail of the ready-sector queue with 32 blank cells, and the Reclaimer IDLE; FAILED leaves
the sector WORN with its faulty set and raises FAULT. No cell changes. R81, R185 to R193: the end of the scan's last
header restoration of a fresh part, that of S31: the report HEADER_RESTORED joins the ring, whose oldest entry is lost
and counted where it held 8; every sector is queued READY with 32 blank cells, there is no open sector, and the part is
READY with its flag raised and the findings discarded. -/
def Obligations.SectorErased : Prop :=
  ∀ s : State, s.array.wf → s.table.recs.length = 32 → quiet s →
    (∀ (n epoch erases : Nat) (passed : Bool) (r : EraseResult), n < 32 →
      aloneOnPort .reclaimer (.erase n epoch erases) (.headerPhase passed) s →
      s.reclaimer.barred = false → s.reclaimer.request = .none → s.settings.background = false →
      ∃ t, exec (.sectorEraseComplete r) s = .next t ∧ (∀ c, t.array.cellAt c = s.array.cellAt c) ∧
        (∀ m, m ≠ n → t.array.sectorAt m = s.array.sectorAt m ∧ t.recAt m = s.recAt m) ∧
        t.reclaimer = { state := .idle, victim := none, cursor := 0, faults := 0, cause := .none, reloc := none,
                        request := .none, barred := false } ∧
        t.ctl = { s.ctl with op := none } ∧ t.index = s.index ∧ t.comps = s.comps ∧ t.engine = s.engine ∧
        (passed = true → r = .verified →
          t.array.sectorAt n =
            .fields { state := .ready, epoch := epoch, erases := erases, check := sectorCheck epoch erases } ∧
          t.recAt n = { state := .ready, epoch := epoch, erases := erases, role := .readyQueued, blank := 32, live := 0,
                        dead := 0, faultyCount := 0, faulty := [], pinned := (s.recAt n).pinned } ∧
          t.table.queue = s.table.queue ++ [n] ∧ t.irq = s.irq) ∧
        (passed = false ∨ r ≠ .verified →
          t.recAt n = { state := .worn, epoch := epoch, erases := erases, role := .none, blank := 0, live := 0,
                        dead := 32 - (s.recAt n).faulty.length, faultyCount := (s.recAt n).faulty.length,
                        faulty := (s.recAt n).faulty, pinned := (s.recAt n).pinned } ∧
          t.table.queue = s.table.queue ∧ t.irq = { s.irq with fault := true })) ∧
    (aloneOnPort .scanner (.restoreHeader 31 1 0) (.headerPhase true) s → s.power.isReady = false →
      s.cmds.queue = [] → s.index = [] → s.scanner.found = [] → (s.recAt 31).pinned = false →
      (∀ m < 31, s.recAt m = { state := .ready, epoch := 1, erases := 0, role := .none, blank := 0, live := 0,
                               dead := 32, faultyCount := 0, faulty := [], pinned := false }) →
      ∃ t, exec (.sectorEraseComplete .verified) s = .next t ∧ (∀ c, t.array.cellAt c = s.array.cellAt c) ∧
        (∀ m, m ≠ 31 → t.array.sectorAt m = s.array.sectorAt m) ∧
        t.array.sectorAt 31 = .fields { state := .ready, epoch := 1, erases := 0, check := sectorCheck 1 0 } ∧
        (∀ m < 32, t.recAt m = { state := .ready, epoch := 1, erases := 0, role := .readyQueued, blank := 32, live := 0,
                                 dead := 0, faultyCount := 0, faulty := [], pinned := false }) ∧
        t.table.queue = List.range 32 ∧ t.table.cursor = 32 ∧ t.table.claims = [] ∧ t.openSector = none ∧
        t.power = { s.power with isReady := true } ∧ t.irq = { s.irq with ready := true } ∧
        (s.scanner.ring.length < 8 → t.scanner.lost = s.scanner.lost ∧ t.scanner.ring =
          s.scanner.ring ++ [{ kind := .headerRestored, num := 31, key := none, seq := none }]) ∧
        (8 ≤ s.scanner.ring.length → t.scanner.lost = min 255 (s.scanner.lost + 1) ∧ t.scanner.ring =
          s.scanner.ring.tail ++ [{ kind := .headerRestored, num := 31, key := none, seq := none }]) ∧
        t.scanner.step = .finished ∧ t.scanner.found = [] ∧ t.scanner.retire = [] ∧ t.scanner.chosen = [] ∧
        t.scanner.cause = s.scanner.cause ∧ t.ctl = { s.ctl with op := none } ∧ t.index = [] ∧ t.comps = s.comps ∧
        t.engine = s.engine ∧ t.reclaimer = s.reclaimer ∧ t.cmds = s.cmds ∧ t.staging = s.staging ∧ t.pfw = s.pfw ∧
        t.settings = s.settings ∧ t.port = s.port)
end

