-- ==== Sys2Proof/Laws/Array.lean ====
section
/-! SUPPORT. Laws/Array.lean: reading one cell after a write, and that every operation of the array keeps its canonical
form (CellArray.wf). -/

namespace Sys2Proof.Machine

/-! ### Reading after writing -/

theorem lookupCell_insertCell_same (n : Nat) (c : Cell) :
    ∀ l : List (Nat × Cell), l.Pairwise (fun p q => p.1 < q.1) → lookupCell n (insertCell n c l) = c
  | [], _ => by
    unfold insertCell
    split
    · simp [lookupCell, *]
    · simp [lookupCell]
  | (m, d) :: rest, h => by
    have hb : ∀ l : List (Nat × Cell), (∀ p ∈ l, n < p.1) → lookupCell n l = blankCell := by
      intro l hl
      induction l with
      | nil => rfl
      | cons p t ih =>
        have := hl p (by simp)
        rw [show p = (p.1, p.2) from rfl, lookupCell, if_neg (by omega)]
        exact ih fun q hq => hl q (by simp [hq])
    rw [List.pairwise_cons] at h
    unfold insertCell
    split
    · split
      · subst_vars
        apply hb
        intro p hp
        rcases List.mem_cons.mp hp with rfl | hp
        · assumption
        · exact lt_trans ‹n < m› (h.1 p hp)
      · simp [lookupCell]
    · split
      · subst_vars
        split
        · subst_vars
          exact hb rest h.1
        · simp [lookupCell]
      · rw [lookupCell, if_neg (by assumption)]
        exact lookupCell_insertCell_same n c rest h.2

theorem lookupCell_insertCell_other (n k : Nat) (c : Cell) (hk : k ≠ n) :
    ∀ l : List (Nat × Cell), l.Pairwise (fun p q => p.1 < q.1) → lookupCell k (insertCell n c l) = lookupCell k l
  | [], _ => by
    unfold insertCell
    split <;> simp [lookupCell, hk]
  | (m, d) :: rest, h => by
    rw [List.pairwise_cons] at h
    unfold insertCell
    split
    · split
      · rfl
      · rw [lookupCell, if_neg hk]
    · split
      · split
        · rw [lookupCell, if_neg (by omega)]
        · rw [lookupCell, lookupCell, if_neg hk, if_neg (by omega)]
      · rw [lookupCell, lookupCell, lookupCell_insertCell_other n k c hk rest h.2]

/-- A cell just written reads as written. -/
theorem CellArray.cellAt_putCell_same (a : CellArray) (n : Nat) (c : Cell) (h : a.wf) (hn : n < Config.cells) :
    (a.putCell n c).cellAt n = c := by
  rw [CellArray.putCell, if_pos hn]
  exact lookupCell_insertCell_same n c a.cells h.1

/-- Every other cell reads as before. -/
theorem CellArray.cellAt_putCell_other (a : CellArray) (n k : Nat) (c : Cell) (h : a.wf) (hk : k ≠ n) :
    (a.putCell n c).cellAt k = a.cellAt k := by
  rw [CellArray.putCell]
  split
  · exact lookupCell_insertCell_other n k c hk a.cells h.1
  · rfl

@[simp] theorem CellArray.sectorAt_putCell (a : CellArray) (n m : Nat) (c : Cell) :
    (a.putCell n c).sectorAt m = a.sectorAt m := by
  rw [CellArray.putCell]
  split <;> rfl

@[simp] theorem CellArray.cellAt_putSector (a : CellArray) (n m : Nat) (h : SectorArea) :
    (a.putSector n h).cellAt m = a.cellAt m := rfl

/-- A sector header just written reads as written. -/
theorem CellArray.sectorAt_putSector_same (a : CellArray) (n : Nat) (h : SectorArea) (hn : n < a.sectors.length) :
    (a.putSector n h).sectorAt n = h := by
  simp [CellArray.putSector, CellArray.sectorAt, hn]

/-- Every other sector header reads as before. -/
theorem CellArray.sectorAt_putSector_other (a : CellArray) (n k : Nat) (h : SectorArea) (hk : k ≠ n) :
    (a.putSector n h).sectorAt k = a.sectorAt k := by
  simp [CellArray.putSector, CellArray.sectorAt, hk.symm]

/-! ### The canonical form -/

theorem mem_insertCell (n : Nat) (c : Cell) :
    ∀ (l : List (Nat × Cell)) (p : Nat × Cell), p ∈ insertCell n c l → p ∈ l ∨ (p = (n, c) ∧ c ≠ blankCell)
  | [], p, h => by
    unfold insertCell at h
    split at h <;> simp_all
  | (m, d) :: rest, p, h => by
    unfold insertCell at h
    split at h
    · split at h
      · exact .inl h
      · rcases List.mem_cons.mp h with rfl | h
        · exact .inr ⟨rfl, by assumption⟩
        · exact .inl h
    · split at h
      · split at h
        · exact .inl (by simp [h])
        · rcases List.mem_cons.mp h with rfl | h
          · exact .inr ⟨rfl, by assumption⟩
          · exact .inl (by simp [h])
      · rcases List.mem_cons.mp h with rfl | h
        · exact .inl (by simp)
        · rcases mem_insertCell n c rest p h with h | h
          · exact .inl (by simp [h])
          · exact .inr h

theorem insertCell_sorted (n : Nat) (c : Cell) :
    ∀ l : List (Nat × Cell), l.Pairwise (fun p q => p.1 < q.1) →
      (insertCell n c l).Pairwise (fun p q => p.1 < q.1)
  | [], _ => by
    unfold insertCell
    split <;> simp
  | (m, d) :: rest, h => by
    have h' := List.pairwise_cons.mp h
    unfold insertCell
    split
    · split
      · exact h
      · refine List.pairwise_cons.mpr ⟨fun p hp => ?_, h⟩
        rcases List.mem_cons.mp hp with rfl | hp
        · assumption
        · exact lt_trans ‹n < m› (h'.1 p hp)
    · split
      · subst_vars
        split
        · exact h'.2
        · exact List.pairwise_cons.mpr ⟨h'.1, h'.2⟩
      · refine List.pairwise_cons.mpr ⟨fun p hp => ?_, insertCell_sorted n c rest h'.2⟩
        rcases mem_insertCell n c rest p hp with hp | ⟨rfl, -⟩
        · exact h'.1 p hp
        · show m < n
          omega

theorem CellArray.putCell_wf (a : CellArray) (n : Nat) (c : Cell) (h : a.wf)
    (hc : c.payload.length = Config.payloadBytes) : (a.putCell n c).wf := by
  rw [CellArray.putCell]
  split
  · refine ⟨insertCell_sorted n c _ h.1, fun p hp => ?_, h.2.2⟩
    rcases mem_insertCell n c a.cells p hp with hp | ⟨rfl, hb⟩
    · exact h.2.1 p hp
    · exact ⟨by assumption, hb, hc⟩
  · exact h

theorem CellArray.putSector_wf (a : CellArray) (n : Nat) (x : SectorArea) (h : a.wf) : (a.putSector n x).wf :=
  ⟨h.1, h.2.1, by simpa [CellArray.putSector] using h.2.2⟩

theorem lookupCell_payload (n : Nat) :
    ∀ l : List (Nat × Cell), (∀ p ∈ l, cellOk p) → (lookupCell n l).payload.length = Config.payloadBytes
  | [], _ => rfl
  | (m, d) :: rest, h => by
    rw [lookupCell]
    split
    · exact (h (m, d) (by simp)).2.2
    · exact lookupCell_payload n rest fun p hp => h p (by simp [hp])

/-- Every cell of a sound array has 64 payload bytes. -/
theorem CellArray.cellAt_payload (a : CellArray) (n : Nat) (h : a.wf) :
    (a.cellAt n).payload.length = Config.payloadBytes := lookupCell_payload n a.cells h.2.1

@[simp] theorem padPayload_length (l : List Byte) : (padPayload l).length = Config.payloadBytes := by
  simp only [padPayload, List.length_append, List.length_take, List.length_replicate]
  simp only [Config.payloadBytes]
  omega

theorem CellArray.endProgram_wf (a : CellArray) (p : Program) (r : ProgramResult) (x : Cell) (h : a.wf) :
    (a.endProgram p r x).1.wf := by
  simp only [CellArray.endProgram]
  have hp := a.cellAt_payload p.cell h
  split
  · split
    · exact a.putCell_wf _ _ h (by simp [Program.image])
    · refine a.putCell_wf _ _ h ?_
      unfold failedProgramCell
      split <;> simp
  · split
    · exact a.putCell_wf _ _ h hp
    · refine a.putCell_wf _ _ h ?_
      split <;> exact hp

theorem CellArray.cutProgram_wf (a : CellArray) (p : Program) (x : Cell) (h : a.wf) : (a.cutProgram p x).wf := by
  unfold CellArray.cutProgram
  split
  · exact a.putCell_wf _ _ h (by simp)
  · exact h

theorem CellArray.endCellAdvance_wf (a : CellArray) (n : Nat) (t : CellState) (r : AdvanceResult) (h : a.wf) :
    (a.endCellAdvance n t r).1.wf := by
  simp only [CellArray.endCellAdvance]
  have hp := a.cellAt_payload n h
  split
  · split
    · exact a.putCell_wf _ _ h hp
    · split <;> exact a.putCell_wf _ _ h hp
  · exact h

theorem CellArray.endHeaderAdvance_wf (a : CellArray) (n : Nat) (t : SectorState) (r : AdvanceResult) (h : a.wf) :
    (a.endHeaderAdvance n t r).1.wf := by
  simp only [CellArray.endHeaderAdvance]
  split
  · exact h
  · split
    · split <;> exact a.putSector_wf _ _ h
    · exact h

theorem CellArray.eraseMark_wf (a : CellArray) (n : Nat) (h : a.wf) : (a.eraseMark n).wf := a.putSector_wf _ _ h

theorem CellArray.blankSector_wf (a : CellArray) (n : Nat) (h : a.wf) : (a.blankSector n).wf :=
  ⟨h.1.filter _, fun p hp => h.2.1 p (List.mem_of_mem_filter hp), h.2.2⟩

theorem CellArray.disturbSector_wf (a : CellArray) (n use : Nat) (h : a.wf) : (a.disturbSector n use).wf := by
  unfold CellArray.disturbSector
  generalize cellsOf n = l
  induction l generalizing a with
  | nil => exact h
  | cons c t ih => exact ih _ (a.putCell_wf _ _ h (by simp))

theorem CellArray.endErasePhase_wf (a : CellArray) (n : Nat) (b : Bool) (use : Nat) (h : a.wf) :
    (a.endErasePhase n b use).wf := by
  unfold CellArray.endErasePhase
  split
  · exact (a.blankSector n).putSector_wf _ _ (a.blankSector_wf n h)
  · exact (a.disturbSector n use).putSector_wf _ _ (a.disturbSector_wf n use h)

theorem CellArray.endHeaderPhase_wf (a : CellArray) (n epoch erases : Nat) (b : Bool) (r : EraseResult) (h : a.wf) :
    (a.endHeaderPhase n epoch erases b r).1.wf := a.putSector_wf _ _ h

theorem CellArray.cut_wf (a : CellArray) (o : Operation) (use : Nat) (h : a.wf) : (a.cut o use).wf := by
  unfold CellArray.cut
  split
  · exact a.cutProgram_wf _ _ h
  · exact a.putSector_wf _ _ h
  · split <;> exact a.putSector_wf _ _ h
  · split <;> exact a.putSector_wf _ _ h
  · exact (a.disturbSector _ use).putSector_wf _ _ (a.disturbSector_wf _ use h)
  all_goals exact h

theorem freshArray_wf : freshArray.wf := by
  refine ⟨by simp [freshArray], by simp [freshArray], by simp [freshArray]⟩

end Sys2Proof.Machine
end

