-- ==== Sys2Proof/Laws/State.lean ====
section
/-! SUPPORT. Laws/State.lean: one lemma a field for each named update of State, so that no proof unfolds a record
update; and the same for the small updates of Machine/Ops.lean. -/

namespace Sys2Proof.Machine

variable (s : State)

@[simp] theorem State.setPending_pending (x : List Instr) : (s.setPending x).pending = x := rfl
@[simp] theorem State.setPending_power (x : List Instr) : (s.setPending x).power = s.power := rfl
@[simp] theorem State.setPending_array (x : List Instr) : (s.setPending x).array = s.array := rfl
@[simp] theorem State.setPending_ctl (x : List Instr) : (s.setPending x).ctl = s.ctl := rfl
@[simp] theorem State.setPending_table (x : List Instr) : (s.setPending x).table = s.table := rfl
@[simp] theorem State.setPending_index (x : List Instr) : (s.setPending x).index = s.index := rfl
@[simp] theorem State.setPending_engine (x : List Instr) : (s.setPending x).engine = s.engine := rfl
@[simp] theorem State.setPending_reclaimer (x : List Instr) : (s.setPending x).reclaimer = s.reclaimer := rfl
@[simp] theorem State.setPending_cmds (x : List Instr) : (s.setPending x).cmds = s.cmds := rfl
@[simp] theorem State.setPending_comps (x : List Instr) : (s.setPending x).comps = s.comps := rfl
@[simp] theorem State.setPending_staging (x : List Instr) : (s.setPending x).staging = s.staging := rfl
@[simp] theorem State.setPending_scanner (x : List Instr) : (s.setPending x).scanner = s.scanner := rfl
@[simp] theorem State.setPending_pfw (x : List Instr) : (s.setPending x).pfw = s.pfw := rfl
@[simp] theorem State.setPending_port (x : List Instr) : (s.setPending x).port = s.port := rfl
@[simp] theorem State.setPending_irq (x : List Instr) : (s.setPending x).irq = s.irq := rfl
@[simp] theorem State.setPending_settings (x : List Instr) : (s.setPending x).settings = s.settings := rfl
@[simp] theorem State.setPending_free (x : List Instr) : (s.setPending x).free = s.free := rfl

@[simp] theorem State.setPower_pending (x : Power) : (s.setPower x).pending = s.pending := rfl
@[simp] theorem State.setPower_power (x : Power) : (s.setPower x).power = x := rfl
@[simp] theorem State.setPower_array (x : Power) : (s.setPower x).array = s.array := rfl
@[simp] theorem State.setPower_ctl (x : Power) : (s.setPower x).ctl = s.ctl := rfl
@[simp] theorem State.setPower_table (x : Power) : (s.setPower x).table = s.table := rfl
@[simp] theorem State.setPower_index (x : Power) : (s.setPower x).index = s.index := rfl
@[simp] theorem State.setPower_engine (x : Power) : (s.setPower x).engine = s.engine := rfl
@[simp] theorem State.setPower_reclaimer (x : Power) : (s.setPower x).reclaimer = s.reclaimer := rfl
@[simp] theorem State.setPower_cmds (x : Power) : (s.setPower x).cmds = s.cmds := rfl
@[simp] theorem State.setPower_comps (x : Power) : (s.setPower x).comps = s.comps := rfl
@[simp] theorem State.setPower_staging (x : Power) : (s.setPower x).staging = s.staging := rfl
@[simp] theorem State.setPower_scanner (x : Power) : (s.setPower x).scanner = s.scanner := rfl
@[simp] theorem State.setPower_pfw (x : Power) : (s.setPower x).pfw = s.pfw := rfl
@[simp] theorem State.setPower_port (x : Power) : (s.setPower x).port = s.port := rfl
@[simp] theorem State.setPower_irq (x : Power) : (s.setPower x).irq = s.irq := rfl
@[simp] theorem State.setPower_settings (x : Power) : (s.setPower x).settings = s.settings := rfl
@[simp] theorem State.setPower_free (x : Power) : (s.setPower x).free = s.free := rfl

@[simp] theorem State.setArray_pending (x : CellArray) : (s.setArray x).pending = s.pending := rfl
@[simp] theorem State.setArray_power (x : CellArray) : (s.setArray x).power = s.power := rfl
@[simp] theorem State.setArray_array (x : CellArray) : (s.setArray x).array = x := rfl
@[simp] theorem State.setArray_ctl (x : CellArray) : (s.setArray x).ctl = s.ctl := rfl
@[simp] theorem State.setArray_table (x : CellArray) : (s.setArray x).table = s.table := rfl
@[simp] theorem State.setArray_index (x : CellArray) : (s.setArray x).index = s.index := rfl
@[simp] theorem State.setArray_engine (x : CellArray) : (s.setArray x).engine = s.engine := rfl
@[simp] theorem State.setArray_reclaimer (x : CellArray) : (s.setArray x).reclaimer = s.reclaimer := rfl
@[simp] theorem State.setArray_cmds (x : CellArray) : (s.setArray x).cmds = s.cmds := rfl
@[simp] theorem State.setArray_comps (x : CellArray) : (s.setArray x).comps = s.comps := rfl
@[simp] theorem State.setArray_staging (x : CellArray) : (s.setArray x).staging = s.staging := rfl
@[simp] theorem State.setArray_scanner (x : CellArray) : (s.setArray x).scanner = s.scanner := rfl
@[simp] theorem State.setArray_pfw (x : CellArray) : (s.setArray x).pfw = s.pfw := rfl
@[simp] theorem State.setArray_port (x : CellArray) : (s.setArray x).port = s.port := rfl
@[simp] theorem State.setArray_irq (x : CellArray) : (s.setArray x).irq = s.irq := rfl
@[simp] theorem State.setArray_settings (x : CellArray) : (s.setArray x).settings = s.settings := rfl
@[simp] theorem State.setArray_free (x : CellArray) : (s.setArray x).free = s.free := rfl

@[simp] theorem State.setCtl_pending (x : Controller) : (s.setCtl x).pending = s.pending := rfl
@[simp] theorem State.setCtl_power (x : Controller) : (s.setCtl x).power = s.power := rfl
@[simp] theorem State.setCtl_array (x : Controller) : (s.setCtl x).array = s.array := rfl
@[simp] theorem State.setCtl_ctl (x : Controller) : (s.setCtl x).ctl = x := rfl
@[simp] theorem State.setCtl_table (x : Controller) : (s.setCtl x).table = s.table := rfl
@[simp] theorem State.setCtl_index (x : Controller) : (s.setCtl x).index = s.index := rfl
@[simp] theorem State.setCtl_engine (x : Controller) : (s.setCtl x).engine = s.engine := rfl
@[simp] theorem State.setCtl_reclaimer (x : Controller) : (s.setCtl x).reclaimer = s.reclaimer := rfl
@[simp] theorem State.setCtl_cmds (x : Controller) : (s.setCtl x).cmds = s.cmds := rfl
@[simp] theorem State.setCtl_comps (x : Controller) : (s.setCtl x).comps = s.comps := rfl
@[simp] theorem State.setCtl_staging (x : Controller) : (s.setCtl x).staging = s.staging := rfl
@[simp] theorem State.setCtl_scanner (x : Controller) : (s.setCtl x).scanner = s.scanner := rfl
@[simp] theorem State.setCtl_pfw (x : Controller) : (s.setCtl x).pfw = s.pfw := rfl
@[simp] theorem State.setCtl_port (x : Controller) : (s.setCtl x).port = s.port := rfl
@[simp] theorem State.setCtl_irq (x : Controller) : (s.setCtl x).irq = s.irq := rfl
@[simp] theorem State.setCtl_settings (x : Controller) : (s.setCtl x).settings = s.settings := rfl
@[simp] theorem State.setCtl_free (x : Controller) : (s.setCtl x).free = s.free := rfl

@[simp] theorem State.setTable_pending (x : SectorTable) : (s.setTable x).pending = s.pending := rfl
@[simp] theorem State.setTable_power (x : SectorTable) : (s.setTable x).power = s.power := rfl
@[simp] theorem State.setTable_array (x : SectorTable) : (s.setTable x).array = s.array := rfl
@[simp] theorem State.setTable_ctl (x : SectorTable) : (s.setTable x).ctl = s.ctl := rfl
@[simp] theorem State.setTable_table (x : SectorTable) : (s.setTable x).table = x := rfl
@[simp] theorem State.setTable_index (x : SectorTable) : (s.setTable x).index = s.index := rfl
@[simp] theorem State.setTable_engine (x : SectorTable) : (s.setTable x).engine = s.engine := rfl
@[simp] theorem State.setTable_reclaimer (x : SectorTable) : (s.setTable x).reclaimer = s.reclaimer := rfl
@[simp] theorem State.setTable_cmds (x : SectorTable) : (s.setTable x).cmds = s.cmds := rfl
@[simp] theorem State.setTable_comps (x : SectorTable) : (s.setTable x).comps = s.comps := rfl
@[simp] theorem State.setTable_staging (x : SectorTable) : (s.setTable x).staging = s.staging := rfl
@[simp] theorem State.setTable_scanner (x : SectorTable) : (s.setTable x).scanner = s.scanner := rfl
@[simp] theorem State.setTable_pfw (x : SectorTable) : (s.setTable x).pfw = s.pfw := rfl
@[simp] theorem State.setTable_port (x : SectorTable) : (s.setTable x).port = s.port := rfl
@[simp] theorem State.setTable_irq (x : SectorTable) : (s.setTable x).irq = s.irq := rfl
@[simp] theorem State.setTable_settings (x : SectorTable) : (s.setTable x).settings = s.settings := rfl
@[simp] theorem State.setTable_free (x : SectorTable) : (s.setTable x).free = s.free := rfl

@[simp] theorem State.setIndex_pending (x : List IndexEntry) : (s.setIndex x).pending = s.pending := rfl
@[simp] theorem State.setIndex_power (x : List IndexEntry) : (s.setIndex x).power = s.power := rfl
@[simp] theorem State.setIndex_array (x : List IndexEntry) : (s.setIndex x).array = s.array := rfl
@[simp] theorem State.setIndex_ctl (x : List IndexEntry) : (s.setIndex x).ctl = s.ctl := rfl
@[simp] theorem State.setIndex_table (x : List IndexEntry) : (s.setIndex x).table = s.table := rfl
@[simp] theorem State.setIndex_index (x : List IndexEntry) : (s.setIndex x).index = x := rfl
@[simp] theorem State.setIndex_engine (x : List IndexEntry) : (s.setIndex x).engine = s.engine := rfl
@[simp] theorem State.setIndex_reclaimer (x : List IndexEntry) : (s.setIndex x).reclaimer = s.reclaimer := rfl
@[simp] theorem State.setIndex_cmds (x : List IndexEntry) : (s.setIndex x).cmds = s.cmds := rfl
@[simp] theorem State.setIndex_comps (x : List IndexEntry) : (s.setIndex x).comps = s.comps := rfl
@[simp] theorem State.setIndex_staging (x : List IndexEntry) : (s.setIndex x).staging = s.staging := rfl
@[simp] theorem State.setIndex_scanner (x : List IndexEntry) : (s.setIndex x).scanner = s.scanner := rfl
@[simp] theorem State.setIndex_pfw (x : List IndexEntry) : (s.setIndex x).pfw = s.pfw := rfl
@[simp] theorem State.setIndex_port (x : List IndexEntry) : (s.setIndex x).port = s.port := rfl
@[simp] theorem State.setIndex_irq (x : List IndexEntry) : (s.setIndex x).irq = s.irq := rfl
@[simp] theorem State.setIndex_settings (x : List IndexEntry) : (s.setIndex x).settings = s.settings := rfl
@[simp] theorem State.setIndex_free (x : List IndexEntry) : (s.setIndex x).free = s.free := rfl

@[simp] theorem State.setEngine_pending (x : Engine) : (s.setEngine x).pending = s.pending := rfl
@[simp] theorem State.setEngine_power (x : Engine) : (s.setEngine x).power = s.power := rfl
@[simp] theorem State.setEngine_array (x : Engine) : (s.setEngine x).array = s.array := rfl
@[simp] theorem State.setEngine_ctl (x : Engine) : (s.setEngine x).ctl = s.ctl := rfl
@[simp] theorem State.setEngine_table (x : Engine) : (s.setEngine x).table = s.table := rfl
@[simp] theorem State.setEngine_index (x : Engine) : (s.setEngine x).index = s.index := rfl
@[simp] theorem State.setEngine_engine (x : Engine) : (s.setEngine x).engine = x := rfl
@[simp] theorem State.setEngine_reclaimer (x : Engine) : (s.setEngine x).reclaimer = s.reclaimer := rfl
@[simp] theorem State.setEngine_cmds (x : Engine) : (s.setEngine x).cmds = s.cmds := rfl
@[simp] theorem State.setEngine_comps (x : Engine) : (s.setEngine x).comps = s.comps := rfl
@[simp] theorem State.setEngine_staging (x : Engine) : (s.setEngine x).staging = s.staging := rfl
@[simp] theorem State.setEngine_scanner (x : Engine) : (s.setEngine x).scanner = s.scanner := rfl
@[simp] theorem State.setEngine_pfw (x : Engine) : (s.setEngine x).pfw = s.pfw := rfl
@[simp] theorem State.setEngine_port (x : Engine) : (s.setEngine x).port = s.port := rfl
@[simp] theorem State.setEngine_irq (x : Engine) : (s.setEngine x).irq = s.irq := rfl
@[simp] theorem State.setEngine_settings (x : Engine) : (s.setEngine x).settings = s.settings := rfl
@[simp] theorem State.setEngine_free (x : Engine) : (s.setEngine x).free = s.free := rfl

@[simp] theorem State.setReclaimer_pending (x : Reclaimer) : (s.setReclaimer x).pending = s.pending := rfl
@[simp] theorem State.setReclaimer_power (x : Reclaimer) : (s.setReclaimer x).power = s.power := rfl
@[simp] theorem State.setReclaimer_array (x : Reclaimer) : (s.setReclaimer x).array = s.array := rfl
@[simp] theorem State.setReclaimer_ctl (x : Reclaimer) : (s.setReclaimer x).ctl = s.ctl := rfl
@[simp] theorem State.setReclaimer_table (x : Reclaimer) : (s.setReclaimer x).table = s.table := rfl
@[simp] theorem State.setReclaimer_index (x : Reclaimer) : (s.setReclaimer x).index = s.index := rfl
@[simp] theorem State.setReclaimer_engine (x : Reclaimer) : (s.setReclaimer x).engine = s.engine := rfl
@[simp] theorem State.setReclaimer_reclaimer (x : Reclaimer) : (s.setReclaimer x).reclaimer = x := rfl
@[simp] theorem State.setReclaimer_cmds (x : Reclaimer) : (s.setReclaimer x).cmds = s.cmds := rfl
@[simp] theorem State.setReclaimer_comps (x : Reclaimer) : (s.setReclaimer x).comps = s.comps := rfl
@[simp] theorem State.setReclaimer_staging (x : Reclaimer) : (s.setReclaimer x).staging = s.staging := rfl
@[simp] theorem State.setReclaimer_scanner (x : Reclaimer) : (s.setReclaimer x).scanner = s.scanner := rfl
@[simp] theorem State.setReclaimer_pfw (x : Reclaimer) : (s.setReclaimer x).pfw = s.pfw := rfl
@[simp] theorem State.setReclaimer_port (x : Reclaimer) : (s.setReclaimer x).port = s.port := rfl
@[simp] theorem State.setReclaimer_irq (x : Reclaimer) : (s.setReclaimer x).irq = s.irq := rfl
@[simp] theorem State.setReclaimer_settings (x : Reclaimer) : (s.setReclaimer x).settings = s.settings := rfl
@[simp] theorem State.setReclaimer_free (x : Reclaimer) : (s.setReclaimer x).free = s.free := rfl

@[simp] theorem State.setCmds_pending (x : CommandQueue) : (s.setCmds x).pending = s.pending := rfl
@[simp] theorem State.setCmds_power (x : CommandQueue) : (s.setCmds x).power = s.power := rfl
@[simp] theorem State.setCmds_array (x : CommandQueue) : (s.setCmds x).array = s.array := rfl
@[simp] theorem State.setCmds_ctl (x : CommandQueue) : (s.setCmds x).ctl = s.ctl := rfl
@[simp] theorem State.setCmds_table (x : CommandQueue) : (s.setCmds x).table = s.table := rfl
@[simp] theorem State.setCmds_index (x : CommandQueue) : (s.setCmds x).index = s.index := rfl
@[simp] theorem State.setCmds_engine (x : CommandQueue) : (s.setCmds x).engine = s.engine := rfl
@[simp] theorem State.setCmds_reclaimer (x : CommandQueue) : (s.setCmds x).reclaimer = s.reclaimer := rfl
@[simp] theorem State.setCmds_cmds (x : CommandQueue) : (s.setCmds x).cmds = x := rfl
@[simp] theorem State.setCmds_comps (x : CommandQueue) : (s.setCmds x).comps = s.comps := rfl
@[simp] theorem State.setCmds_staging (x : CommandQueue) : (s.setCmds x).staging = s.staging := rfl
@[simp] theorem State.setCmds_scanner (x : CommandQueue) : (s.setCmds x).scanner = s.scanner := rfl
@[simp] theorem State.setCmds_pfw (x : CommandQueue) : (s.setCmds x).pfw = s.pfw := rfl
@[simp] theorem State.setCmds_port (x : CommandQueue) : (s.setCmds x).port = s.port := rfl
@[simp] theorem State.setCmds_irq (x : CommandQueue) : (s.setCmds x).irq = s.irq := rfl
@[simp] theorem State.setCmds_settings (x : CommandQueue) : (s.setCmds x).settings = s.settings := rfl
@[simp] theorem State.setCmds_free (x : CommandQueue) : (s.setCmds x).free = s.free := rfl

@[simp] theorem State.setComps_pending (x : List Completion) : (s.setComps x).pending = s.pending := rfl
@[simp] theorem State.setComps_power (x : List Completion) : (s.setComps x).power = s.power := rfl
@[simp] theorem State.setComps_array (x : List Completion) : (s.setComps x).array = s.array := rfl
@[simp] theorem State.setComps_ctl (x : List Completion) : (s.setComps x).ctl = s.ctl := rfl
@[simp] theorem State.setComps_table (x : List Completion) : (s.setComps x).table = s.table := rfl
@[simp] theorem State.setComps_index (x : List Completion) : (s.setComps x).index = s.index := rfl
@[simp] theorem State.setComps_engine (x : List Completion) : (s.setComps x).engine = s.engine := rfl
@[simp] theorem State.setComps_reclaimer (x : List Completion) : (s.setComps x).reclaimer = s.reclaimer := rfl
@[simp] theorem State.setComps_cmds (x : List Completion) : (s.setComps x).cmds = s.cmds := rfl
@[simp] theorem State.setComps_comps (x : List Completion) : (s.setComps x).comps = x := rfl
@[simp] theorem State.setComps_staging (x : List Completion) : (s.setComps x).staging = s.staging := rfl
@[simp] theorem State.setComps_scanner (x : List Completion) : (s.setComps x).scanner = s.scanner := rfl
@[simp] theorem State.setComps_pfw (x : List Completion) : (s.setComps x).pfw = s.pfw := rfl
@[simp] theorem State.setComps_port (x : List Completion) : (s.setComps x).port = s.port := rfl
@[simp] theorem State.setComps_irq (x : List Completion) : (s.setComps x).irq = s.irq := rfl
@[simp] theorem State.setComps_settings (x : List Completion) : (s.setComps x).settings = s.settings := rfl
@[simp] theorem State.setComps_free (x : List Completion) : (s.setComps x).free = s.free := rfl

@[simp] theorem State.setStaging_pending (x : Staging) : (s.setStaging x).pending = s.pending := rfl
@[simp] theorem State.setStaging_power (x : Staging) : (s.setStaging x).power = s.power := rfl
@[simp] theorem State.setStaging_array (x : Staging) : (s.setStaging x).array = s.array := rfl
@[simp] theorem State.setStaging_ctl (x : Staging) : (s.setStaging x).ctl = s.ctl := rfl
@[simp] theorem State.setStaging_table (x : Staging) : (s.setStaging x).table = s.table := rfl
@[simp] theorem State.setStaging_index (x : Staging) : (s.setStaging x).index = s.index := rfl
@[simp] theorem State.setStaging_engine (x : Staging) : (s.setStaging x).engine = s.engine := rfl
@[simp] theorem State.setStaging_reclaimer (x : Staging) : (s.setStaging x).reclaimer = s.reclaimer := rfl
@[simp] theorem State.setStaging_cmds (x : Staging) : (s.setStaging x).cmds = s.cmds := rfl
@[simp] theorem State.setStaging_comps (x : Staging) : (s.setStaging x).comps = s.comps := rfl
@[simp] theorem State.setStaging_staging (x : Staging) : (s.setStaging x).staging = x := rfl
@[simp] theorem State.setStaging_scanner (x : Staging) : (s.setStaging x).scanner = s.scanner := rfl
@[simp] theorem State.setStaging_pfw (x : Staging) : (s.setStaging x).pfw = s.pfw := rfl
@[simp] theorem State.setStaging_port (x : Staging) : (s.setStaging x).port = s.port := rfl
@[simp] theorem State.setStaging_irq (x : Staging) : (s.setStaging x).irq = s.irq := rfl
@[simp] theorem State.setStaging_settings (x : Staging) : (s.setStaging x).settings = s.settings := rfl
@[simp] theorem State.setStaging_free (x : Staging) : (s.setStaging x).free = s.free := rfl

@[simp] theorem State.setScanner_pending (x : Scanner) : (s.setScanner x).pending = s.pending := rfl
@[simp] theorem State.setScanner_power (x : Scanner) : (s.setScanner x).power = s.power := rfl
@[simp] theorem State.setScanner_array (x : Scanner) : (s.setScanner x).array = s.array := rfl
@[simp] theorem State.setScanner_ctl (x : Scanner) : (s.setScanner x).ctl = s.ctl := rfl
@[simp] theorem State.setScanner_table (x : Scanner) : (s.setScanner x).table = s.table := rfl
@[simp] theorem State.setScanner_index (x : Scanner) : (s.setScanner x).index = s.index := rfl
@[simp] theorem State.setScanner_engine (x : Scanner) : (s.setScanner x).engine = s.engine := rfl
@[simp] theorem State.setScanner_reclaimer (x : Scanner) : (s.setScanner x).reclaimer = s.reclaimer := rfl
@[simp] theorem State.setScanner_cmds (x : Scanner) : (s.setScanner x).cmds = s.cmds := rfl
@[simp] theorem State.setScanner_comps (x : Scanner) : (s.setScanner x).comps = s.comps := rfl
@[simp] theorem State.setScanner_staging (x : Scanner) : (s.setScanner x).staging = s.staging := rfl
@[simp] theorem State.setScanner_scanner (x : Scanner) : (s.setScanner x).scanner = x := rfl
@[simp] theorem State.setScanner_pfw (x : Scanner) : (s.setScanner x).pfw = s.pfw := rfl
@[simp] theorem State.setScanner_port (x : Scanner) : (s.setScanner x).port = s.port := rfl
@[simp] theorem State.setScanner_irq (x : Scanner) : (s.setScanner x).irq = s.irq := rfl
@[simp] theorem State.setScanner_settings (x : Scanner) : (s.setScanner x).settings = s.settings := rfl
@[simp] theorem State.setScanner_free (x : Scanner) : (s.setScanner x).free = s.free := rfl

@[simp] theorem State.setPfw_pending (x : PowerFail) : (s.setPfw x).pending = s.pending := rfl
@[simp] theorem State.setPfw_power (x : PowerFail) : (s.setPfw x).power = s.power := rfl
@[simp] theorem State.setPfw_array (x : PowerFail) : (s.setPfw x).array = s.array := rfl
@[simp] theorem State.setPfw_ctl (x : PowerFail) : (s.setPfw x).ctl = s.ctl := rfl
@[simp] theorem State.setPfw_table (x : PowerFail) : (s.setPfw x).table = s.table := rfl
@[simp] theorem State.setPfw_index (x : PowerFail) : (s.setPfw x).index = s.index := rfl
@[simp] theorem State.setPfw_engine (x : PowerFail) : (s.setPfw x).engine = s.engine := rfl
@[simp] theorem State.setPfw_reclaimer (x : PowerFail) : (s.setPfw x).reclaimer = s.reclaimer := rfl
@[simp] theorem State.setPfw_cmds (x : PowerFail) : (s.setPfw x).cmds = s.cmds := rfl
@[simp] theorem State.setPfw_comps (x : PowerFail) : (s.setPfw x).comps = s.comps := rfl
@[simp] theorem State.setPfw_staging (x : PowerFail) : (s.setPfw x).staging = s.staging := rfl
@[simp] theorem State.setPfw_scanner (x : PowerFail) : (s.setPfw x).scanner = s.scanner := rfl
@[simp] theorem State.setPfw_pfw (x : PowerFail) : (s.setPfw x).pfw = x := rfl
@[simp] theorem State.setPfw_port (x : PowerFail) : (s.setPfw x).port = s.port := rfl
@[simp] theorem State.setPfw_irq (x : PowerFail) : (s.setPfw x).irq = s.irq := rfl
@[simp] theorem State.setPfw_settings (x : PowerFail) : (s.setPfw x).settings = s.settings := rfl
@[simp] theorem State.setPfw_free (x : PowerFail) : (s.setPfw x).free = s.free := rfl

@[simp] theorem State.setPort_pending (x : Port) : (s.setPort x).pending = s.pending := rfl
@[simp] theorem State.setPort_power (x : Port) : (s.setPort x).power = s.power := rfl
@[simp] theorem State.setPort_array (x : Port) : (s.setPort x).array = s.array := rfl
@[simp] theorem State.setPort_ctl (x : Port) : (s.setPort x).ctl = s.ctl := rfl
@[simp] theorem State.setPort_table (x : Port) : (s.setPort x).table = s.table := rfl
@[simp] theorem State.setPort_index (x : Port) : (s.setPort x).index = s.index := rfl
@[simp] theorem State.setPort_engine (x : Port) : (s.setPort x).engine = s.engine := rfl
@[simp] theorem State.setPort_reclaimer (x : Port) : (s.setPort x).reclaimer = s.reclaimer := rfl
@[simp] theorem State.setPort_cmds (x : Port) : (s.setPort x).cmds = s.cmds := rfl
@[simp] theorem State.setPort_comps (x : Port) : (s.setPort x).comps = s.comps := rfl
@[simp] theorem State.setPort_staging (x : Port) : (s.setPort x).staging = s.staging := rfl
@[simp] theorem State.setPort_scanner (x : Port) : (s.setPort x).scanner = s.scanner := rfl
@[simp] theorem State.setPort_pfw (x : Port) : (s.setPort x).pfw = s.pfw := rfl
@[simp] theorem State.setPort_port (x : Port) : (s.setPort x).port = x := rfl
@[simp] theorem State.setPort_irq (x : Port) : (s.setPort x).irq = s.irq := rfl
@[simp] theorem State.setPort_settings (x : Port) : (s.setPort x).settings = s.settings := rfl
@[simp] theorem State.setPort_free (x : Port) : (s.setPort x).free = s.free := rfl

@[simp] theorem State.setIrq_pending (x : Interrupts) : (s.setIrq x).pending = s.pending := rfl
@[simp] theorem State.setIrq_power (x : Interrupts) : (s.setIrq x).power = s.power := rfl
@[simp] theorem State.setIrq_array (x : Interrupts) : (s.setIrq x).array = s.array := rfl
@[simp] theorem State.setIrq_ctl (x : Interrupts) : (s.setIrq x).ctl = s.ctl := rfl
@[simp] theorem State.setIrq_table (x : Interrupts) : (s.setIrq x).table = s.table := rfl
@[simp] theorem State.setIrq_index (x : Interrupts) : (s.setIrq x).index = s.index := rfl
@[simp] theorem State.setIrq_engine (x : Interrupts) : (s.setIrq x).engine = s.engine := rfl
@[simp] theorem State.setIrq_reclaimer (x : Interrupts) : (s.setIrq x).reclaimer = s.reclaimer := rfl
@[simp] theorem State.setIrq_cmds (x : Interrupts) : (s.setIrq x).cmds = s.cmds := rfl
@[simp] theorem State.setIrq_comps (x : Interrupts) : (s.setIrq x).comps = s.comps := rfl
@[simp] theorem State.setIrq_staging (x : Interrupts) : (s.setIrq x).staging = s.staging := rfl
@[simp] theorem State.setIrq_scanner (x : Interrupts) : (s.setIrq x).scanner = s.scanner := rfl
@[simp] theorem State.setIrq_pfw (x : Interrupts) : (s.setIrq x).pfw = s.pfw := rfl
@[simp] theorem State.setIrq_port (x : Interrupts) : (s.setIrq x).port = s.port := rfl
@[simp] theorem State.setIrq_irq (x : Interrupts) : (s.setIrq x).irq = x := rfl
@[simp] theorem State.setIrq_settings (x : Interrupts) : (s.setIrq x).settings = s.settings := rfl
@[simp] theorem State.setIrq_free (x : Interrupts) : (s.setIrq x).free = s.free := rfl

@[simp] theorem State.setSettings_pending (x : Settings) : (s.setSettings x).pending = s.pending := rfl
@[simp] theorem State.setSettings_power (x : Settings) : (s.setSettings x).power = s.power := rfl
@[simp] theorem State.setSettings_array (x : Settings) : (s.setSettings x).array = s.array := rfl
@[simp] theorem State.setSettings_ctl (x : Settings) : (s.setSettings x).ctl = s.ctl := rfl
@[simp] theorem State.setSettings_table (x : Settings) : (s.setSettings x).table = s.table := rfl
@[simp] theorem State.setSettings_index (x : Settings) : (s.setSettings x).index = s.index := rfl
@[simp] theorem State.setSettings_engine (x : Settings) : (s.setSettings x).engine = s.engine := rfl
@[simp] theorem State.setSettings_reclaimer (x : Settings) : (s.setSettings x).reclaimer = s.reclaimer := rfl
@[simp] theorem State.setSettings_cmds (x : Settings) : (s.setSettings x).cmds = s.cmds := rfl
@[simp] theorem State.setSettings_comps (x : Settings) : (s.setSettings x).comps = s.comps := rfl
@[simp] theorem State.setSettings_staging (x : Settings) : (s.setSettings x).staging = s.staging := rfl
@[simp] theorem State.setSettings_scanner (x : Settings) : (s.setSettings x).scanner = s.scanner := rfl
@[simp] theorem State.setSettings_pfw (x : Settings) : (s.setSettings x).pfw = s.pfw := rfl
@[simp] theorem State.setSettings_port (x : Settings) : (s.setSettings x).port = s.port := rfl
@[simp] theorem State.setSettings_irq (x : Settings) : (s.setSettings x).irq = s.irq := rfl
@[simp] theorem State.setSettings_settings (x : Settings) : (s.setSettings x).settings = x := rfl
@[simp] theorem State.setSettings_free (x : Settings) : (s.setSettings x).free = s.free := rfl

@[simp] theorem State.setFree_pending (x : Nat) : (s.setFree x).pending = s.pending := rfl
@[simp] theorem State.setFree_power (x : Nat) : (s.setFree x).power = s.power := rfl
@[simp] theorem State.setFree_array (x : Nat) : (s.setFree x).array = s.array := rfl
@[simp] theorem State.setFree_ctl (x : Nat) : (s.setFree x).ctl = s.ctl := rfl
@[simp] theorem State.setFree_table (x : Nat) : (s.setFree x).table = s.table := rfl
@[simp] theorem State.setFree_index (x : Nat) : (s.setFree x).index = s.index := rfl
@[simp] theorem State.setFree_engine (x : Nat) : (s.setFree x).engine = s.engine := rfl
@[simp] theorem State.setFree_reclaimer (x : Nat) : (s.setFree x).reclaimer = s.reclaimer := rfl
@[simp] theorem State.setFree_cmds (x : Nat) : (s.setFree x).cmds = s.cmds := rfl
@[simp] theorem State.setFree_comps (x : Nat) : (s.setFree x).comps = s.comps := rfl
@[simp] theorem State.setFree_staging (x : Nat) : (s.setFree x).staging = s.staging := rfl
@[simp] theorem State.setFree_scanner (x : Nat) : (s.setFree x).scanner = s.scanner := rfl
@[simp] theorem State.setFree_pfw (x : Nat) : (s.setFree x).pfw = s.pfw := rfl
@[simp] theorem State.setFree_port (x : Nat) : (s.setFree x).port = s.port := rfl
@[simp] theorem State.setFree_irq (x : Nat) : (s.setFree x).irq = s.irq := rfl
@[simp] theorem State.setFree_settings (x : Nat) : (s.setFree x).settings = s.settings := rfl
@[simp] theorem State.setFree_free (x : Nat) : (s.setFree x).free = x := rfl

@[simp] theorem State.setPending_self : s.setPending s.pending = s := rfl
@[simp] theorem State.setPower_self : s.setPower s.power = s := rfl
@[simp] theorem State.setArray_self : s.setArray s.array = s := rfl
@[simp] theorem State.setCtl_self : s.setCtl s.ctl = s := rfl
@[simp] theorem State.setTable_self : s.setTable s.table = s := rfl
@[simp] theorem State.setIndex_self : s.setIndex s.index = s := rfl
@[simp] theorem State.setEngine_self : s.setEngine s.engine = s := rfl
@[simp] theorem State.setReclaimer_self : s.setReclaimer s.reclaimer = s := rfl
@[simp] theorem State.setCmds_self : s.setCmds s.cmds = s := rfl
@[simp] theorem State.setComps_self : s.setComps s.comps = s := rfl
@[simp] theorem State.setStaging_self : s.setStaging s.staging = s := rfl
@[simp] theorem State.setScanner_self : s.setScanner s.scanner = s := rfl
@[simp] theorem State.setPfw_self : s.setPfw s.pfw = s := rfl
@[simp] theorem State.setPort_self : s.setPort s.port = s := rfl
@[simp] theorem State.setIrq_self : s.setIrq s.irq = s := rfl
@[simp] theorem State.setSettings_self : s.setSettings s.settings = s := rfl
@[simp] theorem State.setFree_self : s.setFree s.free = s := rfl

end Sys2Proof.Machine
end

