-- ==== Sys2Proof/Laws/Table.lean ====
section
/-! SUPPORT. Laws/Table.lean: what the changes of a sector record keep (recOk, SectorTable.wf): the four counts go on
adding to 32 and the faulty set stays in order inside its sector. -/

namespace Sys2Proof.Machine

/-- A list in strict order inside one sector has at most 32 members. -/
theorem faulty_length_le (n : Nat) (l : List Nat) (hs : l.Pairwise (· < ·)) (hm : ∀ c ∈ l, sectorOf c = n) :
    l.length ≤ 32 := by
  have hnd : l.Nodup := hs.imp (fun h => Nat.ne_of_lt h)
  have hsub : l.toFinset ⊆ Finset.Ico (n * 32) (n * 32 + 32) := by
    intro c hc
    have := hm c (List.mem_toFinset.mp hc)
    simp only [sectorOf, Config.cellsPerSector] at this
    rw [Finset.mem_Ico]
    omega
  have := Finset.card_le_card hsub
  rwa [List.toFinset_card_of_nodup hnd, Nat.card_Ico, Nat.add_sub_cancel_left] at this

/-! ### Changes of one record -/

theorem recOk_blankToDead (n c : Nat) (r : SectorRec) (h : recOk n r) : recOk n (blankToDead c r) := by
  unfold blankToDead
  split
  · exact h
  · refine ⟨?_, h.2⟩
    have := h.1
    rename_i hn
    simp only [not_or] at hn
    dsimp only
    omega

theorem recOk_deadToLive (n c : Nat) (r : SectorRec) (h : recOk n r) : recOk n (deadToLive c r) := by
  unfold deadToLive
  split
  · exact h
  · refine ⟨?_, h.2⟩
    have := h.1
    rename_i hn
    simp only [not_or] at hn
    dsimp only
    omega

theorem recOk_liveToDead (n c : Nat) (r : SectorRec) (h : recOk n r) : recOk n (liveToDead c r) := by
  unfold liveToDead
  split
  · exact h
  · refine ⟨?_, h.2⟩
    have := h.1
    rename_i hn
    simp only [not_or] at hn
    dsimp only
    omega

theorem recOk_wornRec (n : Nat) (r : SectorRec) (h : recOk n r) : recOk n (wornRec r) := by
  refine ⟨?_, h.2.1, h.2.2.1, le_rfl⟩
  have := faulty_length_le n r.faulty h.2.1 h.2.2.1
  simp only [wornRec]
  omega

theorem orderedInsert_strict (c : Nat) (l : List Nat) (hs : l.Pairwise (· < ·)) (hc : c ∉ l) :
    (List.orderedInsert (· ≤ ·) c l).Pairwise (· < ·) := by
  induction l with
  | nil => simp
  | cons m t ih =>
    have h := List.pairwise_cons.mp hs
    simp only [List.mem_cons, not_or] at hc
    rw [List.orderedInsert_cons]
    split
    · refine List.pairwise_cons.mpr ⟨fun p hp => ?_, hs⟩
      rcases List.mem_cons.mp hp with rfl | hp
      · omega
      · exact lt_of_le_of_lt ‹_› (h.1 p hp)
    · refine List.pairwise_cons.mpr ⟨fun p hp => ?_, ih h.2 hc.2⟩
      rcases (List.mem_orderedInsert _).mp hp with rfl | hp
      · omega
      · exact h.1 p hp

theorem takeFrom_spec (a b : Bool) (r r' : SectorRec) (h : takeFrom a b r = some r') :
    r'.blank + r'.live + r'.dead + 1 = r.blank + r.live + r.dead ∧ r'.faulty = r.faulty ∧ r'.faultyCount = r.faultyCount := by
  unfold takeFrom at h
  split at h
  · injection h with h
    subst h
    exact ⟨by simp only; omega, rfl, rfl⟩
  · split at h
    · injection h with h
      subst h
      exact ⟨by simp only; omega, rfl, rfl⟩
    · split at h
      · injection h with h
        subst h
        exact ⟨by simp only; omega, rfl, rfl⟩
      · split at h
        · injection h with h
          subst h
          exact ⟨by simp only; omega, rfl, rfl⟩
        · split at h
          · injection h with h
            subst h
            exact ⟨by simp only; omega, rfl, rfl⟩
          · cases h

theorem recOk_joinFaulty (a b : Bool) (c : Nat) (r : SectorRec) (h : recOk (sectorOf c) r) :
    recOk (sectorOf c) (joinFaulty a b c r) := by
  unfold joinFaulty
  split
  · exact h
  · split
    · rename_i r' hr
      obtain ⟨h1, -, -⟩ := takeFrom_spec a b r r' hr
      refine ⟨?_, orderedInsert_strict c _ h.2.1 ‹_›, fun x hx => ?_, ?_⟩
      · have := h.1
        dsimp only
        omega
      · rcases (List.mem_orderedInsert _).mp hx with rfl | hx
        · rfl
        · exact h.2.2.1 x hx
      · have := h.2.2.2
        simp only [insertFaulty, List.orderedInsert_length]
        omega
    · exact h

theorem recOk_noteFaulty (c : Nat) (r : SectorRec) (h : recOk (sectorOf c) r) : recOk (sectorOf c) (noteFaulty c r) := by
  unfold noteFaulty
  split
  · exact h
  · refine ⟨h.1, orderedInsert_strict c _ h.2.1 ‹_›, fun x hx => ?_, ?_⟩
    · rcases (List.mem_orderedInsert _).mp hx with rfl | hx
      · rfl
      · exact h.2.2.1 x hx
    · have := h.2.2.2
      simp only [insertFaulty, List.orderedInsert_length]
      omega

/-- R175: the faulty set after a cell is found faulty. -/
theorem mem_noteFaulty (c x : Nat) (r : SectorRec) : x ∈ (noteFaulty c r).faulty ↔ x = c ∨ x ∈ r.faulty := by
  unfold noteFaulty
  split
  · exact ⟨.inr, fun h => h.elim (fun e => e ▸ ‹_›) id⟩
  · exact List.mem_orderedInsert _

/-- R67: the faulty set after a FAILED operation on a cell of a sector with a dead cell to give. -/
theorem mem_joinFaulty (a b : Bool) (c x : Nat) (r : SectorRec) (hd : r.dead ≠ 0) :
    x ∈ (joinFaulty a b c r).faulty ↔ x = c ∨ x ∈ r.faulty := by
  unfold joinFaulty
  split
  · exact ⟨.inr, fun h => h.elim (fun e => e ▸ ‹_›) id⟩
  · have : ∃ r', takeFrom a b r = some r' := by
      unfold takeFrom
      split
      · exact ⟨_, rfl⟩
      · split
        · exact ⟨_, rfl⟩
        · exact ⟨_, rfl⟩
    obtain ⟨r', hr'⟩ := this
    rw [hr']
    exact List.mem_orderedInsert _

theorem recOk_clearedRec (n : Nat) (r : SectorRec) (h : recOk n r) : recOk n (clearedRec r) := by
  unfold clearedRec
  have := h.1
  simp only
  split <;> refine ⟨?_, h.2⟩ <;> simp only <;> omega

theorem recOk_epochRec (n epoch : Nat) (f : HeaderFound) (r : SectorRec) (h : recOk n r) :
    recOk n (epochRec epoch f r) := by
  unfold epochRec
  split
  · split <;> exact h
  all_goals exact h

theorem recOk_headerRec (n : Nat) (f : HeaderFound) (r : SectorRec) (h : recOk n r) : recOk n (headerRec f r) := by
  unfold headerRec
  split <;> exact h

theorem recOk_all_blank (n : Nat) (r : SectorRec) (h1 : r.blank = 32) (h2 : r.live = 0) (h3 : r.dead = 0)
    (h4 : r.faultyCount = 0) (h5 : r.faulty = []) : recOk n r := by
  rw [recOk, h1, h2, h3, h4, h5]
  simp

theorem recOk_all_dead (n : Nat) (r : SectorRec) (h1 : r.blank = 0) (h2 : r.live = 0) (h3 : r.dead = 32)
    (h4 : r.faultyCount = 0) (h5 : r.faulty = []) : recOk n r := by
  rw [recOk, h1, h2, h3, h4, h5]
  simp

theorem recOk_resetRec (n : Nat) : recOk n resetRec := recOk_all_dead n resetRec rfl rfl rfl rfl rfl

/-- The 32 cells of a sector, parted by membership, are 32. -/
theorem filter_three_le (l F : List Nat) (p q : Nat → Bool) (hF : F.Nodup) (hl : l.Nodup)
    (hm : ∀ c ∈ F, c ∈ l) (hp : ∀ c, p c = true → q c = false) :
    (l.filter fun c => p c && !F.contains c).length + (l.filter fun c => q c && !F.contains c).length + F.length ≤
      l.length := by
  have h1 : ((l.filter fun c => p c && !F.contains c) ++ (l.filter fun c => q c && !F.contains c) ++ F).Nodup := by
    rw [List.nodup_append', List.nodup_append']
    refine ⟨⟨hl.filter _, hl.filter _, ?_⟩, hF, ?_⟩
    · intro c hc hd
      simp only [List.mem_filter, Bool.and_eq_true] at hc hd
      have := hp c hc.2.1
      simp_all
    · intro c hc hd
      simp only [List.mem_append, List.mem_filter, Bool.and_eq_true, Bool.not_eq_true'] at hc
      rcases hc with hc | hc <;> simp_all
  have h2 := (List.subperm_of_subset h1 (l₂ := l) (fun c hc => by
    simp only [List.mem_append, List.mem_filter] at hc
    rcases hc with (hc | hc) | hc
    · exact hc.1
    · exact hc.1
    · exact hm c hc)).length_le
  simpa [List.length_append, Nat.add_assoc] using h2

theorem cellsOf_length (n : Nat) : (cellsOf n).length = 32 := by simp [cellsOf, Config.cellsPerSector]

theorem cellsOf_nodup (n : Nat) : (cellsOf n).Nodup := by
  refine List.Nodup.map ?_ List.nodup_range
  intro a b h
  simpa using h

theorem mem_cellsOf (n c : Nat) (h : sectorOf c = n) : c ∈ cellsOf n := by
  simp only [sectorOf, cellsOf, Config.cellsPerSector] at *
  rw [List.mem_map]
  exact ⟨c % 32, by rw [List.mem_range]; omega, by omega⟩

theorem recOk_countedRec (n : Nat) (index : List IndexEntry) (o : Option Nat) (cursor : Nat) (r : SectorRec)
    (h : recOk n r) : recOk n (countedRec index o cursor n r) := by
  unfold countedRec
  split
  · exact recOk_wornRec n r h
  · refine ⟨?_, h.2.1, h.2.2.1, le_rfl⟩
    have hnd : r.faulty.Nodup := h.2.1.imp (fun h => Nat.ne_of_lt h)
    have hm : ∀ c ∈ r.faulty, c ∈ cellsOf n := fun c hc => mem_cellsOf n c (h.2.2.1 c hc)
    have key := filter_three_le (cellsOf n) r.faulty (fun c => isNamed c index)
      (fun c => decide (cursor ≤ c % 32) && !(isNamed c index)) hnd (cellsOf_nodup n) hm
      (fun c hc => by simp [hc])
    have hlen := cellsOf_length n
    simp only [Bool.and_assoc] at *
    split <;> omega

/-- R67: where the faulty count is the size of the faulty set, it stays so. -/
theorem recExact_joinFaulty (a b : Bool) (c : Nat) (r : SectorRec) (h : recExact r) : recExact (joinFaulty a b c r) := by
  unfold joinFaulty
  split
  · exact h
  · split
    · simpa [recExact, insertFaulty, List.orderedInsert_length] using h
    · exact h

theorem recExact_countedRec (n : Nat) (index : List IndexEntry) (o : Option Nat) (cursor : Nat) (r : SectorRec) :
    recExact (countedRec index o cursor n r) := by
  unfold countedRec
  split <;> rfl

theorem recExact_clearedRec (r : SectorRec) (h : recExact r) : recExact (clearedRec r) := by
  unfold clearedRec
  dsimp only
  split <;> exact h

theorem recExact_epochRec (epoch : Nat) (f : HeaderFound) (r : SectorRec) (h : recExact r) :
    recExact (epochRec epoch f r) := by
  unfold epochRec
  split
  · split <;> exact h
  all_goals exact h

/-- A change of a record of sector `n` that keeps it sound, and its faulty count exact. -/
abbrev RecKeeps (n : Nat) (f : SectorRec → SectorRec) : Prop :=
  ∀ r, (recOk n r → recOk n (f r)) ∧ (recExact r → recExact (f r))

theorem recKeeps_blankToDead (c n : Nat) : RecKeeps n (blankToDead c) := fun r =>
  ⟨recOk_blankToDead n c r, fun h => by unfold blankToDead; split <;> exact h⟩

theorem recKeeps_deadToLive (c n : Nat) : RecKeeps n (deadToLive c) := fun r =>
  ⟨recOk_deadToLive n c r, fun h => by unfold deadToLive; split <;> exact h⟩

theorem recKeeps_liveToDead (c n : Nat) : RecKeeps n (liveToDead c) := fun r =>
  ⟨recOk_liveToDead n c r, fun h => by unfold liveToDead; split <;> exact h⟩

theorem recKeeps_wornRec (n : Nat) : RecKeeps n wornRec := fun r => ⟨recOk_wornRec n r, fun _ => rfl⟩

theorem recKeeps_headerRec (n : Nat) (f : HeaderFound) : RecKeeps n (headerRec f) := fun r =>
  ⟨recOk_headerRec n f r, fun h => by unfold headerRec; split <;> exact h⟩

/-! ### Changes of the table -/

/-- Records that are each exact make an exact table. -/
theorem exact_of_mem (t : SectorTable) (h : ∀ r ∈ t.recs, recExact r) : t.exact := by
  intro n _
  rw [List.getD_eq_getElem?_getD]
  cases hn : t.recs[n]? with
  | none => rfl
  | some r => exact h r (List.mem_of_getElem? hn)

theorem exact_mem (t : SectorTable) (hl : t.recs.length = Config.sectors) (h : t.exact) : ∀ r ∈ t.recs, recExact r := by
  intro r hr
  obtain ⟨i, hi, rfl⟩ := List.getElem_of_mem hr
  have := h i (by omega)
  rwa [List.getD_eq_getElem?_getD, List.getElem?_eq_getElem hi] at this

/-- A change of one record that keeps it exact keeps the table exact. -/
theorem exact_modify (t : SectorTable) (n : Nat) (f : SectorRec → SectorRec) (hf : ∀ r, recExact r → recExact (f r))
    (h : t.exact) : ({ t with recs := t.recs.modify n f } : SectorTable).exact := by
  intro m hm
  have := h m hm
  simp only [List.getD_eq_getElem?_getD, List.getElem?_modify] at *
  cases hm' : t.recs[m]? with
  | none => rfl
  | some r =>
    rw [hm'] at this
    simp only [Option.map_eq_map, Option.map_some, Option.getD_some] at *
    split
    · exact hf r this
    · exact this

/-- A change of every record that keeps each exact keeps the table exact. -/
theorem exact_mapIdx (t : SectorTable) (f : Nat → SectorRec → SectorRec) (hf : ∀ n r, recExact r → recExact (f n r))
    (cursor : Nat) (q : List Nat) (cl : List Claim) (h : t.exact) :
    ({ recs := t.recs.mapIdx f, cursor := cursor, queue := q, claims := cl, sel := t.sel } : SectorTable).exact := by
  intro m hm
  have := h m hm
  simp only [List.getD_eq_getElem?_getD, List.getElem?_mapIdx] at *
  cases hm' : t.recs[m]? with
  | none => rfl
  | some r =>
    rw [hm'] at this
    exact hf m r this

theorem exact_map (t : SectorTable) (f : SectorRec → SectorRec) (hf : ∀ r, recExact r → recExact (f r))
    (cursor : Nat) (q : List Nat) (cl : List Claim) (h : t.exact) :
    ({ recs := t.recs.map f, cursor := cursor, queue := q, claims := cl, sel := t.sel } : SectorTable).exact := by
  have := exact_mapIdx t (fun _ => f) (fun _ => hf) cursor q cl h
  have e : t.recs.mapIdx (fun _ => f) = t.recs.map f := by
    apply List.ext_getElem <;> simp
  rwa [e] at this

theorem recs_getD_modify (l : List SectorRec) (n m : Nat) (f : SectorRec → SectorRec) (hm : m < l.length) :
    (l.modify n f).getD m resetRec = if n = m then f (l.getD m resetRec) else l.getD m resetRec := by
  simp only [List.getD_eq_getElem?_getD, List.getElem?_modify, List.getElem?_eq_getElem hm, Option.map_eq_map,
    Option.map_some, Option.getD_some]

/-- A change of one record that keeps it sound keeps the table sound. -/
theorem wf_modify (t : SectorTable) (n : Nat) (f : SectorRec → SectorRec) (hf : ∀ r, recOk n r → recOk n (f r))
    (h : t.wf) : ({ t with recs := t.recs.modify n f } : SectorTable).wf := by
  refine ⟨by simpa using h.1, fun m hm => ?_, h.2.2⟩
  show recOk m ((t.recs.modify n f).getD m resetRec)
  rw [recs_getD_modify _ _ _ _ (by rw [h.1]; exact hm)]
  have := h.2.1 m hm
  split
  · subst_vars
    exact hf _ this
  · exact this

/-- A change of every record that keeps each sound keeps the table sound. -/
theorem wf_mapIdx (t : SectorTable) (f : Nat → SectorRec → SectorRec) (hf : ∀ n r, recOk n r → recOk n (f n r))
    (cursor : Nat) (q : List Nat) (cl : List Claim) (hc : cursor ≤ 32) (h : t.wf) :
    ({ recs := t.recs.mapIdx f, cursor := cursor, queue := q, claims := cl, sel := t.sel } : SectorTable).wf := by
  refine ⟨by simpa using h.1, fun m hm => ?_, hc, h.2.2.2⟩
  have hm' : m < t.recs.length := by rw [h.1]; exact hm
  show recOk m ((t.recs.mapIdx f).getD m resetRec)
  have := h.2.1 m hm
  simp only [List.getD_eq_getElem?_getD, List.getElem?_mapIdx, List.getElem?_eq_getElem hm', Option.map_some,
    Option.getD_some] at *
  exact hf m _ this

theorem wf_map (t : SectorTable) (f : SectorRec → SectorRec) (hf : ∀ n r, recOk n r → recOk n (f r))
    (cursor : Nat) (q : List Nat) (cl : List Claim) (hc : cursor ≤ 32) (h : t.wf) :
    ({ recs := t.recs.map f, cursor := cursor, queue := q, claims := cl, sel := t.sel } : SectorTable).wf := by
  have := wf_mapIdx t (fun _ => f) hf cursor q cl hc h
  have e : t.recs.mapIdx (fun _ => f) = t.recs.map f := by
    apply List.ext_getElem <;> simp
  rwa [e] at this

theorem resetTable_exact : resetTable.exact :=
  exact_of_mem _ fun r hr => by rw [List.eq_of_mem_replicate hr]; rfl

theorem resetTable_wf : resetTable.wf := by
  refine ⟨by simp [resetTable], fun n hn => ?_, by simp [resetTable], by simp [resetTable]⟩
  have : resetTable.recs.getD n resetRec = resetRec := by
    simp only [resetTable, List.getD_eq_getElem?_getD, List.getElem?_replicate]
    split <;> rfl
  rw [this]
  exact recOk_resetRec n

end Sys2Proof.Machine
end

