-- ==== Sys2Proof/Laws/Closure.lean ====
section
/-! SUPPORT. Laws/Closure.lean: what the actions inside an event can do to the state, said once. `Closed P` says that
`P` survives each named update an action can make, with what that update keeps; the lemmas say that `P` then survives
every action of the Sector Table, the Reclaimer, the Record Engine and the Recovery Scanner. A property is proved of
all of them by proving `Closed` of it. -/

namespace Sys2Proof.Machine

/-- `P` survives each update that an action of the engine, the Reclaimer or the scanner makes. -/
structure Closed (P : State → Prop) : Prop where
  ctl : ∀ (s : State) (x : Controller), x.pass ≤ s.ctl.pass ∨ x.pass ≤ Config.passEnd → P s → P (s.setCtl x)
  table : ∀ (s : State) (x : SectorTable), (s.table.wf → x.wf) → (countsExact s → countsExact (s.setTable x)) → P s →
    P (s.setTable x)
  index : ∀ (s : State) (x : List IndexEntry), (indexOk s → ascendingKeys x) → P s → P (s.setIndex x)
  engine : ∀ (s : State) (x : Engine), x.held = s.engine.held → P s → P (s.setEngine x)
  hold : ∀ (s : State) (x : Engine), Config.completionCapacity ≤ s.comps.length → P s → P (s.setEngine x)
  release : ∀ (s : State) (x : Engine), x.held = none → P s → P (s.setEngine x)
  reclaimer : ∀ (s : State) (x : Reclaimer), P s → P (s.setReclaimer x)
  take : ∀ (s : State) (c : Command) (q : List Command), s.cmds.queue = c :: q → P s →
    P (s.setCmds { s.cmds with queue := q })
  join : ∀ (s : State) (e : Completion), s.comps.length < Config.completionCapacity → P s →
    P (s.setComps (s.comps ++ [e]))
  staging : ∀ (s : State) (x : Staging), (s.staging.wf → x.wf) → P s → P (s.setStaging x)
  scanner : ∀ (s : State) (x : Scanner), x.ring = s.scanner.ring → x.lost = s.scanner.lost →
    (indexOk s → ascendingKeys x.chosen) → P s → P (s.setScanner x)
  report : ∀ (s : State) (r : Report), P s → P (report r s)
  power : ∀ (s : State) (x : Power), (countsExact s → countsExact (s.setPower x)) → P s → P (s.setPower x)
  irq : ∀ (s : State) (x : Interrupts), x.mask = s.irq.mask → P s → P (s.setIrq x)
  free : ∀ (s : State) (n : Nat), P s → P (s.setFree n)

variable {P : State → Prop} {s : State}

namespace Closed

/-! ### Shared operations -/

theorem useFree (h : Closed P) (hs : P s) : P (useFree s) := h.free _ _ hs

theorem raiseFault (h : Closed P) (hs : P s) : P (raiseFault s) := h.irq _ _ rfl hs

theorem raiseSpace (h : Closed P) (hs : P s) : P (raiseSpace s) := h.irq _ _ rfl hs

theorem raiseReady (h : Closed P) (hs : P s) : P (raiseReady s) := h.irq _ _ rfl hs

theorem setWaiting_pass (c : Controller) (who : Requester) (o : Option ArrayOp) :
    (c.setWaiting who o).pass = c.pass := by cases who <;> rfl

theorem placeWaiting (h : Closed P) (who : Requester) (op : ArrayOp) (hs : P s) : P (placeWaiting who op s) :=
  h.ctl _ _ (.inl (by rw [setWaiting_pass])) hs

theorem placeEngineRead (h : Closed P) (c : Nat) (hs : P s) : P (placeEngineRead c s) := by
  unfold Machine.placeEngineRead
  split
  · split
    · exact h.ctl _ _ (.inl le_rfl) hs
    · exact h.placeWaiting _ _ hs
  · exact h.placeWaiting _ _ hs

theorem withdrawRequest (h : Closed P) (hs : P s) : P (withdrawRequest s) := by
  unfold Machine.withdrawRequest
  split
  · exact h.ctl _ _ (.inr (Nat.zero_le _)) hs
  · exact hs

theorem modRec (h : Closed P) (n : Nat) (f : SectorRec → SectorRec) (hf : RecKeeps n f) (hs : P s) :
    P (modRec n f s) :=
  h.table _ _ (wf_modify s.table n f fun r => (hf r).1) (fun e r => exact_modify s.table n f (fun x => (hf x).2) (e r)) hs

theorem modCells (h : Closed P) (f : Nat → SectorRec → SectorRec) (hf : ∀ c n, RecKeeps n (f c))
    (l : List Nat) (hs : P s) : P (modCells f l s) := by
  induction l generalizing s with
  | nil => exact hs
  | cons c t ih => exact ih (h.modRec _ _ (hf c _) hs)

theorem cellFailed (h : Closed P) (c : Nat) (hs : P s) : P (cellFailed c s) := by
  refine h.table _ _ (wf_modify s.table _ _ fun r hr => ?_) (fun e r => exact_modify s.table _ _ (fun x hx => ?_) (e r)) hs
  · split
    · exact recOk_joinFaulty _ _ c r hr
    · exact recOk_noteFaulty c r hr
  · rw [if_pos (by exact r)]
    exact recExact_joinFaulty _ _ c x hx

theorem makeWorn (h : Closed P) (n : Nat) (hs : P s) : P (makeWorn n s) :=
  h.raiseFault (h.modRec _ _ (recKeeps_wornRec n) hs)

theorem headerAdvanced (h : Closed P) (n : Nat) (t : SectorState) (hs : P s) : P (headerAdvanced n t s) := by
  unfold Machine.headerAdvanced
  split
  · exact h.makeWorn n hs
  all_goals exact h.modRec _ _ (fun _ => ⟨id, id⟩) hs

theorem eraseEnded (h : Closed P) (who : Requester) (n epoch erases : Nat) (out : ArrayOutcome) (hs : P s) :
    P (eraseEnded who n epoch erases out s) := by
  unfold Machine.eraseEnded
  split
  · split
    · exact h.table _ _ id id (h.modRec _ _ (fun _ => ⟨fun _ => recOk_all_blank n _ rfl rfl rfl rfl rfl, fun _ => rfl⟩) hs)
    all_goals exact h.modRec _ _ (fun _ => ⟨fun _ => recOk_all_dead n _ rfl rfl rfl rfl rfl, fun _ => rfl⟩) hs
  · exact h.makeWorn n (h.modRec _ _ (fun _ => ⟨id, id⟩) hs)
  · exact h.modRec _ _ (fun _ => ⟨id, id⟩) hs
  · exact hs

theorem modCells_cursor (f : Nat → SectorRec → SectorRec) (l : List Nat) (s : State) :
    (Machine.modCells f l s).table.cursor = s.table.cursor := by
  induction l generalizing s with
  | nil => rfl
  | cons c t ih => exact ih _

theorem handOut (h : Closed P) (k : Nat) (hs : P s) : P (handOut k s).2 := by
  unfold Machine.handOut
  split
  · exact hs
  · dsimp only
    generalize hl : (List.range (min k (32 - s.table.cursor))).map _ = l
    have hlen : l.length = min k (32 - s.table.cursor) := by rw [← hl]; simp
    have h1 := h.modCells blankToDead recKeeps_blankToDead l hs
    have h2 := h.table _ { (Machine.modCells blankToDead l s).table with cursor := s.table.cursor + l.length } (fun w => by
      have := w.2.2.1
      rw [modCells_cursor] at this
      refine ⟨w.1, w.2.1, ?_, w.2.2.2⟩
      show s.table.cursor + l.length ≤ 32
      omega) id h1
    split
    · exact h.modRec _ _ (fun _ => ⟨id, id⟩) h2
    · exact h2

theorem openSectorFor (h : Closed P) (k n : Nat) (hs : P s) : P (openSectorFor k n s).2 := by
  unfold Machine.openSectorFor
  dsimp only
  refine h.handOut _ (h.table _ _ (fun w => ⟨w.1, w.2.1, Nat.zero_le _, w.2.2.2⟩) id
    (h.modRec _ _ (fun _ => ⟨id, id⟩) ?_))
  split
  · exact h.modRec _ _ (fun _ => ⟨id, id⟩) (h.handOut _ hs)
  · exact h.handOut _ hs

theorem rebuildQueue (h : Closed P) (hs : P s) : P (rebuildQueue s) := by
  unfold Machine.rebuildQueue
  refine h.table _ _ id id ?_
  generalize rebuildOrder s = l
  induction l generalizing s with
  | nil => exact hs
  | cons n t ih => exact ih (h.modRec _ _ (fun _ => ⟨fun _ => recOk_all_blank n _ rfl rfl rfl rfl rfl, fun _ => rfl⟩) hs)

theorem appendClaim (h : Closed P) (who : Requester) (k : Nat) (hs : P s) : P (appendClaim who k s) :=
  h.table _ _ id id hs

theorem dropClaim (h : Closed P) (hs : P s) : P (dropClaim s) := h.table _ _ id id hs

theorem pinCells (h : Closed P) (l : List Nat) (hs : P s) : P (pinCells l s) :=
  h.modCells (fun _ r => { r with pinned := true }) (fun _ _ _ => ⟨id, id⟩) l hs

theorem clearPins (h : Closed P) (hs : P s) : P (clearPins s) :=
  h.table _ _ (fun w => wf_map s.table (fun r => { r with pinned := false }) (fun _ _ hr => hr) _ _ _ w.2.2.1 w)
    (fun e r => exact_map s.table (fun r => { r with pinned := false }) (fun _ hx => hx) _ _ _ (e r)) hs

theorem setOwner_wf (g : Staging) (b : Buf) (o : Owner) (w : g.wf) : (g.setOwner b o).wf := by cases b <;> exact w

theorem setOwner (h : Closed P) (b : Option Buf) (o : Owner) (hs : P s) : P (setOwner b o s) := by
  unfold Machine.setOwner
  split
  · exact h.staging _ _ (setOwner_wf _ _ _) hs
  · exact hs

theorem overwrite_length (at_ : Nat) (x l : List Byte) : (overwrite at_ x l).length = l.length := by
  induction x generalizing at_ l with
  | nil => rfl
  | cons b t ih => rw [overwrite, ih, List.length_set]

theorem writeBytes (h : Closed P) (b : Buf) (offset : Nat) (x : List Byte) (hs : P s) :
    P (writeBytes b offset x s) := by
  refine h.staging _ _ (fun w => ?_) hs
  cases b
  · exact ⟨by rw [← w.1]; exact overwrite_length _ _ _, w.2⟩
  · exact ⟨w.1, by rw [← w.2]; exact overwrite_length _ _ _⟩

theorem reportNumber (h : Closed P) (k : ReportKind) (n : Nat) (hs : P s) : P (reportNumber k n s) :=
  h.report _ _ hs

end Closed

/-! ### The key index (R48) -/

theorem upsert_keys_mem (x : IndexEntry) (l : List IndexEntry) (k : Nat) (hk : k ∈ (upsert x l).map IndexEntry.key) :
    k = x.key ∨ k ∈ l.map IndexEntry.key := by
  induction l with
  | nil => simpa [upsert] using hk
  | cons e t ih =>
    unfold upsert at hk
    split at hk
    · simpa using hk
    · split at hk
      · simp only [List.map_cons, List.mem_cons] at hk ⊢
        tauto
      · simp only [List.map_cons, List.mem_cons] at hk ⊢
        rcases hk with hk | hk
        · tauto
        · rcases ih hk with hk | hk <;> tauto

theorem upsert_ascending (x : IndexEntry) (l : List IndexEntry) (hl : ascendingKeys l) : ascendingKeys (upsert x l) := by
  unfold ascendingKeys at *
  induction l with
  | nil => simp [upsert]
  | cons e t ih =>
    have h := List.pairwise_cons.mp hl
    unfold upsert
    split
    · refine List.pairwise_cons.mpr ⟨fun k hk => ?_, hl⟩
      rcases List.mem_cons.mp hk with rfl | hk
      · assumption
      · exact lt_trans ‹_› (h.1 k hk)
    · split
      · rename_i he
        refine List.pairwise_cons.mpr ⟨fun k hk => ?_, h.2⟩
        rw [he]
        exact h.1 k hk
      · refine List.pairwise_cons.mpr ⟨fun k hk => ?_, ih h.2⟩
        rcases upsert_keys_mem x t k hk with rfl | hk
        · omega
        · exact h.1 k hk

theorem removeKey_ascending (k : Nat) (l : List IndexEntry) (hl : ascendingKeys l) : ascendingKeys (removeKey k l) :=
  List.Pairwise.sublist (List.Sublist.map _ List.filter_sublist) hl

theorem moveInMap_keys (k f c : Nat) (l : List IndexEntry) :
    (moveInMap k f c l).map IndexEntry.key = l.map IndexEntry.key := by
  unfold moveInMap
  rw [List.map_map]
  refine List.map_congr_left fun e _ => ?_
  simp only [Function.comp_apply]
  split <;> rfl

namespace Closed

/-! ### The Reclaimer (05) -/

theorem modReclaimer (h : Closed P) (f : Reclaimer → Reclaimer) (hs : P s) : P (modReclaimer f s) :=
  h.reclaimer _ _ hs

theorem startMarking (h : Closed P) (v : Nat) (hs : P s) : P (startMarking v s) :=
  h.placeWaiting _ _ (h.modReclaimer _ hs)

theorem evaluate (h : Closed P) (hs : P s) : P (evaluate s) := by
  unfold Machine.evaluate
  split
  · split
    · exact h.startMarking _ hs
    · exact hs
  · exact hs

theorem enterErasing (h : Closed P) (hs : P s) : P (enterErasing s) := by
  unfold Machine.enterErasing
  split
  · exact hs
  · exact h.placeWaiting _ _ (h.modReclaimer _ hs)

theorem startRelocation (h : Closed P) (v p : Nat) (hs : P s) : P (startRelocation v p s) :=
  h.placeWaiting _ _ (h.modReclaimer _ hs)

theorem endPass (h : Closed P) (v : Nat) (hs : P s) : P (endPass v s) := by
  unfold Machine.endPass
  split
  · dsimp only
    split
    · exact h.modReclaimer _ hs
    · exact h.enterErasing (h.modReclaimer _ hs)
  · split
    · exact h.startRelocation _ _ hs
    · exact h.modReclaimer _ hs

theorem reachCursor (h : Closed P) (hs : P s) : P (reachCursor s) := by
  unfold Machine.reachCursor
  split
  · exact hs
  · split
    · exact h.startRelocation _ _ hs
    · exact h.endPass _ hs

theorem endRelocation (h : Closed P) (hs : P s) : P (endRelocation s) := h.reachCursor (h.modReclaimer _ hs)

theorem drainStep (h : Closed P) (hs : P s) : P (drainStep s) := by
  unfold Machine.drainStep
  split
  · split
    · exact hs
    · split
      · exact h.enterErasing hs
      · exact h.reachCursor (h.modReclaimer _ hs)
  · exact hs

theorem haltReclaimer (h : Closed P) (c : HaltCause) (hs : P s) : P (haltReclaimer c s) :=
  h.raiseFault (h.modReclaimer _ hs)

theorem resumeReclaimer (h : Closed P) (hs : P s) : P (resumeReclaimer s) := h.reachCursor (h.modReclaimer _ hs)

theorem withdrawClaim (h : Closed P) (hs : P s) : P (withdrawClaim s) := h.table _ _ id id hs

theorem stopNow (h : Closed P) (hs : P s) : P (stopNow s) := by
  unfold Machine.stopNow
  refine h.modReclaimer _ ?_
  split
  · refine h.modRec _ _ (fun r => ?_) hs
    split <;> exact ⟨id, id⟩
  · exact hs

theorem requestStop (h : Closed P) (hs : P s) : P (requestStop s).2 := by
  unfold Machine.requestStop
  have h1 := h.modReclaimer (fun r => { r with barred := true }) hs
  have h2 := h.withdrawClaim (h.withdrawRequest h1)
  dsimp only
  split
  · exact h1
  · exact h.stopNow h1
  all_goals
    split
    · exact h2
    · exact h.stopNow h2

theorem requestCopy (h : Closed P) (hs : P s) : P (requestCopy s) := by
  unfold Machine.requestCopy
  split
  · exact h.placeWaiting _ _ hs
  · exact hs

theorem assignCopy (h : Closed P) (l : List Nat) (hs : P s) : P (assignCopy l s) := h.modReclaimer _ hs

theorem conditionalUpdate (h : Closed P) (c src : Nat) (o : ReadOutcome) (hs : P s) :
    P (conditionalUpdate c src o s).2 := by
  unfold Machine.conditionalUpdate
  dsimp only
  split
  · refine h.modCells _ recKeeps_liveToDead _
      (h.modCells _ recKeeps_deadToLive _ (h.index _ _ (fun w => ?_) hs))
    rw [ascendingKeys, moveInMap_keys]
    exact w.1
  · exact hs

end Closed

end Sys2Proof.Machine
end

