-- ==== Sys2Proof/Laws/EngineClosure.lean ====
section
/-! SUPPORT. Laws/EngineClosure.lean: a `Closed` property survives every action of the Record Engine, the service of
claims, FORMAT's clear, and every outcome the engine and the Reclaimer take. -/

namespace Sys2Proof.Machine

variable {P : State → Prop} {s : State}

namespace Closed

theorem setWork (h : Closed P) (w : Work) (hs : P s) : P (setWork w s) := h.engine _ _ rfl hs

theorem produce (h : Closed P) (c : Command) (e : Completion) (hs : P s) : P (produce c e s) := by
  unfold Machine.produce
  refine h.drainStep ?_
  have h1 := h.clearPins hs
  have h2 : P (if e.kind = .store ∧ e.status = .noSpace then Machine.raiseSpace (Machine.clearPins s)
      else Machine.clearPins s) := by
    split
    · exact h.raiseSpace h1
    · exact h1
  revert h2
  generalize (if e.kind = .store ∧ e.status = .noSpace then Machine.raiseSpace (Machine.clearPins s)
      else Machine.clearPins s) = t
  intro h2
  split
  · exact h.release _ _ rfl (h.setOwner _ _ (h.join _ _ ‹_› h2))
  · exact h.hold _ _ (Nat.le_of_not_lt ‹_›) h2

theorem finish (h : Closed P) (st : Status) (k l : Nat) (q : Option Nat) (f : Nat) (hs : P s) :
    P (finish st k l q f s) := by
  unfold Machine.finish
  split
  · exact hs
  · exact h.produce _ _ hs

theorem finishPlain (h : Closed P) (st : Status) (hs : P s) : P (finishPlain st s) := h.finish _ _ _ _ _ hs

theorem endFormat (h : Closed P) (st : Status) (hs : P s) : P (endFormat st s) :=
  h.evaluate (h.modReclaimer _ (h.finish _ _ _ _ _ hs))

theorem requestFragment (h : Closed P) (hs : P s) : P (requestFragment s) := by
  unfold Machine.requestFragment
  split
  · exact h.placeWaiting _ _ hs
  · exact hs

theorem requestRetire (h : Closed P) (c : Nat) (hs : P s) : P (requestRetire c s) := h.placeWaiting _ _ hs

theorem startCleaning (h : Closed P) (e : Status) (l : List Nat) (hs : P s) : P (startCleaning e l s) := by
  unfold Machine.startCleaning
  split
  · dsimp only
    split
    · exact h.finishPlain _ (h.setWork _ hs)
    · exact h.requestRetire _ (h.setWork _ hs)
  · exact hs

theorem endOnAnswer (h : Closed P) (a : Answer) (hs : P s) : P (endOnAnswer a s) := by
  unfold Machine.endOnAnswer
  split
  · split
    · exact h.finishPlain _ hs
    · exact hs
  · exact h.finish _ _ _ _ _ hs
  · exact hs

theorem demand (h : Closed P) (hs : P s) : P (demand s) := by
  unfold Machine.demand
  split
  · split
    · exact h.modReclaimer _ (h.startMarking _ hs)
    · exact h.endOnAnswer _ hs
  · exact h.modReclaimer _ hs
  · exact h.modReclaimer _ hs
  · exact h.modReclaimer _ hs
  · exact h.modReclaimer _ hs
  · exact h.endOnAnswer _ hs

theorem reclaimRequest (h : Closed P) (hs : P s) : P (reclaimRequest s) := by
  unfold Machine.reclaimRequest
  split
  · split
    · exact h.modReclaimer _ (h.startMarking _ hs)
    · exact h.endOnAnswer _ hs
  · exact h.modReclaimer _ hs
  · exact h.modReclaimer _ hs
  · exact h.modReclaimer _ hs
  · exact h.modReclaimer _ hs
  · exact h.resumeReclaimer hs

theorem enterHalted (h : Closed P) (c : HaltCause) (hs : P s) : P (enterHalted c s) := by
  unfold Machine.enterHalted
  have h1 := h.haltReclaimer c hs
  dsimp only
  split
  · exact h1
  · exact h.resumeReclaimer h1
  · exact h.endOnAnswer _ (h.modReclaimer _ h1)
  · exact h.endOnAnswer _ (h.modReclaimer _ h1)

theorem assignCells (h : Closed P) (l : List Nat) (hs : P s) : P (assignCells l s) := by
  unfold Machine.assignCells
  split
  · exact h.pinCells _ (h.setWork _ hs)
  · exact hs

theorem startProgramming (h : Closed P) (hs : P s) : P (startProgramming s) := by
  unfold Machine.startProgramming
  split
  · exact h.requestFragment (h.setWork _ hs)
  · exact hs

theorem engineShort (h : Closed P) (hs : P s) : P (engineShort s) := by
  unfold Machine.engineShort
  split
  · split
    · refine h.demand (h.engine _ _ rfl hs)
    · exact h.startCleaning _ _ hs
  · exact hs

theorem requestOpening (h : Closed P) (who : Requester) (hs : P s) : P (requestOpening who s) := by
  unfold Machine.requestOpening
  split
  · exact h.placeWaiting _ _ hs
  · exact hs

theorem dealClaims (h : Closed P) (n : Nat) (hs : P s) : P (dealClaims n s) := by
  induction n generalizing s with
  | zero => exact hs
  | succ n ih =>
    unfold Machine.dealClaims
    split
    · exact hs
    · have hd := h.dropClaim hs
      split
      · split
        · exact ih (h.engineShort hd)
        · split
          · exact ih (h.startProgramming (h.assignCells _ (h.evaluate (h.handOut _ hd))))
          · exact h.requestOpening _ hs
      all_goals
        split
        · exact ih (h.enterHalted _ hd)
        · split
          · exact ih (h.requestCopy (h.assignCopy _ (h.evaluate (h.handOut _ hd))))
          · exact h.requestOpening _ hs

theorem claim (h : Closed P) (who : Requester) (k : Nat) (hs : P s) : P (claim who k s) := by
  unfold Machine.claim
  dsimp only
  split
  · exact h.dealClaims _ (h.appendClaim _ _ hs)
  · exact h.appendClaim _ _ hs

theorem withdrawClaimDeal (h : Closed P) (hs : P s) : P (withdrawClaimDeal s) := by
  unfold Machine.withdrawClaimDeal
  dsimp only
  split
  · exact h.dealClaims _ (h.withdrawClaim hs)
  · exact h.withdrawClaim hs

theorem openingGranted (h : Closed P) (who : Requester) (n : Nat) (hs : P s) : P (openingGranted who n s) := by
  unfold Machine.openingGranted
  split
  · split
    · have h1 := fun k : Nat => h.evaluate (h.openSectorFor k n (h.dropClaim hs))
      dsimp only
      refine h.dealClaims _ ?_
      split
      · exact h.assignCells _ (h1 _)
      · exact h.assignCopy _ (h1 _)
      · exact h.assignCopy _ (h1 _)
    · exact hs
  · exact hs

theorem answerEnded (h : Closed P) (hs : P s) : P (answerEnded s) := by
  unfold Machine.answerEnded
  split
  · split
    · exact h.claim _ _ (h.engine _ _ rfl hs)
    · exact hs
  · exact h.finish _ _ _ _ _ hs
  · exact hs

theorem enterIdle (h : Closed P) (hs : P s) : P (enterIdle s) := by
  unfold Machine.enterIdle
  have h1 := h.modReclaimer (fun r => { r with
    state := .idle, victim := none, cursor := 0, faults := 0, cause := .none, reloc := none, request := .none }) hs
  dsimp only
  split
  · exact h.evaluate h1
  · exact h.evaluate (h.reclaimRequest h1)
  all_goals
    split
    · split
      · exact h.answerEnded (h.evaluate (h.useFree h1))
      · exact h.evaluate (h.answerEnded (h.useFree h1))
    · exact h.evaluate (h.answerEnded h1)

theorem formatExamine (h : Closed P) (n : Nat) (hs : P s) : P (formatExamine n s) := by
  unfold Machine.formatExamine
  split
  · exact h.placeWaiting _ _ (h.setWork _ hs)
  · exact h.endFormat _ (h.rebuildQueue (h.setWork _ hs))

theorem formatClear (h : Closed P) (hs : P s) : P (formatClear s) := by
  unfold Machine.formatClear
  refine h.formatExamine _ (h.engine _ _ rfl (h.table _ _ (fun w => ?_) (fun e r => ?_)
    (h.index _ _ (fun _ => by simp [ascendingKeys]) hs)))
  · exact wf_map s.table clearedRec (fun n r => recOk_clearedRec n r) 32 [] [] le_rfl w
  · exact exact_map s.table clearedRec recExact_clearedRec 32 [] [] (e r)

theorem stopAndTell (h : Closed P) (hs : P s) : P (stopAndTell s) := h.formatClear (h.stopNow hs)

theorem beginStore (h : Closed P) (c : Command) (hs : P s) : P (beginStore c s) := by
  unfold Machine.beginStore
  dsimp only
  split
  · exact h.finishPlain _ hs
  · split
    · exact h.finishPlain _ hs
    · exact h.claim _ _ (h.engine _ _ rfl hs)

theorem beginFetch (h : Closed P) (c : Command) (hs : P s) : P (beginFetch c s) := by
  unfold Machine.beginFetch
  split
  · exact h.finishPlain _ hs
  · exact h.placeEngineRead _ (h.pinCells _ (h.setWork _ hs))

theorem beginDrop (h : Closed P) (c : Command) (hs : P s) : P (beginDrop c s) := by
  unfold Machine.beginDrop
  split
  · exact h.finishPlain _ hs
  · exact h.requestRetire _ (h.pinCells _ (h.setWork _ hs))

theorem beginProbe (h : Closed P) (c : Command) (hs : P s) : P (beginProbe c s) := by
  unfold Machine.beginProbe
  split
  · exact h.finishPlain _ hs
  · exact h.finish _ _ _ _ _ hs

theorem beginNext (h : Closed P) (c : Command) (hs : P s) : P (beginNext c s) := by
  unfold Machine.beginNext
  split
  · exact h.finishPlain _ hs
  · exact h.finish _ _ _ _ _ hs

theorem beginReclaim (h : Closed P) (hs : P s) : P (beginReclaim s) := h.reclaimRequest (h.setWork _ hs)

theorem beginFormat (h : Closed P) (hs : P s) : P (beginFormat s) := by
  unfold Machine.beginFormat
  split
  · exact h.endFormat _ hs
  · have h1 := h.requestStop (h.setWork (.format { erasing := false, next := 0 }) hs)
    dsimp only
    split
    · exact h.formatClear h1
    · exact h1

theorem beginCommand (h : Closed P) (c : Command) (hs : P s) : P (beginCommand c s) := by
  unfold Machine.beginCommand
  have h1 : P (modEngine (fun e => { e with state := .running, cmd := some c, work := .none }) s) :=
    h.engine _ _ rfl hs
  dsimp only
  split
  · exact h.beginStore _ h1
  · exact h.beginFetch _ h1
  · exact h.beginDrop _ h1
  · exact h.beginProbe _ h1
  · exact h.beginNext _ h1
  · exact h.beginReclaim h1
  · exact h.beginFormat h1

theorem takeCommands (h : Closed P) (n : Nat) (hs : P s) : P (takeCommands n s) := by
  induction n generalizing s with
  | zero => exact hs
  | succ n ih =>
    unfold Machine.takeCommands
    split
    · exact hs
    · rename_i c rest hq
      split
      · exact ih (h.beginCommand _ (h.take _ _ _ hq hs))
      · exact hs

theorem takeAll (h : Closed P) (hs : P s) : P (takeAll s) := h.takeCommands _ hs

/-! ### Outcomes the engine takes -/

theorem storeRetireNext (h : Closed P) (hs : P s) : P (storeRetireNext s) := by
  unfold Machine.storeRetireNext
  split
  · split
    · exact h.requestRetire _ (h.setWork _ hs)
    · split
      · exact h.finish _ _ _ _ _ hs
      · exact h.finishPlain _ hs
  · exact hs

theorem commitEvent (h : Closed P) (hs : P s) : P (commitEvent s) := by
  unfold Machine.commitEvent
  split
  · rename_i c w hc hw
    have h1 := h.modCells deadToLive recKeeps_deadToLive w.map
      (h.index _ _ (fun x => upsert_ascending
        { key := c.keyNum, seq := w.seq, len := c.lenNum, count := w.count, map := w.map } s.index x.1) hs)
    dsimp only
    split
    · exact h.finish _ _ _ _ _ (h.evaluate h1)
    · have h2 := fun e : IndexEntry => h.evaluate (h.modCells liveToDead recKeeps_liveToDead e.map h1)
      split
      · exact h.requestRetire _ (h.pinCells _ (h.setWork _ (h2 _)))
      · exact h.finish _ _ _ _ _ (h.pinCells _ (h.setWork _ (h2 _)))
  · exact hs

theorem storeProgramEnded (h : Closed P) (out : ArrayOutcome) (hs : P s) : P (storeProgramEnded out s) := by
  unfold Machine.storeProgramEnded
  split
  · split
    · dsimp only
      split
      · exact h.requestFragment (h.setWork _ hs)
      · exact h.placeWaiting _ _ (h.setWork _ hs)
    · dsimp only
      split
      · exact h.claim _ _ (h.setWork _ hs)
      · exact h.startCleaning _ _ (h.setWork _ hs)
  · exact hs

theorem storeCommitEnded (h : Closed P) (out : ArrayOutcome) (hs : P s) : P (storeCommitEnded out s) := by
  unfold Machine.storeCommitEnded
  split
  · split
    · exact h.commitEvent hs
    all_goals exact h.startCleaning _ _ hs
  · exact hs

theorem dropRetire (h : Closed P) (l r : List Nat) (d : DropWork) (hs : P s) : P (dropRetire l r d s) := by
  unfold Machine.dropRetire
  split
  · exact h.requestRetire _ (h.setWork _ hs)
  · exact h.finish _ _ _ _ _ hs

theorem dropAdvanceEnded (h : Closed P) (c : Nat) (hs : P s) : P (dropAdvanceEnded c s) := by
  unfold Machine.dropAdvanceEnded
  split
  · dsimp only
    split
    all_goals exact h.dropRetire _ _ _ hs
  · exact hs

theorem answerRelocation (h : Closed P) (l : List Nat) (hs : P s) : P (answerRelocation l s) := by
  unfold Machine.answerRelocation
  split
  · split
    · exact h.endRelocation (h.withdrawClaimDeal (h.withdrawRequest hs))
    · exact hs
  · exact hs

theorem dropRemoval (h : Closed P) (hs : P s) : P (dropRemoval s) := by
  unfold Machine.dropRemoval
  split
  · split
    · exact h.answerRelocation _ (h.evaluate (h.pinCells _ (h.setWork _
        (h.modCells _ recKeeps_liveToDead _
          (h.index _ _ (fun x => removeKey_ascending _ _ x.1) hs)))))
    · exact hs
  · exact hs

theorem fetchReadEnded (h : Closed P) (o : ReadOutcome) (hs : P s) : P (fetchReadEnded o s) := by
  unfold Machine.fetchReadEnded
  split
  · split
    · dsimp only
      split
      · exact h.placeEngineRead _ (h.setWork _ (h.writeBytes _ _ _ hs))
      · exact h.finish _ _ _ _ _ (h.setWork _ (h.writeBytes _ _ _ hs))
    · split
      · exact h.finish _ _ _ _ _ hs
      · exact h.placeEngineRead _ (h.setWork _ hs)
  · exact hs

theorem engineCellAdvanceEnded (h : Closed P) (c : Nat) (out : ArrayOutcome) (hs : P s) :
    P (engineCellAdvanceEnded c out s) := by
  unfold Machine.engineCellAdvanceEnded
  split
  · split
    · exact h.storeCommitEnded _ hs
    · exact h.storeRetireNext hs
  · exact h.dropAdvanceEnded _ hs
  · exact hs

theorem engineHeaderAdvanceEnded (h : Closed P) (n : Nat) (out : ArrayOutcome) (hs : P s) :
    P (engineHeaderAdvanceEnded n out s) := by
  unfold Machine.engineHeaderAdvanceEnded
  split
  · exact h.startProgramming hs
  · refine h.formatExamine _ ?_
    split
    · exact h.makeWorn _ hs
    · exact hs
  · exact hs

theorem engineEraseEnded (h : Closed P) (n : Nat) (hs : P s) : P (engineEraseEnded n s) := by
  unfold Machine.engineEraseEnded
  split
  · exact h.formatExamine _ hs
  · exact hs

/-! ### Outcomes the Reclaimer takes -/

theorem reclaimerReadEnded (h : Closed P) (o : ReadOutcome) (hs : P s) : P (reclaimerReadEnded o s) := by
  unfold Machine.reclaimerReadEnded
  split
  · exact h.stopAndTell hs
  · exact h.claim _ _ (h.modReclaimer _ hs)

theorem retireCopy (h : Closed P) (c : Nat) (hs : P s) : P (retireCopy c s) := h.placeWaiting _ _ (h.modReclaimer _ hs)

theorem reclaimerProgramEnded (h : Closed P) (out : ArrayOutcome) (hs : P s) : P (reclaimerProgramEnded out s) := by
  unfold Machine.reclaimerProgramEnded
  split
  · split
    · have h1 := fun (c src : Nat) (o : ReadOutcome) => h.conditionalUpdate c src o hs
      dsimp only
      split
      · exact h.stopAndTell (h1 _ _ _)
      · split
        · exact h.endRelocation (h1 _ _ _)
        · exact h.retireCopy _ (h1 _ _ _)
    · have h1 := fun f : Reclaimer → Reclaimer => h.modReclaimer f hs
      dsimp only
      split
      · split
        · exact h.stopAndTell (h1 _)
        · exact h.claim _ _ (h1 _)
      · split
        · exact h.stopAndTell (h.haltReclaimer _ (h1 _))
        · exact h.enterHalted _ (h1 _)
  · split
    · exact h.stopAndTell hs
    · exact hs

theorem reclaimerCellAdvanceEnded (h : Closed P) (hs : P s) : P (reclaimerCellAdvanceEnded s) := by
  unfold Machine.reclaimerCellAdvanceEnded
  split
  · exact h.stopAndTell hs
  · exact h.endRelocation hs

theorem reclaimerHeaderAdvanceEnded (h : Closed P) (n : Nat) (t : SectorState) (out : ArrayOutcome) (hs : P s) :
    P (reclaimerHeaderAdvanceEnded n t out s) := by
  unfold Machine.reclaimerHeaderAdvanceEnded
  split
  · have h1 : P (if out = .notAdvanced then Machine.makeWorn n s else s) := by
      split
      · exact h.makeWorn _ hs
      · exact hs
    revert h1
    generalize (if out = .notAdvanced then Machine.makeWorn n s else s) = t
    intro h1
    dsimp only
    split
    · exact h.stopAndTell h1
    · exact h.enterIdle h1
  · split
    · exact h.stopAndTell hs
    · exact h.reachCursor (h.modReclaimer _ hs)
  all_goals
    split
    · exact h.stopAndTell hs
    · exact h.requestCopy hs

theorem reclaimerEraseEnded (h : Closed P) (hs : P s) : P (reclaimerEraseEnded s) := by
  unfold Machine.reclaimerEraseEnded
  split
  · exact h.stopAndTell hs
  · exact h.enterIdle hs

theorem takeOver (h : Closed P) (v : Nat) (hs : P s) : P (takeOver v s) := by
  unfold Machine.takeOver
  have h1 := h.modReclaimer (fun r => { r with
    victim := some v, cursor := 0, faults := 0, cause := .none, state := .moving }) hs
  dsimp only
  split
  · exact h.drainStep (h.modReclaimer _ h1)
  · exact h.reachCursor h1

end Closed

end Sys2Proof.Machine
end

