-- ==== Sys2Proof/Laws/ScanClosure.lean ====
section
/-! SUPPORT. Laws/ScanClosure.lean: a `Closed` property survives every action of the Recovery Scanner; the live
generations it chooses stand in ascending key order. -/

namespace Sys2Proof.Machine

variable {P : State → Prop} {s : State}

/-! ### The generations chosen (R178, R180) -/

theorem ascending_sorted (l : List Nat) : (ascending l).Pairwise (· < ·) := by
  unfold ascending
  have h1 : (List.insertionSort (· ≤ ·) l.dedup).Pairwise (· ≤ ·) := List.pairwise_insertionSort _ _
  have h2 : (List.insertionSort (· ≤ ·) l.dedup).Nodup :=
    (List.perm_insertionSort (· ≤ ·) l.dedup).nodup_iff.mpr (List.nodup_dedup l)
  exact (h1.and h2).imp fun h => lt_of_le_of_ne h.1 h.2

theorem mem_groupOf (k q : Nat) (ms : List Member) (m : Member) (hm : m ∈ groupOf k q ms) : m.key = k := by
  unfold groupOf sortMembers at hm
  have := ((List.perm_insertionSort _ _).mem_iff.mp hm)
  simp only [List.mem_filter, decide_eq_true_eq] at this
  exact this.2.1

theorem completeEntry_key (k q : Nat) (ms : List Member) (e : IndexEntry)
    (h : completeEntry (groupOf k q ms) = some e) : e.key = k := by
  unfold completeEntry at h
  split at h
  · cases h
  · rename_i m hm
    simp only [Option.map_eq_some_iff] at h
    obtain ⟨map, -, rfl⟩ := h
    exact mem_groupOf k q ms m (List.mem_of_find?_eq_some hm)

theorem liveGeneration_key (k : Nat) (ms : List Member) (e : IndexEntry) (h : liveGeneration k ms = some e) :
    e.key = k := by
  unfold liveGeneration at h
  obtain ⟨q, -, hq⟩ := List.exists_of_findSome?_eq_some h
  exact completeEntry_key k q ms e hq

theorem chosen_ascending (keys : List Nat) (f : Nat → Option IndexEntry) (hk : keys.Pairwise (· < ·))
    (hf : ∀ k e, f k = some e → e.key = k) (n : Nat) : ascendingKeys ((keys.filterMap f).take n) := by
  refine List.Pairwise.sublist (List.Sublist.map _ (List.take_sublist n _)) ?_
  rw [List.pairwise_map, List.pairwise_filterMap]
  refine hk.imp fun hab e he e' he' => ?_
  rw [hf _ _ he, hf _ _ he']
  exact hab

namespace Closed

/-- An update of the scanner that keeps the ring and the generations chosen. -/
theorem modScanner (h : Closed P) (f : Scanner → Scanner) (h1 : (f s.scanner).ring = s.scanner.ring)
    (h2 : (f s.scanner).lost = s.scanner.lost) (h3 : (f s.scanner).chosen = s.scanner.chosen) (hs : P s) :
    P (modScanner f s) := h.scanner _ _ h1 h2 (fun w => by rw [h3]; exact w.2) hs

theorem scanHandOver (h : Closed P) (hs : P s) : P (scanHandOver s) := by
  unfold Machine.scanHandOver
  split
  · exact h.reportNumber _ _ (h.takeOver _ (h.modRec _ _ (fun _ => ⟨id, id⟩) hs))
  · exact h.evaluate hs

theorem scanReady (h : Closed P) (hs : P s) (hx : s.table.exact) : P (scanReady s) := by
  unfold Machine.scanReady
  refine h.scanHandOver (h.raiseReady (h.scanner _ _ rfl rfl (fun _ => ?_) (h.power _ _ (fun _ _ => hx) hs)))
  simp [resetScanner, ascendingKeys]

theorem afterLastUsed_le (n : Nat) (found : List CellFound) : afterLastUsed n found ≤ 32 := by
  unfold afterLastUsed
  have : ∀ (l : List CellFound) (m : Nat), m ≤ 32 →
      l.foldl (fun m f => if sectorOf f.cell = n then max m (f.cell % 32 + 1) else m) m ≤ 32 := by
    intro l
    induction l with
    | nil => exact fun m hm => hm
    | cons f t ih =>
      intro m hm
      refine ih _ ?_
      dsimp only
      split <;> omega
  exact this found 0 (Nat.zero_le _)

theorem rebuildQueue_exact (s : State) (hx : s.table.exact) : (Machine.rebuildQueue s).table.exact := by
  unfold Machine.rebuildQueue
  show SectorTable.exact { (List.foldl _ s _).table with queue := _ }
  generalize rebuildOrder s = l
  have : ∀ (l : List Nat) (t : State), t.table.exact → (l.foldl (fun s n => Machine.modRec n (fun r => { r with
      role := .readyQueued, blank := 32, live := 0, dead := 0, faultyCount := 0, faulty := [] }) s) t).table.exact := by
    intro l
    induction l with
    | nil => exact fun t ht => ht
    | cons n l ih => exact fun t ht => ih _ (exact_modify t.table n _ (fun _ _ => rfl) ht)
  exact this l s hx

theorem scanAllocation (h : Closed P) (hs : P s) : P (scanAllocation s) := by
  unfold Machine.scanAllocation
  have key : ∀ (o : Option Nat) (k : Nat) (q : List Nat) (cl : List Claim), ({ s.table with
      recs := s.table.recs.mapIdx fun n r => countedRec s.index o k n r, cursor := k, queue := q,
      claims := cl } : SectorTable).exact := fun o k q cl => exact_of_mem _ fun r hr => by
    obtain ⟨i, hi, rfl⟩ := List.getElem_of_mem hr
    rw [List.getElem_mapIdx]
    exact recExact_countedRec _ _ _ _ _
  refine h.scanReady (h.rebuildQueue (h.table _ _ (fun w => ?_) (fun _ _ => key _ _ _ _) hs))
    (rebuildQueue_exact _ (key _ _ _ _))
  refine wf_mapIdx s.table _ (fun n r hr => recOk_countedRec n _ _ _ r hr) _ _ _ ?_ w
  split
  · exact afterLastUsed_le _ _
  · exact le_rfl

theorem scanSectors (h : Closed P) (n : Nat) (hs : P s) : P (scanSectors n s) := by
  unfold Machine.scanSectors
  split
  · exact h.placeWaiting _ _ (h.modScanner _ rfl rfl rfl hs)
  · exact h.scanAllocation hs

theorem scanEraseEnded (h : Closed P) (n : Nat) (out : ArrayOutcome) (hs : P s) : P (scanEraseEnded n out s) := by
  unfold Machine.scanEraseEnded
  refine h.scanSectors _ ?_
  split
  · exact h.reportNumber _ _ (h.reportNumber _ _ hs)
  · exact h.reportNumber _ _ hs

theorem scanRestoreEnded (h : Closed P) (n : Nat) (out : ArrayOutcome) (hs : P s) : P (scanRestoreEnded n out s) := by
  unfold Machine.scanRestoreEnded
  refine h.scanSectors _ ?_
  split
  · exact h.reportNumber _ _ hs
  · exact h.reportNumber _ _ hs

theorem scanHeaderAdvanceEnded (h : Closed P) (n : Nat) (t : SectorState) (out : ArrayOutcome) (hs : P s) :
    P (scanHeaderAdvanceEnded n t out s) := by
  unfold Machine.scanHeaderAdvanceEnded
  split
  · refine h.scanSectors _ (h.reportNumber _ _ ?_)
    split
    · exact h.makeWorn _ hs
    · exact hs
  all_goals
    refine h.scanSectors _ ?_
    split
    · exact h.reportNumber _ _ (h.reportNumber _ _ hs)
    · exact h.reportNumber _ _ hs

theorem scanIndex (h : Closed P) (hs : P s) : P (scanIndex s) :=
  h.scanSectors _ (h.engine _ _ rfl (h.index _ _ (fun w => w.2) hs))

theorem scanRetire (h : Closed P) (hs : P s) : P (scanRetire s) := by
  unfold Machine.scanRetire
  split
  · exact h.placeWaiting _ _ (h.modScanner _ rfl rfl rfl hs)
  · exact h.scanIndex hs

theorem scanCellAdvanceEnded (h : Closed P) (c : Nat) (t : CellState) (out : ArrayOutcome) (hs : P s) :
    P (scanCellAdvanceEnded c t out s) := by
  unfold Machine.scanCellAdvanceEnded
  have h1 : P (if out = .done ∧ t = .faulty then Machine.cellFailed c s else s) := by
    split
    · exact h.cellFailed _ hs
    · exact hs
  refine h.scanRetire (h.modScanner _ rfl rfl rfl ?_)
  split
  · exact h.reportNumber _ _ h1
  · exact h1

theorem reports (h : Closed P) (l : List Report) (hs : P s) : P (l.foldl (fun s r => Machine.report r s) s) := by
  induction l generalizing s with
  | nil => exact hs
  | cons r t ih => exact ih (h.report _ _ hs)

theorem keepChosen (h : Closed P) (r : List (Nat × CellState)) (l : List IndexEntry) (hl : ascendingKeys l) (hs : P s) :
    P (Machine.modScanner (fun x => { x with retire := r, chosen := l }) s) := h.scanner _ _ rfl rfl (fun _ => hl) hs

theorem scanRecords (h : Closed P) (hs : P s) : P (scanRecords s) := by
  unfold Machine.scanRecords
  extract_lets all unmarked s1 kept out ms keys settled live excess rs retire
  have h1 : P s1 := by
    revert s1
    cases unmarked with
    | some n => exact h.modRec _ _ (fun _ => ⟨id, id⟩) hs
    | none => exact hs
  have h2 : P (rs.foldl (fun s r => Machine.report r s) s1) := h.reports rs h1
  have h3 : ascendingKeys (live.take Config.indexCapacity) :=
    chosen_ascending keys _ (ascending_sorted _) (fun k e he => liveGeneration_key k ms e he) _
  exact h.scanRetire (h.keepChosen _ _ h3 h2)

theorem wornReports (h : Closed P) (l : List Nat) (hs : P s) :
    P (l.foldl (fun s n => Machine.reportNumber .recoveryFault (1024 + n) (Machine.makeWorn n s)) s) := by
  induction l generalizing s with
  | nil => exact hs
  | cons n t ih => exact ih (h.reportNumber _ _ (h.makeWorn _ hs))

theorem settleReclaiming (h : Closed P) (hs : P s) : P (settleReclaiming s) := by
  unfold Machine.settleReclaiming
  split
  · exact h.wornReports _ hs
  · exact hs

theorem scanCells (h : Closed P) (c : Nat) (hs : P s) : P (scanCells c s) := by
  unfold Machine.scanCells
  split
  · exact h.placeWaiting _ _ (h.modScanner _ rfl rfl rfl hs)
  · exact h.scanRecords (h.settleReclaiming hs)

theorem scanReadEnded (h : Closed P) (c : Nat) (o : ReadOutcome) (hs : P s) : P (scanReadEnded c o s) := by
  unfold Machine.scanReadEnded
  split
  · exact h.scanCells _ hs
  · have h1 := h.modScanner (fun x => { x with
      found := x.found ++ [{ cell := c, cond := o.cond, state := o.state, header := o.header }] }) rfl rfl rfl hs
    refine h.scanCells _ ?_
    split
    · refine h.modRec _ _ (fun _ => ⟨id, id⟩) ?_
      split
      · exact h.cellFailed _ h1
      · split
        · exact h.reportNumber _ _ h1
        · exact h1
    · split
      · exact h.cellFailed _ h1
      · split
        · exact h.reportNumber _ _ h1
        · exact h1

theorem scanEpoch (h : Closed P) (hs : P s) : P (scanEpoch s) := by
  unfold Machine.scanEpoch
  refine h.scanCells _ (h.engine _ _ rfl (h.table _ _ (fun w => ?_) (fun e r => ?_) hs))
  · exact wf_mapIdx s.table _ (fun n r hr => recOk_epochRec n _ _ r hr) _ _ _ w.2.2.1 w
  · exact exact_mapIdx s.table _ (fun n r hr => recExact_epochRec _ _ r hr) _ _ _ (e r)

theorem scanHeader (h : Closed P) (n : Nat) (hs : P s) : P (scanHeader n s) :=
  h.placeWaiting _ _ (h.modScanner _ rfl rfl rfl hs)

theorem scanHeaderEnded (h : Closed P) (n : Nat) (f : HeaderFound) (hs : P s) : P (scanHeaderEnded n f s) := by
  unfold Machine.scanHeaderEnded
  have h1 := h.modRec n _ (recKeeps_headerRec n f) hs
  have h2 := h.modScanner (fun c => { c with headers := c.headers.set n f }) rfl rfl rfl h1
  dsimp only
  split
  · exact h.scanHeader _ h2
  · exact h.scanEpoch h2

end Closed

end Sys2Proof.Machine
end

