-- ==== Sys2Proof/Laws/EventClosure.lean ====
section
/-! SUPPORT. Laws/EventClosure.lean: a property that survives the updates of the array and of the host's blocks as well
survives every command (`ClosedHost.exec`) and every step but for the queue of waiting commands. -/

namespace Sys2Proof.Machine

/-- `P` survives the erase mark, the one change of the array that a grant makes. -/
structure ClosedPort (P : State → Prop) : Prop extends Closed P where
  mark : ∀ (s : State) (n : Nat), P s → P (s.setArray (s.array.eraseMark n))

/-- `P` survives an update of the array that keeps its canonical form. -/
structure ClosedArray (P : State → Prop) : Prop extends ClosedPort P where
  array : ∀ (s : State) (x : CellArray), (s.array.wf → x.wf) → P s → P (s.setArray x)

/-- `P` survives each update that a command of the host, a reset or a pin makes. -/
structure ClosedHost (P : State → Prop) : Prop extends ClosedArray P where
  port : ∀ (s : State) (x : Port), P s → P (s.setPort x)
  pfw : ∀ (s : State) (x : PowerFail), P s → P (s.setPfw x)
  settings : ∀ (s : State) (x : Settings), (s.settings.wf → x.wf) → P s → P (s.setSettings x)
  mask : ∀ (s : State) (x : Interrupts), (s.irq.wf → x.wf) → P s → P (s.setIrq x)
  cmds : ∀ (s : State) (x : CommandQueue), x.queue.length ≤ s.cmds.queue.length → P s → P (s.setCmds x)
  fields : ∀ (s : State) (x : CommandQueue), x.queue.length ≤ Config.queueCapacity → P s → P (s.setCmds x)
  shift : ∀ (s : State) (x : List Completion), x.length = s.comps.length → P s → P (s.setComps x)
  drop : ∀ (s : State) (x : List Completion), s.engine.held = none → x.length ≤ s.comps.length → P s → P (s.setComps x)
  popReport : ∀ (s : State) (x : Scanner), x.ring.length ≤ s.scanner.ring.length → x.lost ≤ s.scanner.lost →
    (indexOk s → ascendingKeys x.chosen) → P s → P (s.setScanner x)

variable {P : State → Prop} {s : State}

namespace ClosedPort

theorem grantEffect (h : ClosedPort P) (who : Requester) (op : ArrayOp) (hs : P s) : P (grantEffect who op s) := by
  unfold Machine.grantEffect
  split
  · exact h.openingGranted _ _ hs
  · exact h.openingGranted _ _ hs
  · exact h.modRec _ _ (fun _ => ⟨id, id⟩) hs
  · exact h.dropRemoval hs
  · exact h.mark _ _ hs
  · exact hs

theorem grant (h : ClosedPort P) (who : Requester) (op : ArrayOp) (hs : P s) : P (grant who op s) :=
  h.grantEffect _ _ (h.ctl _ _ (.inl (le_of_eq (Closed.setWaiting_pass s.ctl who none))) hs)

theorem grantReclaimer (h : ClosedPort P) (op : ArrayOp) (hs : P s) : P (grantReclaimer op s) :=
  h.grant _ _ (h.ctl _ _ (.inr (Nat.zero_le _)) hs)

theorem arbitrate (h : ClosedPort P) (hs : P s) : P (arbitrate s) := by
  unfold Machine.arbitrate
  split
  · exact h.grant _ _ hs
  · split
    · exact h.grantReclaimer _ hs
    · rename_i hr
      refine h.grant _ _ (h.ctl _ _ (.inr ?_) hs)
      simp only [reclaimerFirst, Bool.or_eq_true, decide_eq_true_eq, not_or, not_le] at hr
      exact hr.2
  · exact h.grant _ _ hs
  · exact h.grantReclaimer _ hs
  · exact hs

theorem freePoint (h : ClosedPort P) (hs : P s) : P (freePoint s) := by
  unfold Machine.freePoint
  split
  · exact hs
  · unfold continueSuspension
    split
    · exact h.grant _ _ hs
    · exact h.ctl _ _ (.inl le_rfl) hs
  · exact h.arbitrate hs

theorem arrive (h : ClosedPort P) (hs : P s) : P (arrive s) := by
  unfold Machine.arrive
  split
  · split
    · exact h.grant _ _ hs
    · split
      · exact h.grant _ _ (h.useFree hs)
      · exact h.grantReclaimer _ (h.useFree hs)
    · exact h.grant _ _ hs
    · exact h.grantReclaimer _ hs
    · exact hs
  · exact hs

theorem settleFree (h : ClosedPort P) (hs : P s) : P (settleFree s) := h.takeAll (h.freePoint (h.takeAll hs))

theorem settle (h : ClosedPort P) (hs : P s) : P (settle s) := h.takeAll (h.arrive (h.takeAll hs))

theorem portReleased (h : ClosedPort P) (hs : P s) : P (portReleased s) := h.ctl _ _ (.inl le_rfl) hs

end ClosedPort

namespace ClosedArray

theorem endRead (h : ClosedArray P) (who : Requester) (c : Nat) (hs : P s) : P (endRead who c s) := by
  unfold Machine.endRead
  dsimp only
  split
  · exact h.fetchReadEnded _ (h.portReleased hs)
  · exact h.reclaimerReadEnded _ (h.portReleased hs)
  · exact h.scanReadEnded _ _ (h.portReleased hs)

theorem tableCell (h : ClosedArray P) (c : Nat) (out : ArrayOutcome) (hs : P s) : P (tableCell c out s) := by
  unfold Machine.tableCell
  split
  · exact h.evaluate (h.cellFailed _ hs)
  · exact hs

theorem tableHeader (h : ClosedArray P) (n : Nat) (t : SectorState) (out : ArrayOutcome) (hs : P s) :
    P (tableHeader n t out s) := by
  unfold Machine.tableHeader
  split
  · exact h.evaluate (h.headerAdvanced _ _ hs)
  · exact hs

theorem endProgram (h : ClosedArray P) (who : Requester) (p : Program) (r : ProgramResult) (hs : P s) :
    P (endProgram who p r s) := by
  unfold Machine.endProgram
  have key : ∀ (b : Prop) [Decidable b], P ((if b then Machine.useFree (Machine.portReleased s)
      else Machine.portReleased s).setArray (s.array.endProgram p r (Config.programResidue s.free)).1) := by
    intro b _
    split
    · exact h.array _ _ (CellArray.endProgram_wf _ _ _ _) (h.useFree (h.portReleased hs))
    · exact h.array _ _ (CellArray.endProgram_wf _ _ _ _) (h.portReleased hs)
  dsimp only
  split
  · exact h.storeProgramEnded _ (h.tableCell _ _ (key _))
  · exact h.reclaimerProgramEnded _ (h.tableCell _ _ (key _))
  · exact h.tableCell _ _ (key _)

theorem endCellAdvance (h : ClosedArray P) (who : Requester) (c : Nat) (t : CellState) (r : AdvanceResult)
    (hs : P s) : P (endCellAdvance who c t r s) := by
  unfold Machine.endCellAdvance
  have key := h.array (Machine.portReleased s) _ (CellArray.endCellAdvance_wf s.array c t r) (h.portReleased hs)
  dsimp only
  split
  · exact h.engineCellAdvanceEnded _ _ (h.tableCell _ _ key)
  · exact h.reclaimerCellAdvanceEnded (h.tableCell _ _ key)
  · exact h.scanCellAdvanceEnded _ _ _ (h.tableCell _ _ key)

theorem endHeaderAdvance (h : ClosedArray P) (who : Requester) (n : Nat) (t : SectorState) (r : AdvanceResult)
    (hs : P s) : P (endHeaderAdvance who n t r s) := by
  unfold Machine.endHeaderAdvance
  have key := h.array (Machine.portReleased s) _ (CellArray.endHeaderAdvance_wf s.array n t r) (h.portReleased hs)
  dsimp only
  split
  · exact h.engineHeaderAdvanceEnded _ _ (h.tableHeader _ _ _ key)
  · exact h.reclaimerHeaderAdvanceEnded _ _ _ (h.tableHeader _ _ _ key)
  · exact h.scanHeaderAdvanceEnded _ _ _ (h.tableHeader _ _ _ key)

theorem endErase (h : ClosedArray P) (who : Requester) (b : Bool) (n epoch erases : Nat) (v : Bool) (r : EraseResult)
    (hs : P s) : P (endErase who b n epoch erases v r s) := by
  unfold Machine.endErase
  have key := h.array (Machine.portReleased s) _ (CellArray.endHeaderPhase_wf s.array n epoch erases v r) (h.portReleased hs)
  dsimp only
  have k2 := fun o => h.evaluate (h.eraseEnded who n epoch erases o key)
  split
  · exact h.engineEraseEnded _ (k2 _)
  · exact h.reclaimerEraseEnded (k2 _)
  · split
    · exact h.scanRestoreEnded _ _ (k2 _)
    · exact h.scanEraseEnded _ _ (k2 _)

theorem deliverAbandoned (h : ClosedArray P) (o : Operation) (hs : P s) : P (deliverAbandoned o s) := by
  unfold Machine.deliverAbandoned
  split
  · have k := fun n epoch erases => h.eraseEnded o.who n epoch erases .abandoned hs
    dsimp only
    split
    · split
      · exact h.stopAndTell (k _ _ _)
      · exact h.placeWaiting _ _ (k _ _ _)
    · exact h.placeWaiting _ _ (k _ _ _)
    · exact h.placeWaiting _ _ (k _ _ _)
  all_goals exact hs

theorem disturb (h : ClosedArray P) (o : Operation) (hs : P s) : P (disturb o s) := by
  unfold Machine.disturb
  split
  · exact h.useFree (h.array _ _ (CellArray.disturbSector_wf _ _ _) hs)
  · exact hs

theorem abandonErase (h : ClosedArray P) (hs : P s) : P (abandonErase s) := by
  unfold Machine.abandonErase
  split
  · exact h.deliverAbandoned _ (h.disturb _ (h.ctl _ _ (.inl le_rfl) hs))
  · split
    · exact h.deliverAbandoned _ (h.disturb _ (h.portReleased hs))
    · exact hs
  · exact hs

theorem enterQuiesce (h : ClosedArray P) (hs : P s) : P (enterQuiesce s) :=
  h.abandonErase (h.ctl _ _ (.inl le_rfl) hs)

theorem leaveQuiesce (h : ClosedArray P) (hs : P s) : P (leaveQuiesce s) := h.ctl _ _ (.inl le_rfl) hs

theorem cutOne (h : ClosedArray P) (o : Option Operation) (hs : P s) : P (cutOne o s) := by
  unfold Machine.cutOne
  split
  · exact h.useFree (h.array _ _ (CellArray.cut_wf _ _ _) hs)
  · exact hs

theorem cutOperations (h : ClosedArray P) (hs : P s) : P (cutOperations s) := h.cutOne _ (h.cutOne _ hs)

end ClosedArray

namespace ClosedHost

/-! ### Resets -/

theorem resetBlocks (h : ClosedHost P) (c : StartCause) (x : Settings) (m : Byte) (a b : List Byte)
    (hx : s.settings.wf → x.wf) (hm : s.irq.wf → m &&& 0xC0 = 0)
    (hb : s.staging.wf → a.length = Config.bufferBytes ∧ b.length = Config.bufferBytes) (hs : P s) :
    P (resetBlocks c x m a b s) := by
  unfold Machine.resetBlocks
  dsimp only
  have h4 := h.release _ resetEngine rfl (h.index _ [] (fun _ => by simp [ascendingKeys])
    (h.table _ resetTable (fun _ => resetTable_wf) (fun _ _ => resetTable_exact) (h.ctl s (resetController false) (.inr (Nat.zero_le _)) hs)))
  have h7 := h.drop _ [] rfl (Nat.zero_le _)
    (h.cmds _ resetCommands (Nat.zero_le _) (h.reclaimer _ resetReclaimer h4))
  have h8 := h.staging _ (resetStaging a b) (fun w => by
    simp only [State.setComps_staging, State.setCmds_staging, State.setReclaimer_staging, State.setEngine_staging,
      State.setIndex_staging, State.setTable_staging, State.setCtl_staging] at w
    exact hb w) h7
  have h9 := h.popReport _ (resetScanner c) (Nat.zero_le _) (Nat.zero_le _)
    (fun _ => by simp [resetScanner, ascendingKeys]) h8
  refine h.settings _ _ (fun w => ?_) (h.mask _ _ (fun w => ?_) (h.port _ _ h9))
  · simp only [State.setIrq_settings, State.setPort_settings, State.setScanner_settings, State.setStaging_settings,
      State.setComps_settings, State.setCmds_settings, State.setReclaimer_settings, State.setEngine_settings,
      State.setIndex_settings, State.setTable_settings, State.setCtl_settings] at w
    exact hx w
  · simp only [State.setPort_irq, State.setScanner_irq, State.setStaging_irq,
      State.setComps_irq, State.setCmds_irq, State.setReclaimer_irq, State.setEngine_irq,
      State.setIndex_irq, State.setTable_irq, State.setCtl_irq] at w
    exact hm w

theorem resetSettings_wf : resetSettings.wf := by decide

theorem powerOnBytes_length (u f : Nat) : (powerOnBytes u f).length = Config.bufferBytes := by simp [powerOnBytes]

theorem beginPowerOn (h : ClosedHost P) (hs : P s) : P (beginPowerOn s) :=
  h.power _ _ (fun _ e => (Bool.false_ne_true e).elim) (h.resetBlocks _ _ _ _ _ (fun _ => resetSettings_wf) (fun _ => by decide)
    (fun _ => ⟨powerOnBytes_length _ _, powerOnBytes_length _ _⟩) (h.useFree (h.cutOperations hs)))

theorem cutOne_keeps (o : Option Operation) (s : State) :
    (Machine.cutOne o s).staging = s.staging ∧ (Machine.cutOne o s).settings = s.settings ∧
      (Machine.cutOne o s).irq = s.irq := by
  unfold Machine.cutOne
  split <;> exact ⟨rfl, rfl, rfl⟩

theorem cutOperations_keeps (s : State) :
    (Machine.cutOperations s).staging = s.staging ∧ (Machine.cutOperations s).settings = s.settings ∧
      (Machine.cutOperations s).irq = s.irq := by
  unfold Machine.cutOperations
  have h1 := cutOne_keeps s.ctl.op s
  have h2 := cutOne_keeps s.ctl.paused (Machine.cutOne s.ctl.op s)
  exact ⟨h2.1.trans h1.1, h2.2.1.trans h1.2.1, h2.2.2.trans h1.2.2⟩

theorem beginPin (h : ClosedHost P) (hs : P s) : P (beginPin s) := by
  unfold Machine.beginPin
  have k := cutOperations_keeps s
  split
  · exact h.power _ _ (fun _ e => (Bool.false_ne_true e).elim) (h.resetBlocks _ _ _ _ _ (fun _ => resetSettings_wf) (fun _ => by decide)
      (fun w => by rw [k.1] at w; exact w) (h.cutOperations hs))
  · dsimp only
    split
    · exact h.scanner _ _ rfl rfl (fun w => w.2) (h.power _ _ id hs)
    · exact h.power _ _ id hs

theorem beginSoft (h : ClosedHost P) (hs : P s) : P (beginSoft s) := by
  have k := cutOperations_keeps s
  exact h.power _ _ (fun _ e => (Bool.false_ne_true e).elim) (h.resetBlocks _ _ _ _ _ (fun w => by rw [k.2.1] at w; exact w)
    (fun w => by rw [k.2.2] at w; exact w) (fun w => by rw [k.1] at w; exact w) (h.cutOperations hs))

theorem endHold (h : ClosedHost P) (hs : P s) : P (endHold s) := by
  unfold Machine.endHold
  split
  · exact h.settle (h.scanHeader _ (h.ctl _ _ (.inl le_rfl) (h.pfw _ _ hs)))
  · exact hs

theorem loseSupply (h : ClosedHost P) (hs : P s) : P (loseSupply s) :=
  h.power _ _ (fun _ e => (Bool.false_ne_true e).elim) (h.port _ _ (h.ctl _ _ (.inr (Nat.zero_le _)) (h.cutOperations hs)))

/-! ### The host's events -/

theorem submit (h : ClosedHost P) (v : Byte) (hs : P s) : P (submit v s) := by
  unfold Machine.submit
  have h1 := h.cmds s { s.cmds with submitResult := (submitCheck v s).code } le_rfl hs
  dsimp only
  split
  · rename_i k hc hk
    refine h.settle (h.setOwner _ _ (h.fields _ _ ?_ h1))
    have hq : ¬ Config.queueCapacity ≤ s.cmds.queue.length := by
      intro hle
      unfold submitCheck at hc
      rw [hk] at hc
      split at hc
      · cases hc
      · simp only at hc
        cases hc
    show (s.cmds.queue ++ [_]).length ≤ _
    rw [List.length_append]
    simp only [List.length_singleton]
    omega
  · exact h1

theorem cancel (h : ClosedHost P) (tag : Byte) (hs : P s) : P (cancel tag s) := by
  unfold Machine.cancel
  have h1 := h.cmds s { s.cmds with cancelResult := (cancelCheck tag s).code } le_rfl hs
  dsimp only
  split
  · rename_i c hc hf
    have hroom : s.comps.length < Config.completionCapacity := by
      unfold cancelCheck at hc
      split at hc
      · cases hc
      · split at hc
        · cases hc
        · split at hc
          · cases hc
          · omega
    exact h.setOwner _ _ (h.join _ _ hroom (h.cmds _ _ (List.length_filter_le _ _) h1))
  · exact h1

theorem popCompletion (h : ClosedHost P) (hs : P s) : P (popCompletion s) := by
  unfold Machine.popCompletion
  split
  · exact hs
  · rename_i e rest hc
    split
    · exact h.settle (h.release _ _ rfl (h.setOwner _ _ (h.shift _ _ (by simp [hc]) hs)))
    · rename_i hn
      exact h.drop _ _ hn (by simp [hc]) hs

theorem popReport' (h : ClosedHost P) (hs : P s) : P (Machine.popReport s) :=
  h.popReport _ _ (by simp) le_rfl (fun w => w.2) hs

theorem advanceOffset (h : ClosedHost P) (hs : P s) : P (advanceOffset s) := h.staging _ _ id hs

theorem writeBufData (h : ClosedHost P) (v : Byte) (hs : P s) : P (writeBufData v s) := by
  unfold Machine.writeBufData
  dsimp only
  split
  · refine h.advanceOffset (h.staging _ _ (fun w => ?_) hs)
    unfold Staging.setBytes Staging.bytes
    cases s.staging.select
    · exact ⟨by simpa using w.1, w.2⟩
    · exact ⟨w.1, by simpa using w.2⟩
  · exact h.advanceOffset (h.staging _ _ id hs)

theorem readBufData (h : ClosedHost P) (hs : P s) : P (readBufData s).2 := by
  unfold Machine.readBufData
  dsimp only
  split
  · exact h.advanceOffset hs
  · exact h.advanceOffset (h.staging _ _ id hs)

theorem writeConfig (h : ClosedHost P) (v : Byte) (hs : P s) : P (writeConfig v s) := by
  unfold Machine.writeConfig
  dsimp only
  split
  · exact hs
  · exact h.settle (h.evaluate (h.settings _ _ id hs))

theorem clampLow_bounds (n : Nat) : 32 ≤ clampLow n ∧ clampLow n ≤ 1024 := by
  unfold clampLow
  omega

theorem storeReclaimLow (h : ClosedHost P) (n : Nat) (hs : P s) : P (storeReclaimLow n s) := by
  unfold Machine.storeReclaimLow
  split
  · exact hs
  · exact h.settle (h.evaluate (h.settings _ _ (fun _ => clampLow_bounds n) hs))

theorem storeSectorSel (h : ClosedHost P) (v : Byte) (hs : P s) : P (storeSectorSel v s) :=
  h.table _ _ (fun w => ⟨w.1, w.2.1, w.2.2.1, Nat.min_le_right _ _⟩) id hs

theorem storeMask (h : ClosedHost P) (v : Byte) (hs : P s) : P (storeMask v s) :=
  h.mask _ _ (fun _ => by
    show v &&& 0x3F &&& 0xC0 = 0
    rw [BitVec.and_assoc]
    exact BitVec.and_zero) hs

theorem modPort (h : ClosedHost P) (f : Port → Port) (hs : P s) : P (modPort f s) := h.port _ _ hs

theorem writeBank0 (h : ClosedHost P) (a : RegAddr) (v : Byte) (hs : P s) : P (writeBank0 a v s) := by
  unfold Machine.writeBank0
  split
  · unfold writeControl
    split
    · exact h.beginSoft hs
    · exact hs
  · exact h.irq _ _ rfl hs
  · exact h.storeMask _ hs
  · exact h.cmds _ _ le_rfl hs
  · exact h.cmds _ _ le_rfl hs
  · exact h.cmds _ _ le_rfl hs
  · exact h.cmds _ _ le_rfl hs
  · exact h.cmds _ _ le_rfl hs
  · exact h.cmds _ _ le_rfl hs
  · exact h.submit _ hs
  · exact h.cancel _ hs
  · exact h.popCompletion hs
  · exact h.staging _ _ id hs
  · exact h.staging _ _ id hs
  · exact h.writeBufData _ hs
  · exact h.staging _ _ id hs
  · exact hs

theorem writeBank1 (h : ClosedHost P) (a : RegAddr) (v : Byte) (hs : P s) : P (writeBank1 a v s) := by
  unfold Machine.writeBank1
  split
  · exact h.writeConfig _ hs
  · exact h.modPort _ hs
  · exact h.modPort _ hs
  · exact h.popReport' hs
  · exact h.storeSectorSel _ hs
  · exact hs

theorem advanceAddress (h : ClosedHost P) (hs : P s) : P (advanceAddress s) := by
  unfold Machine.advanceAddress
  split
  · exact h.modPort _ hs
  all_goals exact hs

theorem dataWrite (h : ClosedHost P) (here : Bool → RegAddr → Bool) (v : Byte) (hs : P s) :
    P (dataWrite here v s) := by
  unfold Machine.dataWrite
  split
  · split
    · refine h.advanceAddress (h.modPort _ ?_)
      unfold writeRegister
      split
      · exact h.writeBank1 _ _ hs
      · exact h.writeBank0 _ _ hs
    · exact hs
  · exact h.modPort _ hs
  all_goals exact hs

theorem readRegister (h : ClosedHost P) (bank : Bool) (a : RegAddr) (hs : P s) : P (readRegister bank a s).2 := by
  unfold Machine.readRegister
  split
  · exact h.readBufData hs
  · exact h.port _ _ hs

theorem dataRead (h : ClosedHost P) (hs : P s) : P (dataRead s) := by
  unfold Machine.dataRead
  split
  · rename_i bank a _
    have k := h.readRegister bank a hs
    revert k
    cases Machine.readRegister bank a s with
    | mk v s1 => exact fun k => h.advanceAddress (h.modPort _ k)
  · exact h.modPort _ hs
  all_goals exact hs

theorem beginFrame (h : ClosedHost P) (hs : P s) : P (beginFrame s) := by
  unfold Machine.beginFrame
  split
  · split
    · exact h.modPort _ hs
    · exact h.modPort _ hs
  all_goals exact hs

theorem takeControl (h : ClosedHost P) (v : Byte) (hs : P s) : P (takeControl v s) := by
  unfold Machine.takeControl
  split
  · exact h.modPort _ hs
  · exact h.modPort _ hs
  all_goals exact hs

theorem endFrame (h : ClosedHost P) (hs : P s) : P (endFrame s) := by
  have key : P (endSoftHold (closePort (storeCollected s))) := by
    have h1 : P (storeCollected s) := by
      unfold storeCollected
      split
      · exact hs
      · exact h.storeReclaimLow _ hs
    unfold endSoftHold
    split
    · exact h.endHold (h.power _ _ id (h.modPort _ h1))
    · exact h.modPort _ h1
  unfold Machine.endFrame
  split
  · exact hs
  all_goals exact key

/-! ### Commands -/

theorem execErasePhaseEnd (h : ClosedHost P) (b : Bool) {t : State} (hs : P s)
    (ht : execErasePhaseEnd b s = .next t) : P t := by
  unfold Machine.execErasePhaseEnd at ht
  split at ht
  · injection ht with ht
    subst ht
    refine h.ctl _ _ (.inl ?_) (h.array _ _ (fun w => ?_) ?_)
    · cases b <;> exact le_rfl
    · cases b <;> exact CellArray.endErasePhase_wf _ _ _ _ w
    · cases b
      · exact h.useFree hs
      · exact hs
  · injection ht with ht
    exact ht ▸ hs

/-- A property that survives the named updates survives every command. -/
theorem exec (h : ClosedHost P) (i : Instr) {t : State} (hs : P s) (ht : exec i s = .next t) : P t := by
  cases i <;> simp only [Machine.exec] at ht
  case powerOn => injection ht with ht; exact ht ▸ h.beginPowerOn hs
  case powerOnHoldEnd =>
    injection ht with ht
    subst ht
    split
    · exact h.endHold (h.power _ _ id hs)
    · exact hs
  case pinReset => injection ht with ht; exact ht ▸ h.beginPin hs
  case resetRelease =>
    injection ht with ht
    subst ht
    split
    · exact h.endHold (h.power _ _ id hs)
    · exact hs
  case pfwAssertion =>
    injection ht with ht
    subst ht
    split
    · exact h.settleFree (h.enterQuiesce (h.pfw _ _ hs))
    · exact h.pfw _ _ hs
  case pfwDeassertion =>
    injection ht with ht
    subst ht
    split
    · exact h.settleFree (h.leaveQuiesce (h.pfw _ _ hs))
    · exact h.pfw _ _ hs
  case supplyLoss => injection ht with ht; exact ht ▸ h.loseSupply hs
  case controlByte v => injection ht with ht; exact ht ▸ h.takeControl v hs
  case frameBegin => injection ht with ht; exact ht ▸ h.beginFrame hs
  case frameEnd => injection ht with ht; exact ht ▸ h.endFrame hs
  case bufDataRead => injection ht with ht; exact ht ▸ h.dataRead hs
  case fragmentReadComplete =>
    unfold execFragmentReadComplete at ht
    split at ht <;> injection ht with ht <;> subst ht
    · exact h.settleFree (h.endRead _ _ hs)
    · exact hs
  case headerReadComplete =>
    unfold execHeaderReadComplete at ht
    split at ht <;> injection ht with ht <;> subst ht
    · exact h.settleFree (h.scanHeaderEnded _ _ (h.portReleased hs))
    · exact hs
  case cellProgramComplete r =>
    unfold execCellProgramComplete at ht
    split at ht <;> injection ht with ht <;> subst ht
    · exact h.settleFree (h.endProgram _ _ _ hs)
    · exact hs
  case stateAdvanceComplete r =>
    unfold execStateAdvanceComplete at ht
    split at ht <;> injection ht with ht <;> subst ht
    · exact h.settleFree (h.endCellAdvance _ _ _ _ hs)
    · exact h.settleFree (h.endHeaderAdvance _ _ _ _ hs)
    · exact hs
  case erasePhaseEnd b => exact h.execErasePhaseEnd b hs ht
  case sectorEraseComplete r =>
    unfold execSectorEraseComplete at ht
    split at ht <;> injection ht with ht <;> subst ht
    · exact h.settleFree (h.endErase _ _ _ _ _ _ _ hs)
    · exact h.settleFree (h.endErase _ _ _ _ _ _ _ hs)
    · exact hs
  all_goals
    injection ht with ht
    subst ht
    exact h.dataWrite _ _ hs

end ClosedHost

end Sys2Proof.Machine
end

