-- ==== Sys2Proof/Laws/Settle.lean ====
section
/-! SUPPORT. Laws/Settle.lean: what ends every event, said once: the engine that takes no command, the port that grants
no request, and the byte that is written at its register. -/

namespace Sys2Proof.Machine

variable {s : State}

/-- R116: the engine that is not IDLE, or finds no command, or a part that is not READY, takes nothing. -/
theorem takeCommands_quiet (n : Nat) (h : quiet s) : takeCommands n s = s := by
  cases n with
  | zero => rfl
  | succ n =>
    unfold takeCommands
    split
    · rfl
    · rename_i c rest hq
      rw [if_neg]
      rintro ⟨h1, h2⟩
      rcases h with h | h | h
      · rw [hq] at h; cases h
      · exact h h1
      · rw [h] at h2; cases h2

/-- R116: the same of a whole event. -/
theorem takeAll_quiet (h : quiet s) : takeAll s = s := takeCommands_quiet _ h

/-- R19: a port that is taken, or has nothing to grant, grants nothing. -/
theorem arrive_settled (h : portSettled s) : arrive s = s := by
  unfold arrive
  split
  · rename_i h1 h2
    rcases h with h | h | ⟨a, b, c⟩
    · exact absurd h1 h
    · exact absurd h2 h
    · rw [a, b, c]
  · rfl

/-- R19: whether the port is settled is read from the Array Controller alone. -/
theorem portSettled_congr {t : State} (hc : t.ctl = s.ctl) (h : portSettled s) : portSettled t := by
  unfold portSettled grantable at h ⊢
  rw [hc]
  exact h

/-- An event that leaves the engine and the port nothing to do ends as it stands. -/
theorem settle_quiet (h : quiet s) (hp : portSettled s) : settle s = s := by
  unfold settle
  rw [takeAll_quiet h, arrive_settled hp, takeAll_quiet h]

/-- R19: the free point of a taken port grants nothing. -/
theorem freePoint_busy (h : s.ctl.op ≠ none) : freePoint s = s := by
  unfold freePoint
  split
  · rfl
  · rename_i h1 _; exact absurd h1 h
  · rename_i h1 _; exact absurd h1 h

/-- The same of the end of an event at which the port may be free. -/
theorem settleFree_busy (h : quiet s) (hp : s.ctl.op ≠ none) : settleFree s = s := by
  unfold settleFree
  rw [takeAll_quiet h, freePoint_busy hp, takeAll_quiet h]

/-- R210: the current address moves on from a written register. -/
theorem advance_afterWrite {bank : Bool} {a : RegAddr} (h : writing bank a s) :
    advanceAddress (shiftOut 0x00 s) = s.afterWrite bank (nextAddress bank a) := by
  simp only [advanceAddress, shiftOut, modPort, State.setPort, h]
  rfl

/-- R210, R213: the byte of a write frame at an address of its row is written there, and the address moves on. -/
theorem dataWrite_at {here : Bool → RegAddr → Bool} {v : Byte} {bank : Bool} {a : RegAddr} (h : writing bank a s)
    (hh : here bank a = true) (hw : writing bank a (writeRegister bank a v s)) :
    dataWrite here v s = (writeRegister bank a v s).afterWrite bank (nextAddress bank a) := by
  rw [← advance_afterWrite hw]
  unfold dataWrite
  rw [h]
  simp [hh]

/-- R214: a byte of a write frame that is not decoded. -/
theorem dataWrite_undecoded {here : Bool → RegAddr → Bool} {v : Byte} (h : s.port.frame = .undecoded) :
    dataWrite here v s = s.setPort { s.port with out := 0xFF } := by
  unfold dataWrite
  rw [h]
  rfl

end Sys2Proof.Machine
end

