-- ==== Sys2Proof/Laws/Frames.lean ====
section
/-! SUPPORT. Laws/Frames.lean: what an operation on one cell, one sector or one record leaves of the others. -/

namespace Sys2Proof.Machine

/-! ### The array -/

@[simp] theorem CellArray.putSector_cellAt (a : CellArray) (n c : Nat) (h : SectorArea) :
    (a.putSector n h).cellAt c = a.cellAt c := rfl

@[simp] theorem CellArray.putCell_sectors (a : CellArray) (n : Nat) (c : Cell) :
    (a.putCell n c).sectors = a.sectors := by
  unfold CellArray.putCell
  split <;> rfl

/-- R1: the cells of a sector are the ones that lie in it. -/
theorem sectorOf_mem_cellsOf (n c : Nat) (h : c ∈ cellsOf n) : sectorOf c = n := by
  simp only [cellsOf, Config.cellsPerSector, List.mem_map, List.mem_range] at h
  obtain ⟨p, hp, rfl⟩ := h
  show (n * 32 + p) / 32 = n
  omega

/-- The cells of a list given new contents, one after another: every other cell and every header stays. -/
theorem putCells_frame (f : Nat → Cell) (hf : ∀ c, (f c).payload.length = Config.payloadBytes) (l : List Nat)
    (a : CellArray) (h : a.wf) :
    (l.foldl (fun a c => a.putCell c (f c)) a).wf ∧ (l.foldl (fun a c => a.putCell c (f c)) a).sectors = a.sectors ∧
      ∀ k, k ∉ l → (l.foldl (fun a c => a.putCell c (f c)) a).cellAt k = a.cellAt k := by
  induction l generalizing a with
  | nil => exact ⟨h, rfl, fun _ _ => rfl⟩
  | cons c t ih =>
    have hw := a.putCell_wf c (f c) h (hf c)
    obtain ⟨h1, h2, h3⟩ := ih (a.putCell c (f c)) hw
    refine ⟨h1, h2.trans (a.putCell_sectors c _), fun k hk => ?_⟩
    rw [List.mem_cons, not_or] at hk
    exact (h3 k hk.2).trans (a.cellAt_putCell_other c k _ h hk.1)

/-- R17, R198: the cells of a disturbed sector are the only ones that change. -/
theorem CellArray.disturbSector_cellAt (a : CellArray) (n use c : Nat) (h : a.wf) (hc : sectorOf c ≠ n) :
    (a.disturbSector n use).cellAt c = a.cellAt c := by
  refine (putCells_frame (fun c => { Config.residueCell use c with
    payload := padPayload (Config.residueCell use c).payload }) ?_ (cellsOf n) a h).2.2 c ?_
  · intro c
    simp only [padPayload, List.length_append, List.length_take, List.length_replicate]
    omega
  · exact fun hm => hc (sectorOf_mem_cellsOf n c hm)

@[simp] theorem CellArray.disturbSector_sectors (a : CellArray) (n use : Nat) :
    (a.disturbSector n use).sectors = a.sectors := by
  unfold CellArray.disturbSector
  generalize cellsOf n = l
  induction l generalizing a with
  | nil => rfl
  | cons c t ih => exact (ih _).trans (a.putCell_sectors c _)

/-! ### The records -/

/-- One record changed. -/
theorem recAt_modRec (s : State) (n m : Nat) (f : SectorRec → SectorRec) (hn : n < s.table.recs.length) :
    (modRec n f s).recAt m = if m = n then f (s.recAt n) else s.recAt m := by
  unfold State.recAt modRec State.setTable
  simp only [List.getD_eq_getElem?_getD, List.getElem?_modify]
  by_cases h : m = n
  · subst h
    simp [hn]
  · have h' : ¬ n = m := fun e => h e.symm
    simp [h, h']

/-- R80: the sectors that hold a cell of the list are pinned, and no other record changes. -/
theorem pinCells_table (cells : List Nat) (s : State) : pinCells cells s = s.setTable (s.table.pinnedAt cells) := by
  unfold pinCells
  induction cells generalizing s with
  | nil =>
    have h (l : List SectorRec) : (l.mapIdx fun n r =>
        { r with pinned := r.pinned || (([] : List Nat).map sectorOf).contains n }) = l := by
      apply List.ext_getElem <;> simp
    unfold SectorTable.pinnedAt
    rw [h]
    rfl
  | cons c t ih =>
    unfold modCells
    rw [ih]
    unfold modRec SectorTable.pinnedAt State.setTable
    simp only
    congr 2
    apply List.ext_getElem
    · simp
    · intro i h1 h2
      by_cases hc : sectorOf c = i
      · subst hc
        simp
      · have hc' : ¬ i = sectorOf c := fun e => hc e.symm
        simp [hc, hc']

end Sys2Proof.Machine
end

