-- ==== Sys2Proof/Laws/Resets.lean ====
section
/-! SUPPORT. Laws/Resets.lean: what a reset makes of each block, one lemma a block, and what the cut of the operation in
progress leaves of the rest. -/

namespace Sys2Proof.Machine

section Blocks

variable (c : StartCause) (x : Settings) (m : Byte) (a b : List Byte) (s : State)

@[simp] theorem resetBlocks_ctl : (resetBlocks c x m a b s).ctl = resetController false := by simp [resetBlocks]
@[simp] theorem resetBlocks_table : (resetBlocks c x m a b s).table = resetTable := by simp [resetBlocks]
@[simp] theorem resetBlocks_index : (resetBlocks c x m a b s).index = [] := by simp [resetBlocks]
@[simp] theorem resetBlocks_engine : (resetBlocks c x m a b s).engine = resetEngine := by simp [resetBlocks]
@[simp] theorem resetBlocks_reclaimer : (resetBlocks c x m a b s).reclaimer = resetReclaimer := by simp [resetBlocks]
@[simp] theorem resetBlocks_cmds : (resetBlocks c x m a b s).cmds = resetCommands := by simp [resetBlocks]
@[simp] theorem resetBlocks_comps : (resetBlocks c x m a b s).comps = [] := by simp [resetBlocks]
@[simp] theorem resetBlocks_staging : (resetBlocks c x m a b s).staging = resetStaging a b := by simp [resetBlocks]
@[simp] theorem resetBlocks_scanner : (resetBlocks c x m a b s).scanner = resetScanner c := by simp [resetBlocks]
@[simp] theorem resetBlocks_port : (resetBlocks c x m a b s).port = resetPort s.port.frame := by simp [resetBlocks]
@[simp] theorem resetBlocks_irq :
    (resetBlocks c x m a b s).irq = { ready := false, fault := false, space := false, mask := m } := by simp [resetBlocks]
@[simp] theorem resetBlocks_settings : (resetBlocks c x m a b s).settings = x := by simp [resetBlocks]
@[simp] theorem resetBlocks_array : (resetBlocks c x m a b s).array = s.array := by simp [resetBlocks]
@[simp] theorem resetBlocks_power : (resetBlocks c x m a b s).power = s.power := by simp [resetBlocks]
@[simp] theorem resetBlocks_pfw : (resetBlocks c x m a b s).pfw = s.pfw := by simp [resetBlocks]
@[simp] theorem resetBlocks_pending : (resetBlocks c x m a b s).pending = s.pending := by simp [resetBlocks]

end Blocks

variable (s : State)

/-- R17: a port with no operation has nothing to cut. -/
theorem cutOperations_idle (h1 : s.ctl.op = none) (h2 : s.ctl.paused = none) : cutOperations s = s := by
  simp [cutOperations, cutOne, h1, h2]

/-- R17: the operation on the port is cut. -/
theorem cutOperations_array (o : Operation) (h : s.ctl.op = some o) (hp : s.ctl.paused = none) :
    (cutOperations s).array = s.array.cut o s.free := by
  simp [cutOperations, cutOne, h, hp, useFree]

/-- A cut changes the array and the count of free values only. -/
theorem cutOperations_frame :
    ∃ a n, cutOperations s = (s.setArray a).setFree n := by
  unfold cutOperations cutOne
  split <;> split <;> exact ⟨_, _, rfl⟩

@[simp] theorem cutOperations_power : (cutOperations s).power = s.power := by
  obtain ⟨a, n, h⟩ := cutOperations_frame s
  rw [h]; rfl

@[simp] theorem cutOperations_pfw : (cutOperations s).pfw = s.pfw := by
  obtain ⟨a, n, h⟩ := cutOperations_frame s
  rw [h]; rfl

@[simp] theorem cutOperations_port : (cutOperations s).port = s.port := by
  obtain ⟨a, n, h⟩ := cutOperations_frame s
  rw [h]; rfl

@[simp] theorem cutOperations_index : (cutOperations s).index = s.index := by
  obtain ⟨a, n, h⟩ := cutOperations_frame s
  rw [h]; rfl

@[simp] theorem cutOperations_comps : (cutOperations s).comps = s.comps := by
  obtain ⟨a, n, h⟩ := cutOperations_frame s
  rw [h]; rfl

/-- R214: a frame that is open when a reset begins is not decoded any more. -/
@[simp] theorem resetPort_closed : (resetPort .closed).frame = .closed := rfl

theorem resetPort_open (f : Frame) (h : f ≠ .closed) : (resetPort f).frame = .undecoded := by
  cases f <;> first | rfl | exact absurd rfl h

end Sys2Proof.Machine
end

