-- ==== Sys2Proof/Laws/Victim.lean ====
section
/-! SUPPORT. Laws/Victim.lean: the victim the Reclaimer chooses (R90, R91), and the background start (R86). -/

namespace Sys2Proof.Machine

variable {s : State}

theorem eligible_iff (n : Nat) : (n < 32 ∧ eligible s n = true) ↔ eligibleVictim s n := by
  simp only [eligible, eligibleVictim, Bool.and_eq_true, decide_eq_true_eq, Bool.not_eq_true']
  tauto

/-- R91: `n` is chosen rather than `m`. -/
abbrev beats (s : State) (n m : Nat) : Prop :=
  (s.recAt m).dead < (s.recAt n).dead ∨ ((s.recAt m).dead = (s.recAt n).dead ∧
    ((s.recAt n).erases < (s.recAt m).erases ∨ ((s.recAt m).erases = (s.recAt n).erases ∧ n < m)))

theorem bestVictim_none (l : List Nat) (h : bestVictim s l = none) : l = [] := by
  cases l with
  | nil => rfl
  | cons n rest =>
    unfold bestVictim at h
    split at h
    · cases h
    · split at h <;> cases h

theorem bestVictim_some (l : List Nat) (hl : l.Pairwise (· < ·)) (n : Nat) (h : bestVictim s l = some n) :
    n ∈ l ∧ ∀ m ∈ l, m ≠ n → beats s n m := by
  induction l generalizing n with
  | nil => cases h
  | cons k rest ih =>
    have hk : ∀ m ∈ rest, k < m := fun m hm => List.rel_of_pairwise_cons hl hm
    have hr := List.Pairwise.of_cons hl
    unfold bestVictim at h
    split at h
    · rename_i h0
      rw [bestVictim_none rest h0]
      cases h
      exact ⟨List.mem_singleton_self k, fun m hm hne => absurd (List.mem_singleton.mp hm) hne⟩
    · rename_i b h0
      obtain ⟨hb, hall⟩ := ih hr b h0
      have hkb := hk b hb
      split at h
      · rename_i hc
        cases h
        simp only [chosenBefore, decide_eq_true_eq] at hc
        refine ⟨List.mem_cons_of_mem _ hb, fun m hm hne => ?_⟩
        rcases List.mem_cons.mp hm with rfl | hm
        · unfold beats
          omega
        · exact hall m hm hne
      · rename_i hc
        cases h
        simp only [chosenBefore, decide_eq_true_eq, not_or, not_and, not_lt] at hc
        refine ⟨List.mem_cons_self, fun m hm hne => ?_⟩
        rcases List.mem_cons.mp hm with rfl | hm
        · exact absurd rfl hne
        · by_cases hmb : m = b
          · subst hmb
            have := hc.2
            unfold beats
            omega
          · have h1 := hall m hm hmb
            have h2 := hc.2
            have h3 := hk m hm
            unfold beats at h1 ⊢
            omega

/-- R90, R91: the victim chosen is the best eligible sector. -/
theorem chooseVictim_best (n : Nat) (h : isBestVictim s n) : chooseVictim s = some n := by
  unfold chooseVictim
  have hs : ((List.range Config.sectors).filter (eligible s)).Pairwise (· < ·) :=
    List.Pairwise.filter _ List.pairwise_lt_range
  have hmem : n ∈ (List.range Config.sectors).filter (eligible s) := by
    rw [List.mem_filter, List.mem_range]
    exact (eligible_iff n).mpr h.1
  cases hb : bestVictim s ((List.range Config.sectors).filter (eligible s)) with
  | none =>
    rw [bestVictim_none _ hb] at hmem
    cases hmem
  | some b =>
    obtain ⟨hbm, hall⟩ := bestVictim_some _ hs b hb
    by_cases hbn : b = n
    · rw [hbn]
    · have h1 := hall n hmem (fun e => hbn e.symm)
      rw [List.mem_filter, List.mem_range] at hbm
      have h2 := h.2 b ((eligible_iff b).mp hbm) hbn
      unfold beats at h1
      exfalso
      omega

/-- R90: no victim is chosen where no sector is eligible. -/
theorem chooseVictim_none (h : ∀ n, ¬ eligibleVictim s n) : chooseVictim s = none := by
  unfold chooseVictim
  have : (List.range Config.sectors).filter (eligible s) = [] := by
    rw [List.filter_eq_nil_iff]
    intro n hn he
    exact h n ((eligible_iff n).mp ⟨List.mem_range.mp hn, he⟩)
  rw [this]
  rfl

/-- R86: with the enable clear or the Reclaimer not IDLE an evaluation point starts nothing. -/
theorem evaluate_idle (h : s.settings.background = false ∨ s.reclaimer.state ≠ .idle) : evaluate s = s := by
  unfold evaluate
  rw [if_neg]
  unfold backgroundDue
  rcases h with h | h <;> simp [h]

end Sys2Proof.Machine
end

