-- ==== Sys2Proof/Laws/Submit.lean ====
section
/-! SUPPORT. Laws/Submit.lean: a submission event, said once: which result the checks give, what an accepted command
adds to the queue, and what is left when the engine takes it in the same event (R112, R113, R116, R156). -/

namespace Sys2Proof.Machine

variable {s : State}

theorem kindOfCode_kindCode (k : Kind) : kindOfCode (kindCode k) = some k := by cases k <;> decide

theorem kindOfCode_isSome (v : Byte) : 1 ≤ v.toNat → v.toNat ≤ 7 → (kindOfCode v).isSome := by
  revert v
  decide

theorem kindOfCode_some (v : Byte) (h1 : 1 ≤ v.toNat) (h2 : v.toNat ≤ 7) : ∃ k, kindCode k = v := by
  obtain ⟨k, hk⟩ := Option.isSome_iff_exists.mp (kindOfCode_isSome v h1 h2)
  have := List.find?_some hk
  exact ⟨k, of_decide_eq_true this⟩

theorem kindOfCode_none (v : Byte) : v = 0 ∨ 7 < v.toNat → kindOfCode v = none := by
  revert v
  decide

/-- A property of the state survives every action inside an event. -/
theorem closedPort_queue_nil : ClosedPort fun t => t.cmds.queue = [] where
  ctl _ _ _ h := h
  table _ _ _ _ h := h
  index _ _ _ h := h
  engine _ _ _ h := h
  hold _ _ _ h := h
  release _ _ _ h := h
  reclaimer _ _ h := h
  take s c q hq h := by rw [h] at hq; cases hq
  join _ _ _ h := h
  staging _ _ _ h := h
  scanner _ _ _ _ _ h := h
  report s r h := by unfold report; split <;> exact h
  power _ _ _ h := h
  irq _ _ _ h := h
  free _ _ h := h
  mark _ _ h := h

/-- Inside an event the port block, the settings, the power-fail levels and the command fields stay. -/
theorem closedPort_host (p : Port) (x : Byte) : ClosedPort fun t => t.port = p ∧ t.cmds.submitResult = x where
  ctl _ _ _ h := h
  table _ _ _ _ h := h
  index _ _ _ h := h
  engine _ _ _ h := h
  hold _ _ _ h := h
  release _ _ _ h := h
  reclaimer _ _ h := h
  take _ _ _ _ h := h
  join _ _ _ h := h
  staging _ _ _ h := h
  scanner _ _ _ _ _ h := h
  report s r h := by unfold report; split <;> exact h
  power _ _ _ h := h
  irq _ _ _ h := h
  free _ _ h := h
  mark _ _ h := h

/-- R112: every check passes. -/
theorem submitCheck_acceptable {v : Byte} {k : Kind} (hk : kindCode k = v) (h : acceptable v s) :
    submitCheck v s = .accepted := by
  obtain ⟨hr, _, _, hq, ht, hkey, hkey5, hlen, hbuf⟩ := h
  have hready : s.power.isReady = true := by
    simp only [State.deviceReady, Bool.and_eq_true] at hr
    exact hr.2
  have htag : (tagQueued s.cmds.tag s || tagInFlight s.cmds.tag s) = false := by
    simp only [tagUsed, tagTaken, not_or] at ht
    obtain ⟨h1, h2, h3⟩ := ht
    have a : tagQueued s.cmds.tag s = false := by
      simpa [tagQueued] using h1
    have b : tagInFlight s.cmds.tag s = false := by
      unfold tagInFlight
      cases hc : s.engine.cmd <;> cases hh : s.engine.held <;> simp_all
    rw [a, b]
    rfl
  have hcap : ¬ Config.queueCapacity ≤ s.cmds.queue.length := by
    show ¬ 4 ≤ s.cmds.queue.length
    omega
  subst hk
  unfold submitCheck
  rw [if_neg (by simp [hready]), kindOfCode_kindCode]
  simp only
  rw [if_neg hcap, if_neg (by simp [htag])]
  have e0 : kindCode .store = 1 := rfl
  cases k
  · have h1 := hkey (by decide)
    have h2 := hlen rfl
    have h3 := hbuf (by decide)
    rcases h3 with ⟨h3, h4⟩ | ⟨h3, h4⟩
    · simp [keyAllowed, usesLen, usesBuf, h1, h2, h3, h4, bufOfCode, Staging.owner]
    · simp [keyAllowed, usesLen, usesBuf, h1, h2, h3, h4, bufOfCode, Staging.owner]
  · have h1 := hkey (by decide)
    have h3 := hbuf (by decide)
    rcases h3 with ⟨h3, h4⟩ | ⟨h3, h4⟩
    · simp [keyAllowed, usesLen, usesBuf, h1, h3, h4, bufOfCode, Staging.owner]
    · simp [keyAllowed, usesLen, usesBuf, h1, h3, h4, bufOfCode, Staging.owner]
  · have h1 := hkey (by decide)
    simp [keyAllowed, usesLen, usesBuf, h1]
  · have h1 := hkey (by decide)
    simp [keyAllowed, usesLen, usesBuf, h1]
  · have h1 := hkey5 rfl
    simp [keyAllowed, usesLen, usesBuf, h1]
  · simp [keyAllowed, usesLen, usesBuf]
  · simp [keyAllowed, usesLen, usesBuf]

/-- R113: the entry formed from the command fields. -/
theorem entryOf_acceptable {v : Byte} {k : Kind} (hk : kindCode k = v) (h : acceptable v s) :
    entryOf k s.cmds = s.entryFor k := by
  obtain ⟨_, _, _, _, _, _, _, _, hbuf⟩ := h
  subst hk
  unfold entryOf State.entryFor State.namedBuf
  cases k
  case store =>
    rcases hbuf (by decide) with ⟨h3, _⟩ | ⟨h3, _⟩ <;> simp [usesKey, usesLen, usesBuf, bufOfCode, h3]
  case fetch =>
    rcases hbuf (by decide) with ⟨h3, _⟩ | ⟨h3, _⟩ <;> simp [usesKey, usesLen, usesBuf, bufOfCode, h3]
  all_goals simp [usesKey, usesLen, usesBuf]

/-- R156: the buffer of an accepted command goes to the engine. -/
theorem setOwner_entry (k : Kind) (t : State) (ht : t.staging = s.staging) :
    setOwner (s.entryFor k).buf .engine t = t.setStaging (s.lentStaging k) := by
  unfold setOwner State.entryFor State.lentStaging State.namedBuf
  rw [ht]
  by_cases h : k = .store ∨ k = .fetch
  · rw [if_pos h, if_pos h]
    simp only
    by_cases hb : s.cmds.buf = 0
    · rw [if_pos hb, if_pos hb]
      rfl
    · rw [if_neg hb, if_neg hb]
      rfl
  · simp only [h, if_false]
    rw [← ht]
    rfl

/-- R112, R113: an accepted submission, up to what the engine and the port make of it. -/
theorem submit_accepted {v : Byte} {k : Kind} (hk : kindCode k = v) (h : acceptable v s) :
    submit v s = settle ((s.setCmds { s.cmds with submitResult := 0, queue := s.cmds.queue ++ [s.entryFor k] }).setStaging
      (s.lentStaging k)) := by
  unfold submit
  rw [submitCheck_acceptable hk h, ← hk, kindOfCode_kindCode]
  simp only
  rw [entryOf_acceptable hk h]
  refine congrArg settle (Eq.trans (setOwner_entry (s := s) k _ ?_) ?_)
  · rfl
  · rfl

/-- R112: a refused submission changes nothing but SUBMIT_RESULT. -/
theorem submit_refused {v : Byte} (h : submitCheck v s ≠ .accepted) :
    submit v s = s.setCmds { s.cmds with submitResult := (submitCheck v s).code } := by
  unfold submit
  dsimp only
  split
  · contradiction
  · rfl

/-- R116: an accepted submission that finds the engine free is taken in the same event. -/
theorem submit_taken {v : Byte} {k : Kind} (hk : kindCode k = v) (h : acceptable v s) (hf : engineFree s) :
    submit v s = arrive (beginCommand (s.entryFor k)
      ((s.setCmds { s.cmds with submitResult := 0 }).setStaging (s.lentStaging k))) := by
  obtain ⟨hr, hi, _, _, hq⟩ := hf
  rw [submit_accepted hk h]
  have hc : ({ s.cmds with submitResult := 0 } : CommandQueue) = { s.cmds with submitResult := 0, queue := [] } := by
    rw [← hq]
  rw [hc]
  unfold settle
  rw [hq]
  have h1 : takeAll ((s.setCmds { s.cmds with submitResult := 0, queue := [] ++ [s.entryFor k] }).setStaging
      (s.lentStaging k)) =
      beginCommand (s.entryFor k) ((s.setCmds { s.cmds with submitResult := 0, queue := [] }).setStaging
        (s.lentStaging k)) := by
    show takeCommands 1 _ = _
    unfold takeCommands
    simp only [State.setStaging_cmds, State.setCmds_cmds, List.nil_append]
    rw [if_pos]
    · show takeCommands 0 _ = _
      unfold takeCommands
      rfl
    · exact ⟨hi, hr⟩
  rw [h1]
  have h2 := closedPort_queue_nil.beginCommand (s := (s.setCmds { s.cmds with submitResult := 0, queue := [] }).setStaging
        (s.lentStaging k)) (s.entryFor k) rfl
  have h3 := closedPort_queue_nil.arrive h2
  exact takeAll_quiet (.inl h3)

/-- R210, R211: the byte of a submission leaves the address at SUBMIT. -/
theorem exec_submit {i : Instr} {v : Byte} (hi : submittedByte i = some v) (hw : writing false 0x0A s) :
    exec i s = .next ((submit v s).afterWrite false 0x0A) := by
  have hp : writing false 0x0A (submit v s) := by
    by_cases hc : submitCheck v s = .accepted
    · unfold submit
      rw [hc]
      cases hk : kindOfCode v with
      | none => exact hw
      | some k =>
        have h0 : ∀ o (t : State), t.port = s.port → t.cmds.submitResult = 0 →
            (setOwner o .engine t).port = s.port ∧ (setOwner o .engine t).cmds.submitResult = 0 := by
          intro o t ht hx
          unfold setOwner
          split <;> exact ⟨ht, hx⟩
        have h1 : ∀ t : State, t.port = s.port → t.cmds.submitResult = 0 →
            writing false 0x0A (settle (setOwner (entryOf k s.cmds).buf .engine t)) := by
          intro t ht hx
          have := (closedPort_host s.port 0).settle (h0 (entryOf k s.cmds).buf t ht hx)
          show Port.frame _ = _
          rw [this.1]
          exact hw
        exact h1 _ rfl rfl
    · rw [submit_refused hc]
      exact hw
  have hd : ∀ here, here false 0x0A = true →
      Host.Outcome.next (dataWrite here v s) = (.next ((submit v s).afterWrite false 0x0A) : Host.Outcome State Fault Refusal) :=
    fun here hh => congrArg _ (dataWrite_at hw hh hp)
  cases i <;> simp only [submittedByte, Option.some.injEq, reduceCtorEq] at hi
  all_goals first
    | (subst hi; exact hd (at0 0x0A) rfl)
    | (subst hi; exact hd anyAddress rfl)

/-! ### Completions (R119) -/

/-- R101: with no victim draining the clearing of the pins moves nothing. -/
theorem drainStep_other (h : s.reclaimer.state ≠ .draining) : drainStep s = s := by
  unfold drainStep
  split
  · contradiction
  · rfl

/-- R119: a command that ends where the Completion Queue has room. -/
theorem finish_room {c : Command} (st : Status) (key len : Nat) (q : Option Nat) (n : Nat) (hc : s.engine.cmd = some c)
    (hr : s.comps.length < 8) (hd : s.reclaimer.state ≠ .draining) (hs : c.kind ≠ .store ∨ st ≠ .noSpace) :
    finish st key len q n s =
      (setOwner c.buf .host ((s.setTable s.table.unpinned).setComps
        (s.comps ++ [{ tag := c.tag, kind := c.kind, status := st, key := key, len := len, seq := q, frags := n }]))).setEngine
        { s.engine with state := .idle, cmd := none, work := .none, held := none } := by
  unfold finish
  rw [hc]
  simp only
  unfold produce
  dsimp only
  have hn : (if c.kind = .store ∧ st = .noSpace then raiseSpace (clearPins s) else clearPins s) = clearPins s :=
    if_neg (by tauto)
  rw [hn]
  have hl : (clearPins s).comps.length < Config.completionCapacity := hr
  rw [if_pos hl]
  have hb : ∀ (b : Option Buf) (t : State), t.engine = s.engine → t.reclaimer = s.reclaimer →
      (setOwner b .host t).engine = s.engine ∧ (setOwner b .host t).reclaimer = s.reclaimer := by
    intro b t h1 h2
    unfold setOwner
    split <;> exact ⟨h1, h2⟩
  have h2 := hb c.buf ((clearPins s).setComps ((clearPins s).comps ++
    [{ tag := c.tag, kind := c.kind, status := st, key := key, len := len, seq := q, frags := n }])) rfl rfl
  rw [drainStep_other]
  · unfold modEngine
    rw [h2.1]
    rfl
  · show (setOwner c.buf .host _).reclaimer.state ≠ _
    rw [h2.2]
    exact hd

/-- R119, R221: a STORE that ends NO_SPACE where the Completion Queue has room. -/
theorem finish_noSpace {c : Command} (key len : Nat) (q : Option Nat) (n : Nat) (hc : s.engine.cmd = some c)
    (hr : s.comps.length < 8) (hd : s.reclaimer.state ≠ .draining) (hs : c.kind = .store) :
    finish .noSpace key len q n s =
      ((setOwner c.buf .host ((s.setTable s.table.unpinned).setComps
        (s.comps ++ [{ tag := c.tag, kind := c.kind, status := .noSpace, key := key, len := len, seq := q,
                       frags := n }]))).setEngine
        { s.engine with state := .idle, cmd := none, work := .none, held := none }).setIrq
        { s.irq with space := true } := by
  unfold finish
  rw [hc]
  simp only
  unfold produce
  dsimp only
  have hn : (if c.kind = .store ∧ Status.noSpace = .noSpace then raiseSpace (clearPins s) else clearPins s) =
      raiseSpace (clearPins s) := if_pos ⟨hs, rfl⟩
  rw [hn]
  have hl : (raiseSpace (clearPins s)).comps.length < Config.completionCapacity := hr
  rw [if_pos hl]
  have hb : ∀ (b : Option Buf) (t : State), t.engine = s.engine → t.reclaimer = s.reclaimer →
      (setOwner b .host t).engine = s.engine ∧ (setOwner b .host t).reclaimer = s.reclaimer := by
    intro b t h1 h2
    unfold setOwner
    split <;> exact ⟨h1, h2⟩
  have h2 := hb c.buf ((raiseSpace (clearPins s)).setComps ((raiseSpace (clearPins s)).comps ++
    [{ tag := c.tag, kind := c.kind, status := .noSpace, key := key, len := len, seq := q, frags := n }])) rfl rfl
  rw [drainStep_other]
  · unfold modEngine
    rw [h2.1]
    unfold setOwner
    split <;> rfl
  · show (setOwner c.buf .host _).reclaimer.state ≠ _
    rw [h2.2]
    exact hd

/-- R156: the buffer lent to an acceptable command comes back as it was. -/
theorem lent_back {v : Byte} {k : Kind} (hk : kindCode k = v) (h : acceptable v s) (t : State)
    (ht : t.staging = s.lentStaging k) : setOwner (s.entryFor k).buf .host t = t.setStaging s.staging := by
  obtain ⟨_, _, _, _, _, _, _, _, hbuf⟩ := h
  subst hk
  unfold setOwner State.entryFor State.namedBuf
  rw [ht]
  unfold State.lentStaging
  by_cases hk : k = .store ∨ k = .fetch
  · have h2 : (kindCode k).toNat ≤ 2 := by rcases hk with rfl | rfl <;> decide
    rw [if_pos hk, if_pos hk]
    simp only
    rcases hbuf h2 with ⟨h3, h4⟩ | ⟨h3, h4⟩
    · rw [if_pos h3, if_pos h3]
      unfold Staging.setOwner
      simp only
      rw [← h4]
    · have h5 : ¬ s.cmds.buf = 0 := by rw [h3]; decide
      rw [if_neg h5, if_neg h5]
      unfold Staging.setOwner
      simp only
      rw [← h4]
  · rw [if_neg hk]
    simp only
    unfold State.lentStaging at ht
    rw [if_neg hk] at ht
    rw [← ht]
    rfl

/-- R119: a command that is taken and ends in its submission event. -/
theorem arrive_finish {v : Byte} {k : Kind} (hk : kindCode k = v) (h : acceptable v s) (hs : answersNow s)
    (hp : portSettled s) (x : EngineState) (y : Work) (st : Status) (key len : Nat) (q : Option Nat) (n : Nat)
    (hst : k ≠ .store ∨ st ≠ .noSpace) (u : State)
    (hu : u = ((s.setCmds { s.cmds with submitResult := 0 }).setStaging (s.lentStaging k)).setEngine
      { s.engine with state := x, cmd := some (s.entryFor k), work := y }) :
    (arrive (finish st key len q n u)).afterWrite false 0x0A =
    s.answered { tag := s.cmds.tag, kind := k, status := st, key := key, len := len, seq := q, frags := n } := by
  have h1 := finish_room (s := u) (c := s.entryFor k) st key len q n (by rw [hu]; rfl) (by rw [hu]; exact hs.2.2.1)
    (by rw [hu]; exact hs.2.2.2) hst
  have h2 := lent_back hk h ((u.setTable u.table.unpinned).setComps
    (u.comps ++ [{ tag := s.cmds.tag, kind := k, status := st, key := key, len := len, seq := q, frags := n }]))
    (by rw [hu]; rfl)
  have h3 : finish st key len q n u = _ := h1.trans (congrArg (fun t : State => t.setEngine
    { u.engine with state := .idle, cmd := none, work := .none, held := none }) h2)
  rw [h3, arrive_settled]
  · rw [hu]
    rfl
  · exact portSettled_congr (by rw [hu]; simp) hp

/-- R119: the same of a STORE without space. -/
theorem arrive_noSpace (h : acceptable 1 s) (hs : answersNow s) (hp : portSettled s) (x : EngineState) (y : Work)
    (key len : Nat) (q : Option Nat) (n : Nat) (u : State)
    (hu : u = ((s.setCmds { s.cmds with submitResult := 0 }).setStaging (s.lentStaging .store)).setEngine
      { s.engine with state := x, cmd := some (s.entryFor .store), work := y }) :
    (arrive (finish .noSpace key len q n u)).afterWrite false 0x0A =
    (s.setIrq { s.irq with space := true }).answered
      { tag := s.cmds.tag, kind := .store, status := .noSpace, key := key, len := len, seq := q, frags := n } := by
  have h1 := finish_noSpace (s := u) (c := s.entryFor .store) key len q n (by rw [hu]; rfl)
    (by rw [hu]; exact hs.2.2.1) (by rw [hu]; exact hs.2.2.2) rfl
  have h2 := lent_back (k := .store) rfl h ((u.setTable u.table.unpinned).setComps
    (u.comps ++ [{ tag := s.cmds.tag, kind := .store, status := .noSpace, key := key, len := len, seq := q,
                   frags := n }])) (by rw [hu]; rfl)
  have h3 : finish .noSpace key len q n u = _ := h1.trans (congrArg (fun t : State => (t.setEngine
    { u.engine with state := .idle, cmd := none, work := .none, held := none }).setIrq { u.irq with space := true }) h2)
  rw [h3, arrive_settled]
  · rw [hu]
    rfl
  · exact portSettled_congr (by rw [hu]; simp) hp

end Sys2Proof.Machine
end

