-- ==== Sys2Proof/Laws/Index.lean ====
section
/-! SUPPORT. Laws/Index.lean: what the key index answers (R51, R53) and what it holds after an insert, a replacement and
a removal (R54 to R56). -/

namespace Sys2Proof.Machine

/-- R51: the entry of a key is found. -/
theorem lookup_mem (l : List IndexEntry) (h : ascendingKeys l) (e : IndexEntry) (he : e ∈ l) : lookup e.key l = some e := by
  unfold lookup
  induction l with
  | nil => cases he
  | cons x t ih =>
    have hx : ∀ y ∈ t, x.key < y.key := by
      intro y hy
      have := List.rel_of_pairwise_cons h (List.mem_map_of_mem (f := IndexEntry.key) hy)
      exact this
    rcases List.mem_cons.mp he with rfl | he
    · simp
    · have hk := hx e he
      rw [List.find?_cons_of_neg]
      · exact ih (List.Pairwise.of_cons h) he
      · simp only [decide_eq_true_eq]
        omega

/-- R51: an absent key is answered absent. -/
theorem lookup_absent (l : List IndexEntry) (key : Nat) (h : ∀ e ∈ l, e.key ≠ key) : lookup key l = none := by
  unfold lookup
  rw [List.find?_eq_none]
  intro e he
  simpa using h e he

/-- R51: a key that is found is in the index. -/
theorem lookup_isSome (l : List IndexEntry) (key : Nat) : (lookup key l).isSome = true ↔ ∃ e ∈ l, e.key = key := by
  unfold lookup
  rw [List.find?_isSome]
  simp

/-- R53: the successor search finds the lowest key above its start. -/
theorem successor_least (l : List IndexEntry) (h : ascendingKeys l) (key : Nat) (e : IndexEntry) (he : e ∈ l)
    (hk : key < e.key) (hm : ∀ x ∈ l, key < x.key → e.key ≤ x.key) : successor key l = some e := by
  unfold successor
  induction l with
  | nil => cases he
  | cons x t ih =>
    have hx : ∀ y ∈ t, x.key < y.key := by
      intro y hy
      exact List.rel_of_pairwise_cons h (List.mem_map_of_mem (f := IndexEntry.key) hy)
    rcases List.mem_cons.mp he with rfl | he'
    · rw [List.find?_cons_of_pos]
      simpa using hk
    · have h1 := hx e he'
      have h2 : ¬ key < x.key := by
        intro hc
        have := hm x List.mem_cons_self hc
        omega
      rw [List.find?_cons_of_neg]
      · exact ih (List.Pairwise.of_cons h) he' (fun y hy => hm y (List.mem_cons_of_mem _ hy))
      · simpa using h2

/-- R53: no key above the start. -/
theorem successor_none (l : List IndexEntry) (key : Nat) (h : ∀ e ∈ l, e.key ≤ key) : successor key l = none := by
  unfold successor
  rw [List.find?_eq_none]
  intro e he
  simpa using h e he

/-- R54, R55: the index after an insert or a replacement holds the new entry and every entry of another key. -/
theorem mem_upsert (l : List IndexEntry) (h : ascendingKeys l) (x y : IndexEntry) :
    y ∈ upsert x l ↔ y = x ∨ (y ∈ l ∧ y.key ≠ x.key) := by
  induction l with
  | nil => simp [upsert]
  | cons e t ih =>
    have hx : ∀ z ∈ t, e.key < z.key := by
      intro z hz
      exact List.rel_of_pairwise_cons h (List.mem_map_of_mem (f := IndexEntry.key) hz)
    have ih' := ih (List.Pairwise.of_cons h)
    unfold upsert
    split
    · rename_i hlt
      simp only [List.mem_cons]
      constructor
      · rintro (rfl | rfl | hy)
        · exact .inl rfl
        · exact .inr ⟨.inl rfl, by omega⟩
        · exact .inr ⟨.inr hy, by have := hx y hy; omega⟩
      · rintro (rfl | ⟨rfl | hy, _⟩)
        · exact .inl rfl
        · exact .inr (.inl rfl)
        · exact .inr (.inr hy)
    · split
      · rename_i heq
        simp only [List.mem_cons]
        constructor
        · rintro (rfl | hy)
          · exact .inl rfl
          · exact .inr ⟨.inr hy, by have := hx y hy; omega⟩
        · rintro (rfl | ⟨rfl | hy, hne⟩)
          · exact .inl rfl
          · exact absurd heq.symm hne
          · exact .inr hy
      · rename_i h1 h2
        simp only [List.mem_cons, ih']
        constructor
        · rintro (rfl | rfl | ⟨hy, hne⟩)
          · exact .inr ⟨.inl rfl, fun hc => h2 hc.symm⟩
          · exact .inl rfl
          · exact .inr ⟨.inr hy, hne⟩
        · rintro (rfl | ⟨rfl | hy, hne⟩)
          · exact .inr (.inl rfl)
          · exact .inl rfl
          · exact .inr (.inr ⟨hy, hne⟩)

/-- R56: the index after a removal holds every entry of another key. -/
theorem mem_removeKey (l : List IndexEntry) (key : Nat) (y : IndexEntry) :
    y ∈ removeKey key l ↔ y ∈ l ∧ y.key ≠ key := by
  unfold removeKey
  rw [List.mem_filter]
  simp

end Sys2Proof.Machine
end

