-- ==== Sys2Proof/Laws/Ends.lean ====
section
/-! SUPPORT. Laws/Ends.lean: what the end of an operation, the taking of a command and the service of a claim come to,
said once over the shared operations. -/

namespace Sys2Proof.Machine

variable {s : State}

/-! ### The port at the end of an event (R19, R20, R116) -/

/-- R116: whether the engine takes a command is read from three blocks. -/
theorem quiet_congr {t : State} (h : quiet s) (h1 : t.cmds = s.cmds) (h2 : t.engine = s.engine)
    (h3 : t.power = s.power) : quiet t := by
  unfold quiet State.deviceReady State.running State.held at *
  rw [h1, h2, h3]
  exact h

/-- R19: with no request waiting a port that has become free stays free. -/
theorem settleFree_none (h : quiet s) (h1 : s.ctl.op = none) (h2 : s.ctl.paused = none) (h3 : s.ctl.waitEngine = none)
    (h4 : s.ctl.waitReclaimer = none) (h5 : s.ctl.waitScanner = none) : settleFree s = s := by
  have hf : freePoint s = s := by
    simp [freePoint, h1, h2, arbitrate, grantable, Controller.waiting, h3, h4, h5]
  unfold settleFree
  rw [takeAll_quiet h, hf, takeAll_quiet h]

/-- R19: the lone request of the engine is granted. -/
theorem settleFree_engine (op : ArrayOp) (h0 : s.engine.state ≠ .idle) (hg : (grant .engine op s).engine = s.engine)
    (h1 : s.ctl.op = none) (h2 : s.ctl.paused = none) (h3 : s.ctl.waitEngine = some op)
    (h4 : s.ctl.waitReclaimer = none) (h5 : s.ctl.waitScanner = none) (h6 : s.ctl.quiesced = false) :
    settleFree s = grant .engine op s := by
  have hf : freePoint s = grant .engine op s := by
    simp [freePoint, h1, h2, arbitrate, grantable, Controller.waiting, h3, h4, h5, h6]
  unfold settleFree
  rw [takeAll_quiet (.inr (.inl h0)), hf, takeAll_quiet (.inr (.inl (by rw [hg]; exact h0)))]

/-- R19: the lone request of the Reclaimer is granted. -/
theorem settleFree_reclaimer (op : ArrayOp) (hq : quiet s) (hg : quiet (grantReclaimer op s)) (h1 : s.ctl.op = none)
    (h2 : s.ctl.paused = none) (h3 : s.ctl.waitReclaimer = some op) (h4 : s.ctl.waitEngine = none)
    (h5 : s.ctl.waitScanner = none) (h6 : s.ctl.quiesced = false) : settleFree s = grantReclaimer op s := by
  have hf : freePoint s = grantReclaimer op s := by
    simp [freePoint, h1, h2, arbitrate, grantable, Controller.waiting, h3, h4, h5, h6]
  unfold settleFree
  rw [takeAll_quiet hq, hf, takeAll_quiet hg]

/-- R19: the request of the scanner is granted. -/
theorem settleFree_scanner (op : ArrayOp) (hq : quiet s) (hg : quiet (grant .scanner op s)) (h1 : s.ctl.op = none)
    (h2 : s.ctl.paused = none) (h3 : s.ctl.waitScanner = some op) (h6 : s.ctl.quiesced = false) :
    settleFree s = grant .scanner op s := by
  have hf : freePoint s = grant .scanner op s := by
    simp [freePoint, h1, h2, arbitrate, grantable, Controller.waiting, h3, h6]
  unfold settleFree
  rw [takeAll_quiet hq, hf, takeAll_quiet hg]

/-- R41: the grant of a STORE's retirement moves the port alone. -/
theorem grant_retire {w : StoreWork} (h : Nat) (hw : s.engine.work = .store w) :
    grant .engine (.advanceCell h .retired) s =
      s.setCtl { s.ctl.setWaiting .engine none with
        op := some { who := .engine, op := .advanceCell h .retired, phase := .single, suspendCount := 0 } } := by
  generalize hc : ({ s.ctl.setWaiting .engine none with
    op := some { who := .engine, op := .advanceCell h .retired, phase := .single, suspendCount := 0 } } :
      Controller) = c
  have hg : grant .engine (.advanceCell h .retired) s = dropRemoval (s.setCtl c) := by rw [← hc]; rfl
  rw [hg]
  unfold dropRemoval
  have h2 : (s.setCtl c).engine.work = .store w := hw
  rw [h2]
  cases (s.setCtl c).engine.cmd <;> rfl

/-! ### Records and cells -/

/-- R69: a move of cells between classes changes the records alone. -/
theorem modCells_table (f : Nat → SectorRec → SectorRec) (l : List Nat) (s : State) :
    ∃ x, modCells f l s = s.setTable { s.table with recs := x } := by
  induction l generalizing s with
  | nil => exact ⟨s.table.recs, rfl⟩
  | cons c t ih =>
    obtain ⟨x, hx⟩ := ih (modRec (sectorOf c) (f c) s)
    exact ⟨x, hx⟩

/-- R70: the cells the open sector hands out are its next ones. -/
theorem handOut_some (m k : Nat) (ho : s.openSector = some m) (hk : s.table.cursor + k ≤ 32) :
    ∃ x, handOut k s = ((List.range k).map (fun i => m * 32 + s.table.cursor + i),
      s.setTable { s.table with recs := x, cursor := s.table.cursor + k }) := by
  unfold handOut
  rw [ho]
  simp only
  have hm : min k (32 - s.table.cursor) = k := by omega
  rw [hm]
  obtain ⟨x, hx⟩ := modCells_table blankToDead ((List.range k).map (fun i => m * 32 + s.table.cursor + i)) s
  rw [hx]
  split
  · exact ⟨_, by simp only [List.length_map, List.length_range]; rfl⟩
  · exact ⟨x, by simp only [List.length_map, List.length_range]; rfl⟩

/-- R1: a cell given new contents, and every other cell as before. -/
theorem CellArray.cellAt_putCell (a : CellArray) (n k : Nat) (c : Cell) (h : a.wf) (hn : n < 1024) :
    (a.putCell n c).cellAt k = if k = n then c else a.cellAt k := by
  by_cases hk : k = n
  · rw [if_pos hk, hk, CellArray.cellAt_putCell_same _ _ _ h hn]
  · rw [if_neg hk, CellArray.cellAt_putCell_other _ _ _ _ h hk]

/-! ### The key index (R57) -/

/-- R57: the entry of the key with one place of its map changed, and every other entry as before. -/
theorem mem_moveInMap (l : List IndexEntry) (h : ascendingKeys l) (e : IndexEntry) (f copy : Nat) (he : e ∈ l)
    (x : IndexEntry) :
    x ∈ moveInMap e.key f copy l ↔ x = { e with map := e.map.set f copy } ∨ (x ∈ l ∧ x.key ≠ e.key) := by
  have huniq : ∀ y ∈ l, y.key = e.key → y = e := by
    intro y hy hk
    have a := lookup_mem l h y hy
    have b := lookup_mem l h e he
    rw [hk, b] at a
    cases a
    rfl
  unfold moveInMap
  rw [List.mem_map]
  constructor
  · rintro ⟨y, hy, hyx⟩
    by_cases hk : y.key = e.key
    · rw [if_pos hk, huniq y hy hk] at hyx
      exact .inl hyx.symm
    · rw [if_neg hk] at hyx
      subst hyx
      exact .inr ⟨hy, hk⟩
  · rintro (rfl | ⟨hx, hk⟩)
    · exact ⟨e, he, if_pos rfl⟩
    · exact ⟨x, hx, if_neg hk⟩

/-- R57: the keys of the index stay. -/
theorem keys_moveInMap (l : List IndexEntry) (key f copy : Nat) :
    (moveInMap key f copy l).map IndexEntry.key = l.map IndexEntry.key := by
  unfold moveInMap
  rw [List.map_map]
  apply List.map_congr_left
  intro x _
  show (if x.key = key then _ else x : IndexEntry).key = _
  split <;> rfl

/-! ### Commands -/

/-- R116: the state in which a command that is taken begins. -/
abbrev State.begun (s : State) (k : Kind) : State :=
  ((s.setCmds { s.cmds with submitResult := 0 }).setStaging (s.lentStaging k)).setEngine
    { s.engine with state := .running, cmd := some (s.entryFor k), work := .none }

/-- R112, R116: an accepted command that finds the engine free begins in its submission event. -/
theorem exec_taken {i : Instr} {v : Byte} {k : Kind} (hi : submittedByte i = some v) (hk : kindCode k = v)
    (hw : writing false 0x0A s) (ha : acceptable v s) (hf : engineFree s) :
    exec i s = .next ((arrive (match k with
      | .store => beginStore (s.entryFor k) (s.begun k)
      | .fetch => beginFetch (s.entryFor k) (s.begun k)
      | .drop => beginDrop (s.entryFor k) (s.begun k)
      | .probe => beginProbe (s.entryFor k) (s.begun k)
      | .next => beginNext (s.entryFor k) (s.begun k)
      | .reclaim => beginReclaim (s.begun k)
      | .format => beginFormat (s.begun k))).afterWrite false 0x0A) := by
  rw [exec_submit hi hw, submit_taken hk ha hf]
  cases k <;> rfl

/-- R119: a command that ends with room in the Completion Queue. -/
theorem finish_ended {c : Command} (st : Status) (key len : Nat) (q : Option Nat) (n : Nat)
    (hc : s.engine.cmd = some c) (hr : s.comps.length < 8) (hd : s.reclaimer.state ≠ .draining)
    (hs : c.kind ≠ .store ∨ st ≠ .noSpace) :
    finish st key len q n s =
      s.ended c { tag := c.tag, kind := c.kind, status := st, key := key, len := len, seq := q, frags := n } := by
  rw [finish_room st key len q n hc hr hd hs]
  unfold State.ended setOwner Staging.handedBack Staging.setOwner
  cases c.buf with
  | none => rfl
  | some b => cases b <;> rfl

/-- R163: the bytes of a fragment in their place. -/
theorem overwrite_bytesAt (bs l : List Byte) (n : Nat) : overwrite n bs l = bytesAt n bs l := by
  induction bs generalizing n l with
  | nil =>
    unfold overwrite bytesAt
    apply List.ext_getElem <;> simp
  | cons x xs ih =>
    unfold overwrite
    rw [ih]
    unfold bytesAt
    apply List.ext_getElem
    · simp
    · intro i h1 h2
      simp only [List.getElem_mapIdx, List.getElem_set, List.length_cons]
      by_cases h : n = i
      · subst h
        simp
      · by_cases h3 : n + 1 ≤ i ∧ i < n + 1 + xs.length
        · have h4 : n ≤ i ∧ i < n + (xs.length + 1) := by omega
          have h5 : i - n = (i - (n + 1)) + 1 := by omega
          rw [if_pos h3, if_pos h4, h5]
          rfl
        · have h4 : ¬ (n ≤ i ∧ i < n + (xs.length + 1)) := by omega
          rw [if_neg h3, if_neg h4, if_neg h]

/-- R140: the comparison of a FETCH. -/
theorem fetchPasses_iff (c : Command) (w : FetchWork) (o : ReadOutcome) :
    fetchPasses c w o = true ↔ fetchMatches c w o := by
  unfold fetchPasses fetchMatches
  rcases o with ⟨cond, st, hd, pl⟩
  cases cond <;> cases hd <;> simp [Command.keyNum, fragmentBytes]
  constructor
  · rintro ⟨z, f⟩
    obtain ⟨a, b, c, d, e⟩ := of_decide_eq_true z
    rw [e] at f
    exact ⟨a, b, c, d, e, f⟩
  · rintro ⟨a, b, c, d, e, f⟩
    rw [← e] at f
    exact ⟨decide_eq_true ⟨a, b, c, d, e⟩, f⟩

end Sys2Proof.Machine
end

