-- ==== Sys2Proof/WellFormed.lean ====
section
/-! DEFINITION. WellFormed.lean: which commands are the rows they are named for. A SOFT_RESET byte has bit 0 set
(R169); a BAD_KIND byte is no kind code (R112); the rank a failed advance leaves is the rank of a state (R5, R7). Every
other operand is well formed at every value. -/

namespace Sys2Proof

open Machine

/-- The command is one its row describes. -/
def Instr.wellFormed : Instr → Bool
  | .softReset v => v.getLsbD 0
  | .badKind v => !(decide (1 ≤ v.toNat ∧ v.toNat ≤ 7))
  | .stateAdvanceComplete (.failed _ left) => decide (left ≤ 4)
  | .powerOn | .powerOnHoldEnd | .pinReset | .resetRelease | .pfwAssertion | .pfwDeassertion => true
  | .controlByte _ | .frameEnd | .frameBegin | .supplyLoss => true
  | .store | .fetch | .drop | .probe | .next | .reclaim | .format => true
  | .cancel _ | .compPop _ | .reportPop _ | .irqFlagsWrite _ | .bufFlagsWrite _ => true
  | .bufDataWrite _ | .bufDataRead | .configWrite _ | .irqMaskWrite _ | .reclaimLowWrite _ | .registerWrite _ => true
  | .fragmentReadComplete | .headerReadComplete | .cellProgramComplete _ => true
  | .stateAdvanceComplete .verified | .erasePhaseEnd _ | .sectorEraseComplete _ => true

end Sys2Proof
end

