-- ==== Sys2Proof/Laws/PerInstr.lean ====
section
/-! SUPPORT. Laws/PerInstr.lean: one lemma a command about the table itself: a row that writes SUBMIT is a data byte of a
frame, and of these BAD_KIND alone, besides the row of a plain register byte, writes a byte that is no kind code
(R112). -/

namespace Sys2Proof.Laws.Table

open Machine

/-- R112, R210: what a row says of SUBMIT. -/
def Statement (i : Instr) : Prop :=
  ∀ v, submittedByte i = some v → isDataByte i = true ∧
    (i.wellFormed = true → (kindOfCode v = none ↔ i = .badKind v) ∨ i = .registerWrite v)

/-- A row that does not write SUBMIT. -/
theorem of_none {i : Instr} (h : submittedByte i = none) : Statement i := by
  intro v hv
  rw [h] at hv
  cases hv

/-- A row that writes the code of its kind to SUBMIT. -/
theorem of_kind {i : Instr} (k : Kind) (hi : submittedByte i = some (kindCode k)) (hd : isDataByte i = true)
    (hn : ∀ v, i ≠ .badKind v) : Statement i := by
  intro v hv
  rw [hi] at hv
  cases hv
  refine ⟨hd, fun _ => .inl ⟨fun h => ?_, fun h => absurd h (hn _)⟩⟩
  rw [kindOfCode_kindCode] at h
  cases h

theorem powerOn : Statement .powerOn := of_none rfl

theorem powerOnHoldEnd : Statement .powerOnHoldEnd := of_none rfl

theorem pinReset : Statement .pinReset := of_none rfl

theorem resetRelease : Statement .resetRelease := of_none rfl

theorem softReset (v : Byte) : Statement (.softReset v) := of_none rfl

theorem pfwAssertion : Statement .pfwAssertion := of_none rfl

theorem pfwDeassertion : Statement .pfwDeassertion := of_none rfl

theorem controlByte (v : Byte) : Statement (.controlByte v) := of_none rfl

theorem frameEnd : Statement .frameEnd := of_none rfl

theorem store : Statement .store := of_kind .store rfl rfl (fun _ h => by cases h)

theorem fetch : Statement .fetch := of_kind .fetch rfl rfl (fun _ h => by cases h)

theorem drop : Statement .drop := of_kind .drop rfl rfl (fun _ h => by cases h)

theorem probe : Statement .probe := of_kind .probe rfl rfl (fun _ h => by cases h)

theorem next : Statement .next := of_kind .next rfl rfl (fun _ h => by cases h)

theorem reclaim : Statement .reclaim := of_kind .reclaim rfl rfl (fun _ h => by cases h)

theorem format : Statement .format := of_kind .format rfl rfl (fun _ h => by cases h)

theorem badKind (v : Byte) : Statement (.badKind v) := by
  intro x hx
  cases hx
  refine ⟨rfl, fun hw => .inl ⟨fun _ => rfl, fun _ => kindOfCode_none v ?_⟩⟩
  simp only [Instr.wellFormed, Bool.not_eq_true', decide_eq_false_iff_not] at hw
  by_cases h0 : v.toNat = 0
  · exact .inl (BitVec.eq_of_toNat_eq h0)
  · omega

theorem cancel (tag : Byte) : Statement (.cancel tag) := of_none rfl

theorem compPop (v : Byte) : Statement (.compPop v) := of_none rfl

theorem reportPop (v : Byte) : Statement (.reportPop v) := of_none rfl

theorem irqFlagsWrite (v : Byte) : Statement (.irqFlagsWrite v) := of_none rfl

theorem bufFlagsWrite (v : Byte) : Statement (.bufFlagsWrite v) := of_none rfl

theorem bufDataWrite (v : Byte) : Statement (.bufDataWrite v) := of_none rfl

theorem bufDataRead : Statement .bufDataRead := of_none rfl

theorem configWrite (v : Byte) : Statement (.configWrite v) := of_none rfl

theorem irqMaskWrite (v : Byte) : Statement (.irqMaskWrite v) := of_none rfl

theorem reclaimLowWrite (v : Byte) : Statement (.reclaimLowWrite v) := of_none rfl

theorem registerWrite (v : Byte) : Statement (.registerWrite v) := by
  intro x hx
  cases hx
  exact ⟨rfl, fun _ => .inr rfl⟩

theorem fragmentReadComplete : Statement .fragmentReadComplete := of_none rfl

theorem headerReadComplete : Statement .headerReadComplete := of_none rfl

theorem cellProgramComplete (r : ProgramResult) : Statement (.cellProgramComplete r) := of_none rfl

theorem stateAdvanceComplete (r : AdvanceResult) : Statement (.stateAdvanceComplete r) := of_none rfl

theorem erasePhaseEnd (b : Bool) : Statement (.erasePhaseEnd b) := of_none rfl

theorem sectorEraseComplete (r : EraseResult) : Statement (.sectorEraseComplete r) := of_none rfl

theorem frameBegin : Statement .frameBegin := of_none rfl

theorem supplyLoss : Statement .supplyLoss := of_none rfl

end Sys2Proof.Laws.Table
end

