-- ==== Sys2Proof/Tests/Slice0.lean ====
section
/-! SUPPORT. Tests/Slice0.lean: the smoke tests of WellFormed, one or two tests a command with the values of the spec's
own tables and worked examples, and for each statement with hypotheses a state and operands that meet them. -/

namespace Sys2Proof.Tests

open Machine

/- One test after the other, so that many kernel evaluations do not wait in a thread each. -/
set_option Elab.async false

/-! ### WellFormed -/

theorem test_wellFormed_softReset : (Instr.softReset 0x01).wellFormed = true ∧ (Instr.softReset 0xFE).wellFormed = false := by
  decide

theorem test_wellFormed_badKind : (Instr.badKind 0).wellFormed = true ∧ (Instr.badKind 8).wellFormed = true ∧
    (Instr.badKind 1).wellFormed = false ∧ (Instr.badKind 7).wellFormed = false := by
  decide

theorem test_wellFormed_stateAdvance : (Instr.stateAdvanceComplete (.failed false 4)).wellFormed = true ∧
    (Instr.stateAdvanceComplete (.failed false 5)).wellFormed = false := by
  decide

/-- No row of the table gives bits. -/
theorem test_decode_none : decodeTableWord 16 0x0101 = none ∧ State.reset.withFetchWord 16 1 = State.reset := ⟨rfl, rfl⟩

/-! ### States of the tests -/

/-- What a field reads after a command. -/
def after {α : Type} (f : State → α) (i : Instr) (s : State) : Option α :=
  match exec i s with
  | .next t => some (f t)
  | .fault _ | .refused _ => none

/-- A READY part with nothing to do. -/
def idle : State :=
  State.reset.setPower { supply := true, supplyHold := false, resetLow := false, softHold := false, isReady := true }

/-- A part in its scan. -/
def starting : State := idle.setPower { idle.power with isReady := false }

/-- The next byte is written at this register. -/
def atReg (bank : Bool) (a : RegAddr) (s : State) : State := s.setPort { s.port with frame := .data false bank a }

/-- The next byte is read at this register. -/
def readReg (bank : Bool) (a : RegAddr) (s : State) : State := s.setPort { s.port with frame := .data true bank a }

/-- The operation of a requester on the port. -/
def onPort (who : Requester) (op : ArrayOp) (phase : Phase) (s : State) : State :=
  s.setCtl { s.ctl with op := some { who := who, op := op, phase := phase, suspendCount := 0 } }

/-- One sector record given. -/
def withRec (n : Nat) (r : SectorRec) (s : State) : State :=
  s.setTable { s.table with recs := s.table.recs.set n r }

/-- The command fields. -/
def fields (tag : Byte) (key len : Half) (buf : Byte) (s : State) : State :=
  s.setCmds { s.cmds with tag := tag, key := key, len := len, buf := buf }

/-- A cell as a program leaves it, in a state. -/
def cellOf (st : CellState) (key seq frag count : Nat) (recLen : Option Nat) (bytes : List Byte) : Cell :=
  { Program.image { cell := 0, state := .written, key := key, seq := seq, frag := frag, count := count,
                    recLen := recLen, payLen := bytes.length, payload := bytes, check := none } with state := st }

/-- The first bytes of the record of 70 bytes. -/
def firstBytes : List Byte := (List.range 64).map (BitVec.ofNat 8)

/-- The index entry of key 517 in the worked supersession of 02_records_and_generations.md. -/
def entry517 : IndexEntry := { key := 517, seq := 88, len := 70, count := 2, map := [41, 42] }

/-- Before the STORE of the worked supersession: S6 open at cursor 8, three sectors in the queue, key 517 at C41 and
C42. -/
def before517 : State :=
  let s := idle.setTable { idle.table with cursor := 8, queue := [20, 21, 22] }
  let s := withRec 1 { state := .inUse, epoch := 1, erases := 3, role := .none, blank := 0, live := 10, dead := 20,
                       faultyCount := 2, faulty := [33, 34], pinned := false } s
  let s := withRec 6 { state := .inUse, epoch := 1, erases := 3, role := .isOpen, blank := 24, live := 6, dead := 2,
                       faultyCount := 0, faulty := [], pinned := false } s
  let s := s.setSettings { s.settings with background := false }
  let s := s.setArray { s.array with
    cells := [(41, cellOf .committed 517 88 0 2 (some 70) firstBytes), (42, cellOf .written 517 88 1 2 none [1, 2, 3, 4, 5, 6])]
    sectors := s.array.sectors.set 1 (writtenHeader .inUse 1 3) |>.set 6 (writtenHeader .inUse 1 3) }
  (s.setIndex [entry517]).setEngine { s.engine with seqNext := 203, epoch := 1 }

/-- The fields of the worked transaction: tag 7, key 517, 150 bytes, buffer A, and SUBMIT the next register. -/
def submit517 : State := atReg false 0x0A (fields 7 517 150 0 before517)

/-- R44, R97: the copy of a head whose source a STORE has retired is COMMITTED. -/
theorem test_copyProgram_head : (copyProgram 9
    { cond := .readable, state := .retired, payload := [], header := some default }).state = .committed := by decide

/-- R17: a header that reads erased after a failed blank verify does not make the sector BLANK-headered. -/
theorem test_headerPhase_unverified :
    ((freshArray.putSector 3 .garbled).endHeaderPhase 3 7 1204 false (.failed .erased)).1.sectorAt 3 = .garbled := by
  decide +kernel

/-- R173, R175: in the scan a FAULTY cell joins the faulty set and the counts stay those of R66. -/
theorem test_scan_counts_kept : (cellFailed 33 starting).recAt 1 = { resetRec with faulty := [33] } := by decide +kernel

/-! ### Checks (R3) and registers -/

/-- The check value of the generator over the nine characters 1 to 9. -/
theorem test_check16 : check16 [0x31, 0x32, 0x33, 0x34, 0x35, 0x36, 0x37, 0x38, 0x39] = 0x29B1 := by decide +kernel

/-- R16, R15, R6: the sector header check is over 5 bytes, low byte first. -/
theorem test_sectorCheck : sectorCheck 0x0102 0x030405 = check16 [0x02, 0x01, 0x05, 0x04, 0x03] := by decide +kernel

/-! ### Resets and the supply -/

theorem test_powerOn : after (fun t => (t.scanner.cause, t.settings.reclaimLow, t.cmds.submitResult)) .powerOn
    (idle.setSettings { idle.settings with reclaimLow := 500 }) = some (.powerOn, 96, 0xFF) := by decide +kernel

theorem test_powerOnHoldEnd : after (fun t => (t.deviceStarting, t.ctl.op.map Operation.op)) .powerOnHoldEnd State.reset =
    some (true, some (.headerRead 0)) := by decide +kernel

theorem test_pinReset : after (fun t => (t.scanner.cause, t.held)) .pinReset idle = some (.pin, true) := by decide +kernel

theorem test_resetRelease : after (fun t => (t.power.resetLow, t.deviceStarting)) .resetRelease
    (starting.setPower { starting.power with resetLow := true }) = some (false, true) := by decide +kernel

/-- R169: a soft reset keeps CONFIG and RECLAIM_LOW. -/
theorem test_softReset : after (fun t => (t.scanner.cause, t.settings.reclaimLow)) (.softReset 0x01)
    (atReg false 0x01 (idle.setSettings { idle.settings with reclaimLow := 500 })) = some (.soft, 500) := by
  decide +kernel

theorem test_pfwAssertion : after (fun t => (t.pfw.asserted, t.ctl.quiesced)) .pfwAssertion idle = some (true, true) := by
  decide +kernel

theorem test_pfwDeassertion : after (fun t => (t.pfw.asserted, t.ctl.quiesced)) .pfwDeassertion
    (idle.setCtl { idle.ctl with quiesced := true }) = some (false, false) := by decide +kernel

theorem test_supplyLoss : after (fun t => (t.power.supply, t.index)) .supplyLoss before517 =
    some (false, [entry517]) := by decide +kernel

/-! ### Frames and registers -/

/-- R209: STATUS of a READY part at rest is 02h. -/
theorem test_frameBegin : after (fun t => (t.port.frame, t.port.statusOut)) .frameBegin idle = some (.control, 0x02) := by
  decide +kernel

/-- R209: control bytes of the table of 11_register_window_and_serial_port.md. -/
theorem test_controlByte : ([0x04, 0x1B, 0x82, 0x8E, 0xD9] : List Byte).map
      (fun v => after (fun t => t.port.frame) (.controlByte v) (idle.setPort { idle.port with frame := .control })) =
    [some (.data false false 0x04), some (.data false false 0x1B), some (.data true false 0x02),
      some (.data true false 0x0E), some (.data true true 0x19)] := by decide +kernel

/-- R213, R85: a low byte of 1 over a stored 96 gives 1, and the clamp 32. -/
theorem test_frameEnd : after (fun t => (t.settings.reclaimLow, t.port.frame)) .frameEnd
    (atReg true 0x02 (idle.setPort { idle.port with lowByte := some 1 })) = some (32, .closed) := by decide +kernel

theorem test_registerWrite : after (fun t => t.cmds.key) (.registerWrite 0x02) (atReg false 0x06 (fields 7 5 0 0 idle)) =
    some 517 := by decide +kernel

theorem test_irqFlagsWrite : after (fun t => (t.irq.ready, t.irq.fault)) (.irqFlagsWrite 0x08)
    (atReg false 0x02 (idle.setIrq { ready := true, fault := true, space := false, mask := 0 })) = some (false, true) := by
  decide +kernel

theorem test_irqMaskWrite : after (fun t => t.irq.mask) (.irqMaskWrite 0xFF) (atReg false 0x03 idle) = some 0x3F := by
  decide +kernel

theorem test_configWrite : after (fun t => (t.settings.background, t.settings.suspend)) (.configWrite 0x02)
    (atReg true 0x00 idle) = some (false, true) := by decide +kernel

theorem test_reclaimLowWrite : after (fun t => (t.port.highByte, t.settings.reclaimLow)) (.reclaimLowWrite 0x04)
    (atReg true 0x02 idle) = some (some 0x04, 96) := by decide +kernel

/-! ### Buffers and reads -/

/-- R158, R160: the last offset of the buffer, and the wrap to 0. -/
theorem test_bufDataWrite : after (fun t => (t.staging.offset, t.staging.bytesB[1023]?)) (.bufDataWrite 0xA5)
    (atReg false 0x1E (idle.setStaging { idle.staging with select := .bufB, offset := 1023 })) = some (0, some 0xA5) := by
  decide +kernel

/-- R159: a read of a buffer the engine owns returns 00h and raises the conflict flag. -/
theorem test_bufDataRead_engine : after (fun t => (t.port.out, t.staging.conflict)) .bufDataRead
    (readReg false 0x1E (idle.setStaging { idle.staging with ownerA := .engine })) = some (0x00, true) := by
  decide +kernel

/-- R212: SEQ_NEXT of the worked supersession, its low byte first. -/
theorem test_bufDataRead_register : after (fun t => t.port.out) .bufDataRead (readReg true 0x12 before517) =
    some 0xCB := by decide +kernel

theorem test_bufFlagsWrite : after (fun t => t.staging.conflict) (.bufFlagsWrite 0x01)
    (atReg false 0x1F (idle.setStaging { idle.staging with conflict := true })) = some false := by decide +kernel

/-! ### Submissions -/

/-- The worked supersession: sequence 203 taken, cells C200 to C202, cursor 11, erased-cell count 117. -/
theorem test_store : after (fun t => (t.engine.seqNext, t.table.cursor, t.erasedCount)) .store submit517 =
    some (204, 11, 117) := by decide +kernel

theorem test_store_program : after (fun t => match t.ctl.op.map Operation.op with
      | some (.program p) => some (p.cell, p.recLen, p.payLen)
      | _ => none) .store submit517 = some (some (200, some 150, 64)) := by decide +kernel

theorem test_fetch : after (fun t => t.ctl.op.map Operation.op) .fetch submit517 = some (some (.read 41)) := by
  decide +kernel

theorem test_drop : after (fun t => (t.ctl.op.map Operation.op, t.index)) .drop submit517 =
    some (some (.advanceCell 41 .retired), []) := by decide +kernel

theorem test_probe : after (fun t => t.comps.map fun e => (e.status, e.len, e.seq, e.frags)) .probe submit517 =
    some [(.done, 70, some 88, 2)] := by decide +kernel

theorem test_next : after (fun t => t.comps.map fun e => (e.status, e.key)) .next
    (atReg false 0x0A (fields 7 516 0 0 before517)) = some [(.done, 517)] := by decide +kernel

theorem test_next_last : after (fun t => t.comps.map fun e => (e.status, e.key)) .next submit517 =
    some [(.notFound, 517)] := by decide +kernel

theorem test_reclaim : after (fun t => t.comps.map fun e => (e.status, e.tag)) .reclaim
    (atReg false 0x0A (fields 9 0 0 0 idle)) = some [(.nothingToDo, 9)] := by decide +kernel

theorem test_format : after (fun t => (t.engine.epoch, t.index)) .format submit517 = some (2, []) := by decide +kernel

/-- R112: 0 and 8 are no kind codes. -/
theorem test_badKind : after (fun t => t.cmds.submitResult) (.badKind 8) submit517 = some 0x02 := by decide +kernel

theorem test_cancel : after (fun t => (t.cmds.cancelResult, t.comps)) (.cancel 3) (atReg false 0x0C idle) =
    some (0x02, []) := by decide +kernel

/-- A completion entry. -/
def entryDone : Completion :=
  { tag := 7, kind := .store, status := .done, key := 517, len := 150, seq := some 203, frags := 3 }

theorem test_compPop : after (fun t => t.comps) (.compPop 0) (atReg false 0x1B (idle.setComps [entryDone])) = some [] := by
  decide +kernel

/-- Two report entries. -/
def twoReports : List Report :=
  [{ kind := .tornCell, num := 274, key := none, seq := none },
   { kind := .superseded, num := 185, key := some 55, seq := some 700 }]

theorem test_reportPop : after (fun t => t.scanner.ring) (.reportPop 0)
    (atReg true 0x24 (idle.setScanner { idle.scanner with ring := twoReports })) = some twoReports.tail := by
  decide +kernel

/-! ### Ends of array operations -/

/-- The FETCH of key 517 with its first read on the port. -/
def fetching (next : Nat) (again : Bool) : State :=
  (onPort .engine (.read ([41, 42].getD next 0)) .single before517).setEngine
    { before517.engine with
      state := .running
      cmd := some { tag := 7, kind := .fetch, key := some 517, len := none, buf := some .bufA }
      work := .fetch { seq := 88, len := 70, count := 2, map := [41, 42], next := next, readOnce := again,
                       delivered := 64 * next } }

theorem test_fragmentReadComplete : after (fun t => (t.staging.bytesA[63]?, t.ctl.op.map Operation.op))
    .fragmentReadComplete (fetching 0 false) = some (some 63, some (.read 42)) := by decide +kernel

theorem test_fragmentReadComplete_last : after (fun t => t.comps.map fun e => (e.status, e.len, e.seq))
    .fragmentReadComplete (fetching 1 false) = some [(.done, 70, some 88)] := by decide +kernel

theorem test_headerReadComplete : after (fun t => ((t.recAt 1).state, (t.recAt 1).erases)) .headerReadComplete
    (onPort .scanner (.headerRead 1) .single (starting.setArray before517.array)) = some (.inUse, 3) := by decide +kernel

/-- The STORE of the worked supersession in the program of fragment `next`. -/
def storing (next fails : Nat) : State :=
  let c : Command := { tag := 7, kind := .store, key := some 517, len := some 150, buf := some .bufA }
  let w : StoreWork := { phase := .programming, replaces := true, seq := 203, count := 3, map := [200, 201, 202],
                         next := next, fails := fails, oldMap := none, toRetire := [], ending := .done }
  let s := before517.setEngine { before517.engine with state := .running, cmd := some c, work := .store w, seqNext := 204 }
  onPort .engine (.program (fragmentProgram c w next s)) .single s

/-- C202 after its program: key 517, sequence 203, fragment 2 of 3, payload length 22. -/
theorem test_cellProgramComplete : after (fun t => match (t.array.cellAt 202).header with
      | .fields h => some (h.seq, h.frag, h.payLen)
      | _ => none) (.cellProgramComplete .verified) (storing 2 0) = some (some (203, 2, 22)) := by decide +kernel

theorem test_cellProgramComplete_commit : after (fun t => t.ctl.op.map Operation.op) (.cellProgramComplete .verified)
    (storing 2 0) = some (some (.advanceCell 200 .committed)) := by decide +kernel

/-- The STORE of the worked supersession with its commit advance on the port. -/
def committing (present : Bool) : State :=
  let s := storing 2 0
  let w : StoreWork := { phase := .committing, replaces := present, seq := 203, count := 3, map := [200, 201, 202],
                         next := 3, fails := 0, oldMap := none, toRetire := [], ending := .done }
  ((onPort .engine (.advanceCell 200 .committed) .single s).setEngine { s.engine with work := .store w }).setArray
    (s.array.putCell 200 (cellOf .written 517 203 0 3 (some 150) firstBytes)) |>.setIndex
      (if present then [entry517] else [])

/-- The commit event of the worked supersession: the new map, and the retirement of C41 first. -/
theorem test_stateAdvanceComplete : after (fun t => (t.index.map IndexEntry.map, t.ctl.op.map Operation.op))
    (.stateAdvanceComplete .verified) (committing true) = some ([[200, 201, 202]], some (.advanceCell 41 .retired)) := by
  decide +kernel

/-- The erase of S3 of the worked warning, epoch 7 and erase count 1204. -/
def erasing (phase : Phase) : State :=
  let s := idle.setTable { idle.table with queue := [10, 11] }
  let s := withRec 3 { state := .reclaiming, epoch := 7, erases := 1203, role := .victim, blank := 0, live := 0,
                       dead := 30, faultyCount := 2, faulty := [96, 99], pinned := false } s
  let s := s.setArray { cells := [(97, cellOf .retired 12 310 0 1 (some 64) firstBytes)],
                        sectors := s.array.sectors.set 3 .garbled }
  let s := s.setSettings { s.settings with background := false }
  (onPort .reclaimer (.erase 3 7 1204) phase s).setReclaimer { s.reclaimer with state := .erasing, victim := some 3, cursor := 32 }

theorem test_erasePhaseEnd : after (fun t => (t.array.cellAt 97, t.array.sectorAt 3)) (.erasePhaseEnd true)
    (erasing .erasePhase) = some (blankCell, .erased) := by decide +kernel

/-- The end of the worked warning: S3 at the tail of the queue S10, S11. -/
theorem test_sectorEraseComplete : after (fun t => (t.table.queue, (t.recAt 3).erases)) (.sectorEraseComplete .verified)
    (erasing (.headerPhase true)) = some ([10, 11, 3], 1204) := by decide +kernel

theorem test_sectorEraseComplete_failed : after (fun t => ((t.recAt 3).state, (t.recAt 3).dead, t.irq.fault))
    (.sectorEraseComplete (.failed .torn)) (erasing (.headerPhase true)) = some (.worn, 30, true) := by decide +kernel

/-! ### Witnesses: the hypotheses of the statements hold together -/

/-- The front of the queue. -/
theorem test_witness_FrontCommandRuns : (idle.setPending [.pinReset, .resetRelease]).pending = .pinReset :: [.resetRelease] :=
  rfl

theorem test_witness_QueueOfCommandsKept : ∃ t, exec (.bufDataWrite 1) (atReg false 0x1E (idle.setPending [.store])) =
    .next t := ⟨_, rfl⟩

/-- A sound state with everything at the ends of its ranges: eight completions and one held, four commands, eight
reports and 255 lost, cursor 32, selected sector 31, RECLAIM_LOW 1024, pass counter 4. -/
def full : State :=
  let c : Command := { tag := 1, kind := .probe, key := some 1, len := none, buf := none }
  let s := (idle.setComps (List.replicate 8 entryDone)).setCmds { idle.cmds with queue := List.replicate 4 c }
  let s := s.setEngine { s.engine with state := .holding, held := some { entry := entryDone, buf := some .bufA } }
  let s := s.setScanner { s.scanner with ring := List.replicate 8 { kind := .orphan, num := 1023, key := none, seq := none },
                                         lost := 255 }
  let s := s.setTable { s.table with sel := 31 }
  let s := s.setIndex [{ entry517 with key := 1 }, { entry517 with key := 4095 }]
  let s := s.setArray { s.array with cells := [(0, cellOf .written 1 1 0 1 (some 0) []), (1023, { blankCell with header := .garbled })] }
  let s := s.setSettings { s.settings with reclaimLow := 1024 }
  let s := s.setIrq { s.irq with mask := 0x3F }
  (atReg false 0x1B (s.setCtl { s.ctl with pass := 4 })).setPending [.compPop 0]

theorem test_witness_ArrayStaysCanonical : full.array.wf ∧ ∃ t, step full = .next t := ⟨by decide +kernel, _, rfl⟩

theorem test_witness_SectorCountsAdd : (full.table.wf ∧ countsExact full) ∧ full.power.isReady = true ∧
    ∃ t, step full = .next t := ⟨by decide +kernel, by decide +kernel, _, rfl⟩

theorem test_witness_QueuesKeepCapacity : (capacitiesOk full ∧ heldOk full) ∧ ∃ t, step full = .next t :=
  ⟨by decide +kernel, _, rfl⟩

theorem test_witness_IndexStaysAscending : indexOk full ∧ ∃ t, step full = .next t := ⟨by decide +kernel, _, rfl⟩

theorem test_witness_RangesKept : (full.staging.wf ∧ full.settings.wf ∧ full.irq.wf ∧ full.ctl.wf) ∧
    ∃ t, step full = .next t := ⟨by decide +kernel, _, rfl⟩

theorem test_witness_PowerOnResets : idle.ctl.op = none ∧ idle.ctl.paused = none := ⟨rfl, rfl⟩

theorem test_witness_PinResets : idle.running = true ∧ idle.ctl.op = none ∧ idle.ctl.paused = none ∧
    idle.port.frame = .closed ∧ (atReg false 0 idle).running = true ∧ (atReg false 0 idle).port.frame ≠ .closed := by decide

theorem test_witness_SoftResets : writing false 0x01 (atReg false 0x01 idle) ∧ (0x01 : Byte).getLsbD 0 = true ∧
    (0xFF : Byte).getLsbD 0 = true := by decide

theorem test_witness_ControlNeedsBitZero : writing false 0x01 (atReg false 0x01 idle) ∧ (0x00 : Byte).getLsbD 0 = false ∧
    (0xFE : Byte).getLsbD 0 = false := by decide

theorem test_witness_PinResetInHold : State.reset.power.supply = true ∧ State.reset.held = true := by decide

/-- The part with a hold of each kind. -/
def holds (supply pin soft : Bool) : State :=
  starting.setPower { supply := true, supplyHold := supply, resetLow := pin, softHold := soft, isReady := false }

/-- The same in a frame that is not decoded. -/
def holdsFrame (supply pin soft : Bool) : State :=
  (holds supply pin soft).setPort { starting.port with frame := .undecoded }

theorem test_witness_HoldEndBeginsScan :
    (portEmpty (holds true false false) ∧ (holds true false false).power =
      { supply := true, supplyHold := true, resetLow := false, softHold := false, isReady := false }) ∧
    (portEmpty (holds false true false) ∧ (holds false true false).power =
      { supply := true, supplyHold := false, resetLow := true, softHold := false, isReady := false }) ∧
    (portEmpty (holdsFrame false false true) ∧ (holdsFrame false false true).power =
      { supply := true, supplyHold := false, resetLow := false, softHold := true, isReady := false } ∧
      (holdsFrame false false true).port.frame = .undecoded ∧ (holdsFrame false false true).port.lowByte = none ∧
      (holdsFrame false false true).port.highByte = none) := by decide

theorem test_witness_HoldWaitsForAll :
    ((holds true true false).power.supplyHold = true ∧ (holds true true false).power.resetLow = true) ∧
    ((holds true false true).power.supplyHold = true ∧ (holds true false true).power.softHold = true) ∧
    ((holds false true true).power.resetLow = true ∧ (holds false true true).power.softHold = true) ∧
    ((holdsFrame false true true).power.softHold = true ∧ (holdsFrame false true true).port.frame = .undecoded ∧
      (holdsFrame false true true).port.lowByte = none ∧ (holdsFrame false true true).port.highByte = none) := by decide

/-- A program of cell C1023. -/
def lastProgram : Program :=
  { cell := 1023, state := .written, key := 4095, seq := 4294967295, frag := 0, count := 1, recLen := some 1, payLen := 1,
    payload := [0x55], check := none }

theorem test_witness_ResetCutsOperation_begins : cutsOperation .powerOn idle ∧ cutsOperation .pinReset idle ∧
    cutsOperation (.softReset 1) (atReg false 0x01 idle) ∧ cutsOperation .supplyLoss idle :=
  ⟨.inl (.inl rfl), .inl (.inr (.inl ⟨rfl, rfl⟩)), .inl (.inr (.inr ⟨1, rfl, rfl, rfl⟩)), .inr rfl⟩

/-- An erase of S31 suspended for the read of C1. -/
def suspendedErase : State :=
  idle.setCtl { idle.ctl with
    op := some { who := .engine, op := .read 1, phase := .single, suspendCount := 0 }
    paused := some { who := .reclaimer, op := .erase 31 1 1, phase := .erasePhase, suspendCount := 1 } }

theorem test_witness_ResetCutsOperation_suspended : suspendedErase.array.wf ∧
    suspendedErase.ctl.paused.map (fun o => (o.op, o.phase)) = some (.erase 31 1 1, .erasePhase) ∧
    suspendedErase.ctl.op.map Operation.op = some (.read 1) := by decide +kernel

theorem test_witness_ResetCutsOperation_operations : full.array.wf ∧ idle.ctl.paused = none ∧
    (onPort .engine (.read 1023) .single idle).ctl.op.map Operation.op = some (.read 1023) ∧
    (onPort .scanner (.headerRead 31) .single idle).ctl.op.map Operation.op = some (.headerRead 31) ∧
    (onPort .engine (.advanceCell 0 .retired) .single idle).ctl.op.map Operation.op = some (.advanceCell 0 .retired) ∧
    (onPort .scanner (.advanceHeader 31 .inUse) .single idle).ctl.op.map Operation.op = some (.advanceHeader 31 .inUse) ∧
    (onPort .engine (.program lastProgram) .single idle).ctl.op.map Operation.op = some (.program lastProgram) ∧
    cellCondition (idle.array.cellAt 1023) = .blank ∧
    (onPort .reclaimer (.erase 31 1 1) .erasePhase idle).ctl.op.map Operation.phase = some .erasePhase ∧
    (onPort .reclaimer (.erase 0 1 1) (.headerPhase true) idle).ctl.op.map Operation.phase = some (.headerPhase true) ∧
    (onPort .scanner (.restoreHeader 31 1 0) (.headerPhase true) idle).ctl.op.map Operation.op =
      some (.restoreHeader 31 1 0) := by
  decide +kernel

theorem test_witness_SupplyLossStops : before517.ctl.op = none ∧ before517.ctl.paused = none := ⟨rfl, rfl⟩

/-- The engine at work, so that it takes no command. -/
def busy (s : State) : State := s.setEngine { s.engine with state := .running }

theorem test_witness_WarningQuiesces :
    ((onPort .engine (.program lastProgram) .single (busy idle)).running = true ∧
      quiet (onPort .engine (.program lastProgram) .single (busy idle)) ∧
      (onPort .engine (.program lastProgram) .single (busy idle)).ctl.quiesced = false ∧ Phase.single ≠ .erasePhase ∧
      (onPort .engine (.program lastProgram) .single (busy idle)).ctl.paused = none) ∧
    ((onPort .reclaimer (.erase 31 1 1) (.headerPhase false) idle).running = true ∧
      quiet (onPort .reclaimer (.erase 31 1 1) (.headerPhase false) idle) ∧ Phase.headerPhase false ≠ .erasePhase) ∧
    (State.reset.power.supply = true ∧ State.reset.held = true) := by decide

theorem test_witness_WarningAbandonsErase : (erasing .erasePhase).running = true ∧ quiet (erasing .erasePhase) ∧
    (erasing .erasePhase).ctl = { op := some { who := .reclaimer, op := .erase 3 7 1204, phase := .erasePhase,
                                               suspendCount := 0 },
                                  paused := none, waitEngine := none, waitReclaimer := none, waitScanner := none,
                                  pass := 0, quiesced := false } ∧
    (erasing .erasePhase).reclaimer.barred = false ∧ (erasing .erasePhase).array.wf ∧
    (erasing .erasePhase).table.recs.length = 32 := by decide +kernel

/-- A quiesced part with these requests waiting and this pass counter. -/
def withheld (e r : Option ArrayOp) (pass : Nat) (queue : List Nat) : State :=
  (busy idle).setCtl { idle.ctl with waitEngine := e, waitReclaimer := r, pass := pass, quiesced := true } |>.setTable
    { idle.table with queue := queue }

theorem test_witness_WarningEnds :
    ((onPort .engine (.read 0) .single (withheld none none 0 [])).running = true ∧
      quiet (onPort .engine (.read 0) .single (withheld none none 0 [])) ∧
      (onPort .engine (.read 0) .single (withheld none none 0 [])).ctl.quiesced = true ∧
      (onPort .engine (.read 0) .single (withheld none none 0 [])).ctl.op ≠ none) ∧
    ((withheld none (some (.erase 31 7 1204)) 4 []).running = true ∧
      quiet (withheld none (some (.erase 31 7 1204)) 4 []) ∧
      (withheld none (some (.erase 31 7 1204)) 4 []).ctl =
        { op := none, paused := none, waitEngine := none, waitReclaimer := some (.erase 31 7 1204), waitScanner := none,
          pass := 4, quiesced := true }) := by decide +kernel

/-- The waiting programs of the engine and the Reclaimer. -/
def twoWait (pass : Nat) (queue : List Nat) : State :=
  withheld (some (.program lastProgram)) (some (.program { lastProgram with cell := 0 })) pass queue

theorem test_witness_ArbiterChoosesByCount : (twoWait 0 []).running = true ∧ quiet (twoWait 0 []) ∧
    (twoWait 0 []).ctl = { op := none, paused := none, waitEngine := some (.program lastProgram),
                           waitReclaimer := some (.program { lastProgram with cell := 0 }), waitScanner := none,
                           pass := 0, quiesced := true } ∧
    (twoWait 0 []).erasedCount < 32 ∧ (twoWait 4 [10]).erasedCount = 32 ∧ (twoWait 4 [10]).ctl.pass = 4 ∧
    (twoWait 3 [10]).erasedCount = 32 ∧ (twoWait 3 [10]).ctl.pass = 3 := by decide +kernel

theorem test_witness_FrameOpens : idle.port.frame = .closed ∧ idle.running = true ∧
    (idle.setPort { idle.port with frame := .control }).port.frame = .control := by decide

theorem test_witness_FrameCloses : (readReg true 0x3F idle).port.frame ≠ .closed ∧
    (readReg true 0x3F idle).port.lowByte = none ∧ (readReg true 0x3F idle).port.highByte = none ∧
    (readReg true 0x3F idle).power.softHold = false := by decide

theorem test_witness_UndecodedFrameInert : (State.reset.port.frame = .closed ∧ State.reset.running = false) ∧
    ((holdsFrame true false false).port.frame = .undecoded ∧ isDataByte .store = true ∧ isDataByte .bufDataRead = true) := by
  decide

theorem test_witness_CommandFieldsStored : writing false 0x04 (atReg false 0x04 idle) ∧
    writing false 0x05 (atReg false 0x05 idle) ∧ writing false 0x06 (atReg false 0x06 idle) ∧
    writing false 0x07 (atReg false 0x07 idle) ∧ writing false 0x08 (atReg false 0x08 idle) ∧
    writing false 0x09 (atReg false 0x09 idle) := by decide

theorem test_witness_PointerAndSelectStored : writing false 0x1C (atReg false 0x1C idle) ∧
    writing false 0x1D (atReg false 0x1D idle) ∧ writing true 0x25 (atReg true 0x25 idle) := by decide

theorem test_witness_ReadOnlyWritesIgnored : writing false 0x3F (atReg false 0x3F idle) ∧ hostWrites false 0x3F = false ∧
    hostWrites false 0x00 = false ∧ hostWrites true 0x03 = false ∧ hostWrites true 0x2F = false := by decide

theorem test_witness_StickyFlagsCleared : writing false 0x02 (atReg false 0x02 idle) := rfl

theorem test_witness_MaskStored : writing false 0x03 (atReg false 0x03 idle) := rfl

theorem test_witness_ConfigStored : (writing true 0x00 (atReg true 0x00 idle) ∧ quiet (atReg true 0x00 idle) ∧
      portSettled (atReg true 0x00 idle) ∧ (0x02 : Byte).getLsbD 0 = false) ∧
    (writing true 0x00 (atReg true 0x00 (erasing .erasePhase)) ∧ quiet (atReg true 0x00 (erasing .erasePhase)) ∧
      portSettled (atReg true 0x00 (erasing .erasePhase)) ∧ (erasing .erasePhase).reclaimer.state ≠ .idle) := by decide

/-- A READY part whose one eligible victim is S31: 30 dead cells and no live one, with 32 cells erased. -/
def oneVictim : State :=
  let s := idle.setTable { idle.table with queue := [10] }
  let s := withRec 31 { state := .inUse, epoch := 1, erases := 3, role := .none, blank := 0, live := 2, dead := 30,
                        faultyCount := 0, faulty := [], pinned := false } s
  let s := s.setEngine { s.engine with epoch := 1, seqNext := 1 }
  s.setSettings { s.settings with background := false }

theorem only_victim : ∀ m < 32, m ≠ 31 → ¬ eligibleVictim oneVictim m := by decide +kernel

/-- R90, R91: the best victim of `oneVictim`, in any state that differs from it elsewhere. -/
theorem best_victim (s : State) (ht : s.table = oneVictim.table) (hr : s.reclaimer = oneVictim.reclaimer)
    (he : s.engine.epoch = 1) : isBestVictim s 31 := by
  have h : ∀ m, eligibleVictim s m ↔ eligibleVictim oneVictim m := by
    intro m
    unfold eligibleVictim State.recAt State.erasedCount State.openRoom State.openSector
    rw [ht, hr, he]
    rfl
  refine ⟨(h 31).mpr (by decide +kernel), fun m hm hne => ?_⟩
  have hm' := (h m).mp hm
  exact absurd hm' (only_victim m hm'.1 hne)

theorem test_witness_BackgroundStarts : (writing true 0x00 (atReg true 0x00 oneVictim) ∧ quiet (atReg true 0x00 oneVictim) ∧
      (atReg true 0x00 oneVictim).deviceReady = true ∧ portEmpty (atReg true 0x00 oneVictim) ∧
      (atReg true 0x00 oneVictim).ctl.quiesced = false ∧ (atReg true 0x00 oneVictim).table.recs.length = 32 ∧
      (0x01 : Byte).getLsbD 0 = true ∧ (atReg true 0x00 oneVictim).settings.background = false ∧
      (atReg true 0x00 oneVictim).reclaimer.state = .idle ∧ (atReg true 0x00 oneVictim).reclaimer.request = .none ∧
      (atReg true 0x00 oneVictim).erasedCount < (atReg true 0x00 oneVictim).settings.reclaimLow) ∧
    isBestVictim (atReg true 0x00 oneVictim) 31 :=
  ⟨by decide +kernel, best_victim _ rfl rfl rfl⟩

/-- A frame that has collected bytes of RECLAIM_LOW. -/
def collected (lo hi : Option Byte) : State :=
  atReg true 0x03 ((oneVictim.setPort { oneVictim.port with lowByte := lo, highByte := hi }))

theorem test_witness_ReclaimLowStored : writing true 0x01 (atReg true 0x01 idle) ∧ writing true 0x02 (atReg true 0x02 idle) ∧
    ((collected (some 31) (some 0)).port.frame = .data false true 0x03 ∧ (collected (some 31) (some 0)).port.lowByte ≠ none ∧
      (collected (some 31) (some 0)).power.softHold = false ∧ quiet (collected (some 31) (some 0)) ∧
      portSettled (collected (some 31) (some 0)) ∧ (collected (some 31) (some 0)).settings.background = false) ∧
    ((collected none (some 4)).port.highByte ≠ none ∧ quiet (collected none (some 4)) ∧
      portSettled (collected none (some 4)) ∧ (collected none (some 4)).settings.background = false) := by decide

theorem test_witness_ConflictFlagCleared : writing false 0x1F (atReg false 0x1F idle) := rfl

/-- The buffers with a selection, an owner and the last offset. -/
def bufs (b : Buf) (o : Owner) : State :=
  idle.setStaging { idle.staging with select := b, ownerA := o, ownerB := o, offset := 1023 }

theorem test_witness_BufferByteWritten : writing false 0x1E (atReg false 0x1E (bufs .bufA .host)) ∧
    (bufs .bufA .host).staging.ownerA = .host ∧ (bufs .bufB .host).staging.ownerB = .host ∧
    (bufs .bufA .engine).staging.ownerA = .engine ∧ (bufs .bufB .engine).staging.ownerB = .engine := by decide

theorem test_witness_BufferByteRead : reading false 0x1E (readReg false 0x1E (bufs .bufA .host)) ∧
    (bufs .bufA .host).staging.wf ∧ (bufs .bufA .host).staging.bytesA[1023]? = some 0 ∧
    (bufs .bufB .host).staging.bytesB[1023]? = some 0 ∧ (bufs .bufA .host).staging.ownerA = .host ∧
    (bufs .bufB .host).staging.ownerB = .host ∧ (bufs .bufA .engine).staging.ownerA = .engine ∧
    (bufs .bufB .engine).staging.ownerB = .engine := by decide +kernel

/-- A frame in which KEY_COUNT has been taken. -/
def keyCountTaken : State :=
  readReg true 0x0C (before517.setPort { before517.port with taken := [((true, 0x0B), [1, 0])] })

theorem test_witness_ReadsTakeGroupsWhole : reading true 0x0C keyCountTaken ∧ ¬(true = false ∧ (0x0C : RegAddr) = 0x1E) ∧
    registerAt true 0x0C keyCountTaken = some (0x0B, [1, 0]) ∧ takenAt true 0x0B keyCountTaken.port = some [1, 0] ∧
    (reading true 0x0C (readReg true 0x0C before517) ∧ takenAt true 0x0B (readReg true 0x0C before517).port = none) := by
  decide +kernel

theorem test_witness_ViewsShowHeads : idle.port.taken = [] ∧ idle.comps = [] ∧ idle.scanner.ring = [] ∧
    (reading false (BitVec.ofNat 6 (0x0F + 11)) (readReg false 0x1A (idle.setComps [entryDone])) ∧
      (entryDone.kind, 1) ∈ kindTable ∧ (entryDone.status, 0) ∈ statusTable) ∧
    (reading true (BitVec.ofNat 6 (0x1B + 8)) (readReg true 0x23 idle) ∧ (ReportKind.tornCell, 1) ∈ reportTable) ∧
    (reading true (BitVec.ofNat 6 (0x26 + 8)) (readReg true 0x2E idle) ∧ (RecState.unscanned, 0) ∈ recStateTable ∧
      (((idle.recAt 0).pinned, (idle.recAt 0).role), 0) ∈ flagsTable) := by decide

/-! ### Witnesses of the commands -/

/-- A READY part with these command fields and SUBMIT the next register. -/
def submitting (tag : Byte) (key len : Half) (buf : Byte) : State := atReg false 0x0A (fields tag key len buf idle)

/-- R112: the first check that fails for the kind code `v`, 0 where all pass. -/
def firstFailed (v : Byte) (s : State) : Byte :=
  if s.power.isReady = false then 1
  else if v = 0 ∨ 7 < v.toNat then 2
  else if 4 ≤ s.cmds.queue.length then 3
  else if tagUsed s.cmds.tag s then 4
  else if (v.toNat ≤ 4 ∧ (s.cmds.key = 0 ∨ 4095 < s.cmds.key.toNat)) ∨ (v = 5 ∧ 4095 < s.cmds.key.toNat) then 5
  else if v = 1 ∧ 1024 < s.cmds.len.toNat then 6
  else if v.toNat ≤ 2 ∧ s.cmds.buf ≠ 0 ∧ s.cmds.buf ≠ 1 then 7
  else if v.toNat ≤ 2 ∧ ((s.cmds.buf = 0 ∧ s.staging.ownerA = .engine) ∨
    (s.cmds.buf = 1 ∧ s.staging.ownerB = .engine)) then 8
  else 0

/-- A submission of `v` in a running part. -/
abbrev submits (i : Instr) (v : Byte) (s : State) : Prop :=
  submittedByte i = some v ∧ writing false 0x0A s ∧ s.running = true

/-- A STORE of key 1 in these buffers' owners. -/
def owned (a b : Owner) (buf : Byte) : State :=
  (submitting 1 1 1024 buf).setStaging { idle.staging with ownerA := a, ownerB := b }

/-- Four commands queued, the tags 1 to 4. -/
def queued (n : Nat) (s : State) : State :=
  busy (s.setCmds { s.cmds with queue := (List.range n).map fun i =>
    { tag := BitVec.ofNat 8 (i + 1), kind := .probe, key := some 1, len := none, buf := none } })

theorem test_witness_SubmissionChecks_refused :
    (submits .store 1 ((submitting 1 1 0 0).setPower starting.power) ∧
      firstFailed 1 ((submitting 1 1 0 0).setPower starting.power) = 1) ∧
    (submits (.badKind 0) 0 (submitting 1 1 0 0) ∧ firstFailed 0 (submitting 1 1 0 0) = 2) ∧
    (submits (.badKind 8) 8 (submitting 1 1 0 0) ∧ firstFailed 8 (submitting 1 1 0 0) = 2) ∧
    (submits .probe 4 (queued 4 (submitting 9 1 0 0)) ∧ firstFailed 4 (queued 4 (submitting 9 1 0 0)) = 3) ∧
    (submits .probe 4 (queued 3 (submitting 3 1 0 0)) ∧ firstFailed 4 (queued 3 (submitting 3 1 0 0)) = 4) ∧
    (submits .probe 4 (submitting 1 0 0 0) ∧ firstFailed 4 (submitting 1 0 0 0) = 5) ∧
    (submits .next 5 (submitting 1 4096 0 0) ∧ firstFailed 5 (submitting 1 4096 0 0) = 5) ∧
    (submits .store 1 (submitting 1 1 1025 0) ∧ firstFailed 1 (submitting 1 1 1025 0) = 6) ∧
    (submits .fetch 2 (submitting 1 1 0 2) ∧ firstFailed 2 (submitting 1 1 0 2) = 7) ∧
    (submits .store 1 (owned .engine .host 0) ∧ firstFailed 1 (owned .engine .host 0) = 8) ∧
    (submits .fetch 2 (owned .host .engine 1) ∧ firstFailed 2 (owned .host .engine 1) = 8) := by decide

theorem test_witness_SubmissionChecks_accepted :
    (submits .store 1 (owned .engine .host 1) ∧ firstFailed 1 (owned .engine .host 1) = 0) ∧
    (submits .probe 4 (submitting 1 4095 0 0) ∧ firstFailed 4 (submitting 1 4095 0 0) = 0) ∧
    (submits .next 5 (submitting 1 0 0 0) ∧ firstFailed 5 (submitting 1 0 0 0) = 0) ∧
    (submits (.registerWrite 7) 7 (submitting 1 0 0 0) ∧ firstFailed 7 (submitting 1 0 0 0) = 0) := by decide

theorem test_witness_AcceptedCommandQueued : submittedByte .store = some 1 ∧ kindCode .store = 1 ∧
    writing false 0x0A (queued 3 (owned .engine .host 1)) ∧
    acceptable 1 ((queued 3 (owned .engine .host 1)).setCmds { (queued 3 (owned .engine .host 1)).cmds with tag := 9 }) ∧
    (queued 3 (owned .engine .host 1)).engine.state ≠ .idle ∧ portSettled (queued 3 (owned .engine .host 1)) := by decide

theorem test_witness_ProbeAnswers : answersNow submit517 ∧ portSettled submit517 ∧ acceptable 4 submit517 ∧
    ascendingKeys submit517.index ∧ (entry517 ∈ submit517.index ∧ entry517.key = submit517.cmds.key.toNat) ∧
    (answersNow (submitting 1 4095 0 0) ∧ portSettled (submitting 1 4095 0 0) ∧ acceptable 4 (submitting 1 4095 0 0) ∧
      ∀ e ∈ (submitting 1 4095 0 0).index, e.key ≠ (submitting 1 4095 0 0).cmds.key.toNat) := by
  repeat' apply And.intro
  all_goals decide

/-- NEXT from key `k` over the one key 517. -/
def nextFrom (k : Half) : State := atReg false 0x0A (fields 7 k 0 0 before517)

theorem test_witness_NextAnswers : (answersNow (nextFrom 516) ∧ portSettled (nextFrom 516) ∧ acceptable 5 (nextFrom 516) ∧
      ascendingKeys (nextFrom 516).index ∧ entry517 ∈ (nextFrom 516).index ∧
      (nextFrom 516).cmds.key.toNat < entry517.key ∧
      ∀ x ∈ (nextFrom 516).index, (nextFrom 516).cmds.key.toNat < x.key → entry517.key ≤ x.key) ∧
    (answersNow (nextFrom 517) ∧ acceptable 5 (nextFrom 517) ∧
      ∀ e ∈ (nextFrom 517).index, e.key ≤ (nextFrom 517).cmds.key.toNat) := by
  repeat' apply And.intro
  all_goals decide

/-- The submission of key 517 with the Reclaimer's erase of S31, `n` times suspended, in its erase phase. -/
def eraseRuns (n : Nat) (suspend : Bool) : State :=
  (submit517.setCtl { submit517.ctl with op := some { who := .reclaimer, op := .erase 31 1 9, phase := .erasePhase,
                                                      suspendCount := n } }).setSettings
    { submit517.settings with suspend := suspend }

theorem test_witness_FetchTaken_free : writing false 0x0A submit517 ∧ engineFree submit517 ∧ acceptable 2 submit517 ∧
    ascendingKeys submit517.index ∧ entry517 ∈ submit517.index ∧ entry517.key = submit517.cmds.key.toNat ∧
    portEmpty submit517 := by decide

theorem test_witness_FetchTaken_suspends : writing false 0x0A (eraseRuns 7 true) ∧ engineFree (eraseRuns 7 true) ∧
    acceptable 2 (eraseRuns 7 true) ∧ entry517 ∈ (eraseRuns 7 true).index ∧
    (eraseRuns 7 true).ctl.op.map Operation.phase = some .erasePhase ∧ (eraseRuns 7 true).ctl.paused = none ∧
    (eraseRuns 7 true).settings.suspend = true ∧ (eraseRuns 7 true).ctl.op.map Operation.suspendCount = some 7 := by decide

theorem test_witness_FetchTaken_waits : engineFree (eraseRuns 8 true) ∧ acceptable 2 (eraseRuns 8 true) ∧
    (eraseRuns 8 true).ctl.op.map Operation.suspendCount = some 8 ∧ (eraseRuns 0 false).settings.suspend = false ∧
    acceptable 2 (onPort .reclaimer (.read 0) .single submit517) ∧
    engineFree (onPort .reclaimer (.read 0) .single submit517) ∧ Phase.single ≠ .erasePhase := by
  repeat' apply And.intro
  all_goals decide

theorem test_witness_FetchTaken_absent : answersNow (submitting 1 1 0 1) ∧ acceptable 2 (submitting 1 1 0 1) ∧
    portSettled (submitting 1 1 0 1) ∧
    ∀ x ∈ (submitting 1 1 0 1).index, x.key ≠ (submitting 1 1 0 1).cmds.key.toNat := by decide

theorem test_witness_DropTaken : (writing false 0x0A submit517 ∧ engineFree submit517 ∧ acceptable 3 submit517 ∧
      ascendingKeys submit517.index ∧ entry517 ∈ submit517.index ∧ entry517.key = submit517.cmds.key.toNat ∧
      portEmpty submit517 ∧ submit517.ctl.quiesced = false ∧ submit517.reclaimer.reloc = none ∧
      submit517.settings.background = false) ∧
    (acceptable 3 (eraseRuns 0 true) ∧ engineFree (eraseRuns 0 true) ∧ (eraseRuns 0 true).ctl.op ≠ none ∧
      entry517 ∈ (eraseRuns 0 true).index) ∧
    (answersNow (submitting 1 1 0 0) ∧ portSettled (submitting 1 1 0 0) ∧ acceptable 3 (submitting 1 1 0 0) ∧
      ∀ x ∈ (submitting 1 1 0 0).index, x.key ≠ (submitting 1 1 0 0).cmds.key.toNat) := by
  repeat' apply And.intro
  all_goals decide

theorem test_witness_StoreTaken : writing false 0x0A submit517 ∧ engineFree submit517 ∧ acceptable 1 submit517 ∧
    submit517.engine.seqNext < 4294967296 ∧ (∃ e ∈ submit517.index, e.key = submit517.cmds.key.toNat) ∧
    3 = (if submit517.cmds.len.toNat = 0 then 1 else (submit517.cmds.len.toNat + 63) / 64) ∧
    submit517.table.claims = [] ∧ submit517.openSector = some 6 ∧ 3 + 32 ≤ submit517.erasedCount ∧
    submit517.table.cursor + 3 ≤ 32 ∧ submit517.settings.background = false ∧ portEmpty submit517 ∧
    submit517.ctl.quiesced = false := by decide +kernel

/-- The boundaries of the reservation: the record of 1024 bytes that takes the last 16 cells of the open sector and
leaves 32 erased cells, under a key with no entry. -/
def storeLast : State :=
  let s := submitting 1 1 1024 1
  let s := withRec 6 { state := .inUse, epoch := 1, erases := 3, role := .isOpen, blank := 16, live := 0, dead := 16,
                       faultyCount := 0, faulty := [], pinned := false } (s.setTable { s.table with cursor := 16, queue := [20] })
  (s.setEngine { s.engine with seqNext := 4294967295, epoch := 1 }).setSettings { s.settings with background := false }

theorem test_witness_StoreTaken_last : engineFree storeLast ∧ acceptable 1 storeLast ∧
    storeLast.engine.seqNext < 4294967296 ∧ storeLast.index.length < 256 ∧
    16 = (if storeLast.cmds.len.toNat = 0 then 1 else (storeLast.cmds.len.toNat + 63) / 64) ∧
    storeLast.openSector = some 6 ∧ 16 + 32 = storeLast.erasedCount ∧ storeLast.table.cursor + 16 = 32 ∧
    portEmpty storeLast := by decide +kernel

/-- A completion of STORE with the fields of the submission, no sequence and no length. -/
def storeEnds (s : State) (st : Status) : Completion :=
  { tag := s.cmds.tag, kind := .store, status := st, key := s.cmds.key.toNat, len := 0, seq := none, frags := 0 }

/-- 256 entries, the keys 2 to 257. -/
def manyKeys : State :=
  let s := submitting 1 1 0 0
  (s.setIndex ((List.range 256).map fun i => { entry517 with key := i + 2 })).setEngine { s.engine with seqNext := 1 }

theorem test_witness_StoreRefused_counter :
    let s := storeLast.setEngine { storeLast.engine with seqNext := 4294967296 }
    answersNow s ∧ portSettled s ∧ acceptable 1 s ∧ s.engine.seqNext = 4294967296 ∧
      (storeEnds s .seqExhausted).status = .seqExhausted := by decide

theorem test_witness_StoreRefused_index : answersNow manyKeys ∧ portSettled manyKeys ∧ acceptable 1 manyKeys ∧
    manyKeys.engine.seqNext < 4294967296 ∧ (∀ x ∈ manyKeys.index, x.key ≠ manyKeys.cmds.key.toNat) ∧
    256 ≤ manyKeys.index.length := by decide +kernel

/-- A STORE of one cell with 32 erased cells. -/
def storeShort : State := storeLast.setTable { storeLast.table with cursor := 32 } |>.setCmds { storeLast.cmds with len := 0 }

theorem no_victim : ∀ n < 32, ¬ eligibleVictim storeShort n := by decide +kernel

theorem test_witness_StoreRefused_space : (answersNow storeShort ∧ portSettled storeShort ∧ acceptable 1 storeShort ∧
      storeShort.engine.seqNext < 4294967296 ∧ storeShort.index.length < 256 ∧ storeShort.table.claims = [] ∧
      storeShort.erasedCount = 32 ∧
      storeShort.erasedCount < (if storeShort.cmds.len.toNat = 0 then 1 else (storeShort.cmds.len.toNat + 63) / 64) + 32 ∧
      storeShort.reclaimer.state = .idle) ∧ ∀ n, ¬ eligibleVictim storeShort n :=
  ⟨by decide +kernel, fun n h => no_victim n h.1 h⟩

theorem test_witness_ReclaimTaken_nothing : (writing false 0x0A storeShort ∧ engineFree storeShort ∧ acceptable 6 storeShort ∧
      answersNow storeShort ∧ portSettled storeShort ∧ storeShort.reclaimer.state = .idle) ∧
    ∀ n, ¬ eligibleVictim storeShort n :=
  ⟨by decide +kernel, fun n h => no_victim n h.1 h⟩

/-- The submission in the part with one eligible victim. -/
def reclaimOne : State := atReg false 0x0A oneVictim

theorem test_witness_ReclaimTaken_starts : (writing false 0x0A reclaimOne ∧ engineFree reclaimOne ∧ acceptable 6 reclaimOne ∧
      portEmpty reclaimOne ∧ reclaimOne.ctl.quiesced = false ∧ reclaimOne.table.recs.length = 32 ∧
      reclaimOne.reclaimer.state = .idle) ∧ isBestVictim reclaimOne 31 :=
  ⟨by decide +kernel, best_victim _ rfl rfl rfl⟩

theorem test_witness_ReclaimTaken_waits :
    let s := atReg false 0x0A (erasing .erasePhase)
    writing false 0x0A s ∧ engineFree s ∧ acceptable 6 s ∧ portSettled s ∧ s.reclaimer.state ≠ .idle ∧
      s.reclaimer.state ≠ .halted := by decide

theorem test_witness_FormatTaken_epoch :
    let s := submit517.setEngine { submit517.engine with epoch := 65535 }
    writing false 0x0A s ∧ engineFree s ∧ acceptable 7 s ∧ answersNow s ∧ portSettled s ∧ s.engine.epoch = 65535 ∧
      s.settings.background = false := by decide

/-- A FORMAT of a part at epoch 65534 whose sectors S0 to S30 are WORN and whose S31 is one erase from wear. -/
def formatLast : State :=
  let s := atReg false 0x0A idle
  let worn := wornRec resetRec
  (s.setTable { s.table with recs := List.replicate 31 worn ++
    [{ resetRec with state := .inUse, erases := 99999, faulty := [992, 993, 994], faultyCount := 3, dead := 29 }] }).setEngine
      { s.engine with epoch := 65534, seqNext := 9 }

theorem test_witness_FormatTaken_runs : writing false 0x0A formatLast ∧ engineFree formatLast ∧ acceptable 7 formatLast ∧
    formatLast.engine.epoch < 65535 ∧ formatLast.reclaimer.state = .idle ∧ portEmpty formatLast ∧
    formatLast.ctl.quiesced = false ∧ formatLast.table.recs.length = 32 ∧
    (∀ k < 31, (formatLast.recAt k).state = .worn) ∧ (formatLast.recAt 31).state ≠ .worn ∧
    (formatLast.recAt 31).erases < 100000 ∧ (formatLast.recAt 31).faulty.length < 4 := by decide +kernel

/-- Three queued commands, tags 1 to 3, with CANCEL the next register and `n` completions. -/
def cancelling (n : Nat) : State := atReg false 0x0C ((queued 3 idle).setComps (List.replicate n entryDone))

/-- R127: the first check of a cancel that fails. -/
def cancelFails (tag : Byte) (s : State) : Byte :=
  if tagTaken tag s then 1 else if tag ∉ s.cmds.queue.map Command.tag then 2 else if 8 ≤ s.comps.length then 3 else 0

theorem test_witness_CancelAnswers_refused : writing false 0x0C (cancelling 0) ∧
    cancelFails 5 ((cancelling 0).setEngine { idle.engine with
      state := .running, cmd := some { tag := 5, kind := .format, key := none, len := none, buf := none } }) = 1 ∧
    cancelFails 4 (cancelling 0) = 2 ∧ cancelFails 2 (cancelling 8) = 3 := by decide

theorem test_witness_CancelAnswers_accepted :
    let c (n : Byte) : Command := { tag := n, kind := .probe, key := some 1, len := none, buf := none }
    writing false 0x0C (cancelling 7) ∧ cancelFails 2 (cancelling 7) = 0 ∧
      (cancelling 7).cmds.queue = [c 1] ++ c 2 :: [c 3] ∧ (c 2).tag = 2 ∧
      2 ∉ ([c 1]).map Command.tag ∧ 2 ∉ ([c 3]).map Command.tag := by decide

/-- A held completion behind a full Completion Queue, with COMP_POP the next register. -/
def popHeld : State := atReg false 0x1B ((idle.setComps (List.replicate 8 entryDone)).setEngine
  { idle.engine with state := .holding, held := some { entry := entryDone, buf := some .bufB } })

theorem test_witness_PopAnswers : writing false 0x1B (atReg false 0x1B idle) ∧ idle.comps = [] ∧
    ((atReg false 0x1B (idle.setComps [entryDone])).comps = entryDone :: [] ∧ idle.engine.held = none) ∧
    (popHeld.comps = entryDone :: List.replicate 7 entryDone ∧
      popHeld.engine.held = some { entry := entryDone, buf := some .bufB } ∧ popHeld.cmds.queue = [] ∧
      portSettled popHeld) := by decide

theorem test_witness_ReportPopped : writing true 0x24 (atReg true 0x24 idle) ∧ idle.scanner.ring = [] ∧
    (idle.setScanner { idle.scanner with ring := twoReports }).scanner.ring =
      { kind := .tornCell, num := 274, key := none, seq := none } :: twoReports.tail := by decide

/-! ### Witnesses of the ends of operations -/

theorem fetching_matches (next : Nat) (again : Bool) (h : next = 0 ∨ next = 1) :
    fetchMatches { tag := 7, kind := .fetch, key := some 517, len := none, buf := some .bufA }
      { seq := 88, len := 70, count := 2, map := [41, 42], next := next, readOnce := again, delivered := 64 * next }
      ((fetching next again).array.readCell ([41, 42].getD next 0)) := by
  refine ⟨((fetching next again).array.readCell ([41, 42].getD next 0)).header.getD default, ?_⟩
  rcases h with rfl | rfl <;> cases again <;> decide +kernel

theorem test_witness_FragmentReadTaken_matches :
    (aloneOnPort .engine (.read 41) .single (fetching 0 false) ∧ (fetching 0 false).engine.state = .running ∧ 0 + 1 < 2) ∧
    (aloneOnPort .engine (.read 42) .single (fetching 1 true) ∧ 2 ≤ 1 + 1 ∧ endsQuietly (fetching 1 true)) :=
  ⟨⟨⟨⟨0, rfl⟩, by decide⟩, by decide⟩, ⟨⟨0, rfl⟩, by decide⟩, by decide⟩

/-- The FETCH whose read finds the cell blank. -/
def fetchBlank (again : Bool) : State := (fetching 1 again).setArray freshArray

theorem test_witness_FragmentReadTaken_differs :
    ¬ fetchMatches { tag := 7, kind := .fetch, key := some 517, len := none, buf := some .bufA }
      { seq := 88, len := 70, count := 2, map := [41, 42], next := 1, readOnce := true, delivered := 64 }
      ((fetchBlank true).array.readCell 42) ∧ aloneOnPort .engine (.read 42) .single (fetchBlank true) ∧
    aloneOnPort .engine (.read 42) .single (fetchBlank false) ∧ endsQuietly (fetchBlank true) :=
  ⟨fun ⟨_, hc, _⟩ => absurd hc (by decide +kernel), ⟨⟨0, rfl⟩, by decide⟩, ⟨⟨0, rfl⟩, by decide⟩, by decide⟩

/-- The scan at the header read of S30. -/
def headerReads (a : SectorArea) : State :=
  onPort .scanner (.headerRead 30) .single
    (starting.setArray { starting.array with sectors := starting.array.sectors.set 30 a })

theorem test_witness_HeaderReadsTaken_readable :
    aloneOnPort .scanner (.headerRead 30) .single (headerReads (writtenHeader .worn 1 100000)) ∧
      quiet (headerReads (writtenHeader .worn 1 100000)) ∧
      headerTaken ((headerReads (writtenHeader .worn 1 100000)).array.sectorAt 30) resetRec (.readable .worn 1 100000)
        { resetRec with state := .worn, epoch := 1, erases := 100000 } := by
  refine ⟨⟨⟨0, ?_⟩, ?_⟩, ?_, .inl ⟨{ state := .worn, epoch := 1, erases := 100000, check := sectorCheck 1 100000 }, ?_⟩⟩
  all_goals decide +kernel

theorem test_witness_HeaderReadsTaken_blank :
    aloneOnPort .scanner (.headerRead 30) .single (headerReads .erased) ∧ quiet (headerReads .erased) ∧
      headerTaken ((headerReads .erased).array.sectorAt 30) resetRec .blank { resetRec with state := .blankHeader } := by
  refine ⟨⟨⟨0, ?_⟩, ?_⟩, ?_, .inr (.inl ?_)⟩
  all_goals decide +kernel

theorem test_witness_HeaderReadsTaken_torn :
    aloneOnPort .scanner (.headerRead 30) .single (headerReads (writtenHeader .ready 0 5)) ∧
      quiet (headerReads (writtenHeader .ready 0 5)) ∧
      headerTaken ((headerReads (writtenHeader .ready 0 5)).array.sectorAt 30) resetRec .torn
        { resetRec with state := .torn } := by
  refine ⟨⟨⟨0, ?_⟩, ?_⟩, ?_,
    .inr (.inr ⟨.inr ⟨{ state := .ready, epoch := 0, erases := 5, check := sectorCheck 0 5 }, ?_⟩, ?_⟩)⟩
  all_goals decide +kernel

/-- A fresh part at the header read of S31, every other header found blank. -/
def lastHeader : State :=
  onPort .scanner (.headerRead 31) .single ((starting.setTable { starting.table with
    recs := List.replicate 31 { resetRec with state := .blankHeader } ++ [resetRec] }).setScanner
      { starting.scanner with step := .headers, pos := 31, headers := List.replicate 31 .blank ++ [.unread] })

theorem test_witness_HeaderReadsTaken_last : aloneOnPort .scanner (.headerRead 31) .single lastHeader ∧
    quiet lastHeader ∧ lastHeader.table.recs.length = 32 ∧ lastHeader.array.sectorAt 31 = .erased ∧
    lastHeader.scanner.found = [] ∧ lastHeader.scanner.headers.length = 32 ∧
    ∀ m < 31, (lastHeader.recAt m).state = .blankHeader ∧ lastHeader.scanner.headers.getD m .unread = .blank :=
  ⟨⟨⟨0, rfl⟩, by decide⟩, by decide +kernel⟩

theorem test_witness_FragmentProgrammed :
    (∃ p, aloneOnPort .engine (.program p) .single (storing 1 0) ∧ p.cell < 1024 ∧ p.check = none ∧
      cellCondition ((storing 1 0).array.cellAt p.cell) = .blank ∧ (storing 1 0).array.wf ∧
      (storing 1 0).engine.state = .running ∧ 1 + 1 < 3) ∧
    (∃ p, aloneOnPort .engine (.program p) .single (storing 2 0) ∧ p.cell < 1024 ∧ p.check = none ∧
      cellCondition ((storing 2 0).array.cellAt p.cell) = .blank ∧ (storing 2 0).array.wf ∧ 3 ≤ 2 + 1) :=
  ⟨⟨_, ⟨⟨0, rfl⟩, by decide +kernel⟩, by decide +kernel⟩, ⟨_, ⟨⟨0, rfl⟩, by decide +kernel⟩, by decide +kernel⟩⟩

theorem test_witness_FailedProgramFaultyOrTorn : ∃ p, aloneOnPort .engine (.program p) .single (storing 0 2) ∧
    p.cell < 1024 ∧ cellCondition ((storing 0 2).array.cellAt p.cell) = .blank ∧ (storing 0 2).array.wf ∧
    (storing 0 2).engine.state = .running ∧ endsQuietly (storing 0 2) ∧ (storing 0 2).settings.background = false ∧
    (storing 0 2).table.recs.length = 32 ∧ ((storing 0 2).recAt (sectorOf p.cell)).dead ≠ 0 :=
  ⟨_, ⟨⟨0, rfl⟩, by decide +kernel⟩, by decide +kernel⟩

theorem test_witness_CommitEvent :
    (aloneOnPort .engine (.advanceCell 200 .committed) .single (committing true) ∧
      (committing true).engine.state = .running ∧ (committing true).array.wf ∧
      cellCondition ((committing true).array.cellAt 200) = .readable ∧
      ((committing true).array.cellAt 200).state = .written ∧ ascendingKeys (committing true).index ∧
      (committing true).settings.background = false ∧ ∃ x ∈ (committing true).index, x.key = 517 ∧ x.map ≠ []) ∧
    (aloneOnPort .engine (.advanceCell 200 .committed) .single (committing false) ∧ endsQuietly (committing false) ∧
      ∀ x ∈ (committing false).index, x.key ≠ 517) :=
  ⟨⟨⟨⟨0, rfl⟩, by decide⟩, by decide +kernel⟩, ⟨⟨0, rfl⟩, by decide⟩, by decide⟩

/-- A relocation copy of C42 into C1023 whose program is on the port, with the index as it is, or empty. -/
def copying (present : Bool) : State :=
  let o := before517.array.readCell 42
  let s := before517.setReclaimer { before517.reclaimer with
    state := .moving, victim := some 1, cursor := 10
    reloc := some { source := 42, reading := some o, copy := some 1023, refused := false } }
  onPort .reclaimer (.program (copyProgram 1023 o)) .single (busy (s.setIndex (if present then [entry517] else [])))

/-- R109, R98, R107: asked to stop, the Reclaimer is halted by the third failure of a copy program, which raises FAULT,
and is IDLE at the end of the event; an earlier failure raises nothing. -/
theorem test_thirdFailure_stopping :
    let ended := fun n => reclaimerProgramEnded .failed
      (modReclaimer (fun r => { r with barred := true, faults := n }) (copying true))
    ((ended 2).irq.fault, (ended 2).reclaimer.state, (ended 2).reclaimer.cause) = (true, .idle, .none) ∧
      ((ended 1).irq.fault, (ended 1).reclaimer.state) = (false, .idle) := by decide +kernel

theorem test_witness_CopyProgrammed :
    (∃ o h, (copying true).reclaimer.reloc = some { source := 42, reading := some o, copy := some 1023, refused := false } ∧
      o.header = some h ∧ h.key = 517 ∧ h.seq = 88 ∧ entry517.map[h.frag]? = some 42 ∧
      aloneOnPort .reclaimer (.program (copyProgram 1023 o)) .single (copying true) ∧
      (copyProgram 1023 o).cell = 1023) ∧
    (copying true).reclaimer.barred = false ∧ (copying true).array.wf ∧
    cellCondition ((copying true).array.cellAt 1023) = .blank ∧ ascendingKeys (copying true).index ∧
    quiet (copying true) ∧ entry517 ∈ (copying true).index ∧
    (quiet (copying false) ∧ ∀ e ∈ (copying false).index, e.key ≠ 517) :=
  ⟨⟨before517.array.readCell 42, (before517.array.readCell 42).header.getD default, rfl, by decide +kernel,
    by decide +kernel, by decide +kernel, by decide +kernel, ⟨⟨0, rfl⟩, by decide⟩, rfl⟩, by decide +kernel⟩

theorem test_witness_ErasePhaseEnds : (erasing .erasePhase).array.wf ∧
    (erasing .erasePhase).ctl.op = some { who := .reclaimer, op := .erase 3 7 1204, phase := .erasePhase,
                                          suspendCount := 0 } := by decide +kernel

theorem test_witness_SectorErased (passed : Bool) : (erasing (.headerPhase passed)).array.wf ∧
    (erasing (.headerPhase passed)).table.recs.length = 32 ∧
    aloneOnPort .reclaimer (.erase 3 7 1204) (.headerPhase passed) (erasing (.headerPhase passed)) ∧
    quiet (erasing (.headerPhase passed)) ∧ (erasing (.headerPhase passed)).reclaimer.barred = false ∧
    (erasing (.headerPhase passed)).reclaimer.request = .none ∧
    (erasing (.headerPhase passed)).settings.background = false := by
  refine ⟨?_, ?_, ⟨⟨0, rfl⟩, ?_⟩, ?_⟩ <;> revert passed <;> decide +kernel

/-- A fresh part at the restoration of the header of S31, the last, with `n` reports in the ring. -/
def lastRestore (n : Nat) : State :=
  onPort .scanner (.restoreHeader 31 1 0) (.headerPhase true) ((starting.setTable { starting.table with
    recs := List.replicate 31 { resetRec with state := .ready, epoch := 1 } ++
      [{ resetRec with state := .blankHeader }] }).setScanner
      { starting.scanner with step := .sectors, pos := 31,
                              ring := List.replicate n { kind := .headerRestored, num := 30, key := none, seq := none } })

theorem test_witness_SectorErased_restored (n : Nat) :
    aloneOnPort .scanner (.restoreHeader 31 1 0) (.headerPhase true) (lastRestore n) ∧
      (lastRestore n).scanner.ring.length = n ∧ (lastRestore n).array.wf ∧ quiet (lastRestore n) ∧
      (lastRestore n).table.recs.length = 32 ∧ (lastRestore n).power.isReady = false ∧
      (lastRestore n).cmds.queue = [] ∧ (lastRestore n).index = [] ∧ (lastRestore n).scanner.found = [] ∧
      ((lastRestore n).recAt 31).pinned = false ∧
      ∀ m < 31, (lastRestore n).recAt m = { resetRec with state := .ready, epoch := 1 } :=
  ⟨⟨⟨0, rfl⟩, rfl, rfl, rfl, rfl, rfl⟩, List.length_replicate, by
    show State.reset.array.wf
    decide +kernel, .inl rfl, rfl, rfl, rfl, rfl, rfl, rfl, by
    show ∀ m < 31, (lastRestore 0).recAt m = _
    decide +kernel⟩

end Sys2Proof.Tests
end

section
/-! The checks of a submission and of a cancel as the rules number them, and what each event
leaves (R112, R127, R128). -/

namespace Sys2Proof.Machine

variable {s : State}

/-! ### The checks (R112, R127) -/

/-- R112 check 4, R127 check 1. -/
theorem tagInFlight_iff (tag : Byte) (s : State) : tagInFlight tag s = true ↔ tagTaken tag s := by
  unfold tagInFlight tagTaken
  cases s.engine.cmd <;> cases s.engine.held <;> simp

/-- R112 check 4, R127 check 2. -/
theorem tagQueued_iff (tag : Byte) (s : State) : tagQueued tag s = true ↔ tag ∈ s.cmds.queue.map Command.tag := by
  simp [tagQueued]

/-- R112 check 5, by kind code. -/
theorem not_keyAllowed_iff (k : Kind) (key : Half) :
    (!keyAllowed k key.toNat) = true ↔
      ((kindCode k).toNat ≤ 4 ∧ (key = 0 ∨ 4095 < key.toNat)) ∨ (kindCode k = 5 ∧ 4095 < key.toNat) := by
  have h0 : key = 0 ↔ key.toNat = 0 := BitVec.toNat_inj.symm
  rw [h0]
  cases k <;> simp [keyAllowed, kindCode]

/-- R113: STORE alone holds a length. -/
theorem usesLen_iff (k : Kind) : usesLen k = true ↔ kindCode k = 1 := by cases k <;> decide

/-- R113: STORE and FETCH alone hold a buffer. -/
theorem usesBuf_iff (k : Kind) : usesBuf k = true ↔ (kindCode k).toNat ≤ 2 := by cases k <;> decide

/-- R112: in a READY part, the checks of a kind code from the third on. -/
theorem submitCheck_ready (k : Kind) (hr : s.power.isReady = true) :
    (submitCheck (kindCode k) s).code =
      if 4 ≤ s.cmds.queue.length then 3
      else if tagUsed s.cmds.tag s then 4
      else if !keyAllowed k s.cmds.key.toNat then 5
      else if usesLen k = true ∧ 1024 < s.cmds.len.toNat then 6
      else if usesBuf k = true ∧ s.cmds.buf ≠ 0 ∧ s.cmds.buf ≠ 1 then 7
      else if usesBuf k = true ∧ ((s.cmds.buf = 0 ∧ s.staging.ownerA = .engine) ∨
        (s.cmds.buf = 1 ∧ s.staging.ownerB = .engine)) then 8
      else 0 := by
  have htag : (tagQueued s.cmds.tag s || tagInFlight s.cmds.tag s) = true ↔ tagUsed s.cmds.tag s := by
    rw [Bool.or_eq_true, tagQueued_iff, tagInFlight_iff]
  have hlen : (usesLen k && decide (1024 < s.cmds.len.toNat)) = true ↔ usesLen k = true ∧ 1024 < s.cmds.len.toNat := by
    rw [Bool.and_eq_true, decide_eq_true_eq]
  unfold submitCheck
  rw [if_neg (by simp [hr]), kindOfCode_kindCode]
  simp only [apply_ite SubmitResult.code]
  refine if_congr Iff.rfl rfl (if_congr htag rfl (if_congr Iff.rfl rfl (if_congr hlen rfl ?_)))
  by_cases hb : usesBuf k = true
  · by_cases h0 : s.cmds.buf = 0
    · by_cases ho : s.staging.ownerA = .engine <;> simp [hb, h0, ho, bufOfCode, Staging.owner, SubmitResult.code]
    · by_cases h1 : s.cmds.buf = 1
      · by_cases ho : s.staging.ownerB = .engine <;> simp [hb, h1, ho, bufOfCode, Staging.owner, SubmitResult.code]
      · have hnone : bufOfCode s.cmds.buf = none := by rw [bufOfCode, if_neg h0, if_neg h1]
        rw [if_pos hb, if_pos ⟨hb, h0, h1⟩, hnone]
        rfl
  · simp [hb, SubmitResult.code]

/-- R112: the checks in their order, by kind code. -/
theorem submitCheck_code (v : Byte) (s : State) :
    (submitCheck v s).code =
      if s.power.isReady = false then 1
      else if v = 0 ∨ 7 < v.toNat then 2
      else if 4 ≤ s.cmds.queue.length then 3
      else if tagUsed s.cmds.tag s then 4
      else if (v.toNat ≤ 4 ∧ (s.cmds.key = 0 ∨ 4095 < s.cmds.key.toNat)) ∨ (v = 5 ∧ 4095 < s.cmds.key.toNat) then 5
      else if v = 1 ∧ 1024 < s.cmds.len.toNat then 6
      else if v.toNat ≤ 2 ∧ s.cmds.buf ≠ 0 ∧ s.cmds.buf ≠ 1 then 7
      else if v.toNat ≤ 2 ∧ ((s.cmds.buf = 0 ∧ s.staging.ownerA = .engine) ∨
        (s.cmds.buf = 1 ∧ s.staging.ownerB = .engine)) then 8
      else 0 := by
  by_cases hr : s.power.isReady = false
  · simp [submitCheck, hr, SubmitResult.code]
  rw [if_neg hr]
  have hready : s.power.isReady = true := Bool.not_eq_false _ ▸ hr
  by_cases hv : v = 0 ∨ 7 < v.toNat
  · rw [if_pos hv]
    simp [submitCheck, hready, kindOfCode_none v hv, SubmitResult.code]
  rw [if_neg hv]
  obtain ⟨k, rfl⟩ : ∃ k, kindCode k = v := by
    obtain ⟨h0, h7⟩ := not_or.mp hv
    have hne : v.toNat ≠ 0 := fun h => h0 (BitVec.eq_of_toNat_eq h)
    exact kindOfCode_some v (by omega) (by omega)
  simp only [submitCheck_ready k hready, not_keyAllowed_iff, usesLen_iff, usesBuf_iff]

/-- R112: a result is ACCEPTED where its code is 0. -/
theorem SubmitResult.code_eq_zero_iff (r : SubmitResult) : r.code = 0 ↔ r = .accepted := by cases r <;> decide

/-- R127: the checks in their order. -/
theorem cancelCheck_code (tag : Byte) (s : State) :
    (cancelCheck tag s).code =
      if tagTaken tag s then 1 else if tag ∉ s.cmds.queue.map Command.tag then 2
      else if 8 ≤ s.comps.length then 3 else 0 := by
  have hq : (!tagQueued tag s) = true ↔ tag ∉ s.cmds.queue.map Command.tag := by
    rw [Bool.not_eq_true', ← tagQueued_iff, Bool.not_eq_true]
  unfold cancelCheck
  simp only [apply_ite CancelResult.code]
  exact if_congr (tagInFlight_iff tag s) rfl (if_congr hq rfl rfl)

/-- R127: a result is ACCEPTED where its code is 0. -/
theorem CancelResult.code_eq_zero_iff (r : CancelResult) : r.code = 0 ↔ r = .accepted := by cases r <;> decide

/-! ### The submission event (R112) -/

/-- R112: SUBMIT_RESULT after a submission is the result of the checks, whatever the command does in the same event. -/
theorem submit_submitResult (v : Byte) (s : State) : (submit v s).cmds.submitResult = (submitCheck v s).code := by
  by_cases hc : submitCheck v s = .accepted
  · have host := closedPort_host s.port 0
    have kept (b : Option Buf) (t : State) (hp : t.port = s.port) (hx : t.cmds.submitResult = 0) :
        (settle (setOwner b .engine t)).cmds.submitResult = 0 := (host.settle (host.setOwner b .engine ⟨hp, hx⟩)).2
    unfold submit
    rw [hc]
    cases kindOfCode v with
    | none => rfl
    | some k => exact kept _ _ rfl rfl
  · rw [submit_refused hc]
    rfl

/-! ### The cancel event (R127, R128) -/

/-- R127: CANCEL_RESULT after a cancel is the result of the checks, and the port block stays. -/
theorem cancel_cancelResult_port (tag : Byte) (s : State) :
    (cancel tag s).cmds.cancelResult = (cancelCheck tag s).code ∧ (cancel tag s).port = s.port := by
  unfold cancel setOwner
  dsimp only
  split
  · split <;> exact ⟨rfl, rfl⟩
  · exact ⟨rfl, rfl⟩

/-- R127: a refused cancel changes nothing but CANCEL_RESULT. -/
theorem cancel_refused {tag : Byte} (h : cancelCheck tag s ≠ .accepted) :
    cancel tag s = s.setCmds { s.cmds with cancelResult := (cancelCheck tag s).code } := by
  unfold cancel
  dsimp only
  split
  · contradiction
  · rfl

/-- R156: a buffer that goes back to the host. -/
theorem setOwner_host (b : Option Buf) (s : State) :
    setOwner b .host s = s.setStaging (s.staging.handedBack b) := by
  rcases b with _ | _ | _ <;> rfl

/-- R128: the command of a tag, found in its place. -/
theorem find?_tag {tag : Byte} {before after : List Command} {c : Command} (hc : c.tag = tag)
    (hb : tag ∉ before.map Command.tag) :
    (before ++ c :: after).find? (fun x => decide (x.tag = tag)) = some c := by
  rw [List.find?_append, List.find?_eq_none.mpr, Option.none_or, List.find?_cons_of_pos (by simpa using hc)]
  intro x hx hxt
  exact hb (List.mem_map.mpr ⟨x, hx, of_decide_eq_true hxt⟩)

/-- R128: a queue without the tag stays as it is. -/
theorem withoutTag_of_notMem {tag : Byte} {q : List Command} (h : tag ∉ q.map Command.tag) : withoutTag tag q = q := by
  refine List.filter_eq_self.mpr fun x hx => decide_eq_true fun hxt => ?_
  exact h (List.mem_map.mpr ⟨x, hx, hxt⟩)

/-- R128: the command of a tag is taken out of its place and the others keep their order. -/
theorem withoutTag_append_cons {tag : Byte} {before after : List Command} {c : Command} (hc : c.tag = tag)
    (hb : tag ∉ before.map Command.tag) (ha : tag ∉ after.map Command.tag) :
    withoutTag tag (before ++ c :: after) = before ++ after := by
  have hcons : withoutTag tag (c :: after) = withoutTag tag after := List.filter_cons_of_neg (by simpa using hc)
  calc withoutTag tag (before ++ c :: after)
      = withoutTag tag before ++ withoutTag tag (c :: after) := List.filter_append ..
    _ = before ++ after := by rw [hcons, withoutTag_of_notMem hb, withoutTag_of_notMem ha]

/-- R128, R121: an accepted cancel of the command in its place in the queue. -/
theorem cancel_accepted {tag : Byte} {before after : List Command} {c : Command} (h : cancelCheck tag s = .accepted)
    (hq : s.cmds.queue = before ++ c :: after) (hc : c.tag = tag) (hb : tag ∉ before.map Command.tag)
    (ha : tag ∉ after.map Command.tag) :
    cancel tag s =
      ((s.setCmds { s.cmds with queue := before ++ after, cancelResult := 0 }).setComps
        (s.comps ++ [cancelledEntry c])).setStaging (s.staging.handedBack c.buf) := by
  have hfind : s.cmds.queue.find? (fun x => decide (x.tag = tag)) = some c := hq ▸ find?_tag hc hb
  have hrest : withoutTag tag s.cmds.queue = before ++ after := hq ▸ withoutTag_append_cons hc hb ha
  unfold cancel
  simp only [h, hfind, setOwner_host, State.setCmds_cmds, hrest]
  rfl

/-- R210, R211: the byte of a cancel leaves the address at CANCEL. -/
theorem exec_cancel {tag : Byte} (hw : writing false 0x0C s) :
    exec (.cancel tag) s = .next ((cancel tag s).afterWrite false 0x0C) := by
  have hp : writing false 0x0C (cancel tag s) := (congrArg Port.frame (cancel_cancelResult_port tag s).2).trans hw
  exact congrArg Host.Outcome.next (dataWrite_at (here := at0 0x0C) hw rfl hp)

end Sys2Proof.Machine

open Sys2Proof Sys2Proof.Machine

/-- Settles O40: SUBMIT_RESULT is the code of `submitCheck` on both sides, and a code other than 0 is a refusal. -/
theorem submissionChecks : Obligations.SubmissionChecks := by
  intro i v r s hi hw _ hr
  rw [← submitCheck_code] at hr
  subst hr
  rw [exec_submit hi hw]
  refine ⟨fun hne => ?_, fun h0 => ⟨_, rfl, (submit_submitResult v s).trans h0⟩⟩
  have href : submitCheck v s ≠ .accepted := mt (SubmitResult.code_eq_zero_iff _).mpr hne
  rw [submit_refused href]

/-- Settles O50: the same for a cancel, whose accepted outcome is `cancel_accepted`. -/
theorem cancelAnswers : Obligations.CancelAnswers := by
  intro tag r s hw hr
  rw [← cancelCheck_code] at hr
  subst hr
  rw [exec_cancel hw]
  refine ⟨fun hne => ?_, fun h0 => ⟨_, rfl, (cancel_cancelResult_port tag s).1.trans h0⟩,
    fun before after c h0 hq hc hb ha => ?_⟩
  · have href : cancelCheck tag s ≠ .accepted := mt (CancelResult.code_eq_zero_iff _).mpr hne
    rw [cancel_refused href]
  · subst hc
    rw [cancel_accepted ((CancelResult.code_eq_zero_iff _).mp h0) hq rfl hb ha]
    rfl

end

section
/-! A byte written to and a byte read from BUF_DATA, as the owner of the selected buffer decides (R158 to R160, R210). -/

namespace Sys2Proof.Machine

variable {s : State}

/-! ### The selected buffer and its offset (R154, R160) -/

/-- R160: the offset wraps from 1023 to 0. -/
theorem toNat_offset_succ (o : BufOffset) : (o + 1).toNat = (o.toNat + 1) % 1024 := BitVec.toNat_add o 1

/-- R154: the selected buffer is the one the offset is of, so its owner is that buffer's. -/
theorem Staging.owner_select_engine_iff (g : Staging) : g.owner g.select = .engine ↔
    (g.select = .bufA ∧ g.ownerA = .engine) ∨ (g.select = .bufB ∧ g.ownerB = .engine) := by
  cases h : g.select <;> simp [Staging.owner]

/-! ### The byte written (R158) -/

/-- R158: the byte is stored in a HOST-owned buffer. -/
theorem writeBufData_host (v : Byte) (h : s.staging.owner s.staging.select = .host) :
    writeBufData v s = advanceOffset (s.setStaging (s.staging.setBytes s.staging.select
      ((s.staging.bytes s.staging.select).set s.staging.offset.toNat v))) := by
  simp only [writeBufData, h]

/-- R158: the byte is discarded where the engine owns the buffer. -/
theorem writeBufData_engine (v : Byte) (h : s.staging.owner s.staging.select = .engine) :
    writeBufData v s = advanceOffset (raiseConflict s) := by
  simp only [writeBufData, h]

@[simp] theorem writeBufData_port (v : Byte) (s : State) : (writeBufData v s).port = s.port := by
  cases h : s.staging.owner s.staging.select
  case host => rw [writeBufData_host v h]; rfl
  case engine => rw [writeBufData_engine v h]; rfl

/-- R210, R213: BUF_DATA is a port address, so the frame stays at it. -/
theorem exec_bufDataWrite (v : Byte) (hw : writing false 0x1E s) :
    exec (.bufDataWrite v) s = .next ((writeBufData v s).afterWrite false 0x1E) := by
  have hp : writing false 0x1E (writeBufData v s) := (congrArg Port.frame (writeBufData_port v s)).trans hw
  exact congrArg Host.Outcome.next (dataWrite_at (here := at0 0x1E) hw rfl hp)

/-! ### The byte read (R159) -/

/-- R159: the byte returned is the one at the offset of a HOST-owned buffer. -/
theorem readBufData_host {b : Byte} (h : s.staging.owner s.staging.select = .host)
    (hb : (s.staging.bytes s.staging.select)[s.staging.offset.toNat]? = some b) :
    readBufData s = (b, advanceOffset s) := by
  simp only [readBufData, h, List.getD_eq_getElem?_getD, hb, Option.getD_some]

/-- R159: a buffer the engine owns gives 00h and raises the access-conflict flag. -/
theorem readBufData_engine (h : s.staging.owner s.staging.select = .engine) :
    readBufData s = (0x00, advanceOffset (raiseConflict s)) := by
  simp only [readBufData, h]

@[simp] theorem readBufData_port (s : State) : (readBufData s).2.port = s.port := by
  cases h : s.staging.owner s.staging.select <;> simp only [readBufData, h] <;> rfl

/-- R210: the byte of a read frame is shifted out, and the address moves on. -/
theorem dataRead_at {bank : Bool} {a : RegAddr} (h : reading bank a s) (hr : reading bank a (readRegister bank a s).2) :
    dataRead s = (readRegister bank a s).2.setPort
      { (readRegister bank a s).2.port with
        frame := .data true bank (nextAddress bank a), out := (readRegister bank a s).1 } := by
  simp only [dataRead, h, advanceAddress, shiftOut, modPort, State.setPort_port, hr]
  rfl

/-- R159, R210: BUF_DATA is a port address, so of the port only the byte shifted out changes. -/
theorem exec_bufDataRead (h : reading false 0x1E s) :
    exec .bufDataRead s = .next ((readBufData s).2.setPort { s.port with out := (readBufData s).1 }) := by
  have hr : readRegister false 0x1E s = readBufData s := rfl
  have hstay : (.data true false (nextAddress false 0x1E) : Frame) = s.port.frame := h.symm
  have hread := dataRead_at h (by rw [hr]; exact (congrArg Port.frame (readBufData_port s)).trans h)
  rw [hr, readBufData_port, hstay] at hread
  exact congrArg Host.Outcome.next hread

end Sys2Proof.Machine

open Sys2Proof Sys2Proof.Machine

/-- Settles O36: `writeBufData` by the owner of the selected buffer, with the offset's successor as the witness. -/
theorem bufferByteWritten : Obligations.BufferByteWritten := by
  intro v s hw
  rw [exec_bufDataWrite v hw]
  refine ⟨s.staging.offset + 1, toNat_offset_succ _, fun hsel hown => ?_, fun hsel hown => ?_, fun hown => ?_⟩
  · rw [writeBufData_host v (by rw [hsel]; exact hown), hsel]
    rfl
  · rw [writeBufData_host v (by rw [hsel]; exact hown), hsel]
    rfl
  · rw [writeBufData_engine v ((Staging.owner_select_engine_iff _).mpr hown)]
    rfl

/-- Settles O37: `readBufData` by the owner of the selected buffer, with the offset's successor as the witness. -/
theorem bufferByteRead : Obligations.BufferByteRead := by
  intro s hread _
  rw [exec_bufDataRead hread]
  refine ⟨s.staging.offset + 1, toNat_offset_succ _, fun b hsel hown hb => ?_, fun b hsel hown hb => ?_, fun hown => ?_⟩
  · rw [readBufData_host (by rw [hsel]; exact hown) (by rw [hsel]; exact hb)]
    rfl
  · rw [readBufData_host (by rw [hsel]; exact hown) (by rw [hsel]; exact hb)]
    rfl
  · rw [readBufData_engine ((Staging.owner_select_engine_iff _).mpr hown)]
    rfl

end

section
/-! What every command keeps of the state, said once (R1, R2, R20, R48, R65, R68, R70, R82, R85, R115, R123, R154, R193,
R219): one relation of the state before and the state after, shown to survive each named update of the blocks. -/

namespace Sys2Proof.Machine

/-- `t` has every invariant that `s` has, block by block, and the commands that wait in `s`. -/
structure Keeps (s t : State) : Prop where
  pending : t.pending = s.pending
  array : s.array.wf → t.array.wf
  table : s.table.wf ∧ countsExact s → t.table.wf ∧ countsExact t
  queues : capacitiesOk s ∧ heldOk s → capacitiesOk t ∧ heldOk t
  index : indexOk s → indexOk t
  ranges : s.staging.wf ∧ s.settings.wf ∧ s.irq.wf ∧ s.ctl.wf → t.staging.wf ∧ t.settings.wf ∧ t.irq.wf ∧ t.ctl.wf

theorem Keeps.refl (s : State) : Keeps s s := ⟨rfl, id, id, id, id, id⟩

variable {s t : State}

/-! ### Updates that touch one invariant -/

theorem Keeps.setCtl (h : Keeps s t) (x : Controller) (hx : x.pass ≤ t.ctl.pass ∨ x.pass ≤ Config.passEnd) :
    Keeps s (t.setCtl x) :=
  { h with
    ranges := fun w => by
      obtain ⟨hg, hc, hi, hp⟩ := h.ranges w
      exact ⟨hg, hc, hi, hx.elim (le_trans · hp) id⟩ }

theorem Keeps.setTable (h : Keeps s t) (x : SectorTable) (hw : t.table.wf → x.wf)
    (he : countsExact t → countsExact (t.setTable x)) : Keeps s (t.setTable x) :=
  { h with table := fun w => (h.table w).imp hw he }

theorem Keeps.setPower (h : Keeps s t) (x : Power) (he : countsExact t → countsExact (t.setPower x)) :
    Keeps s (t.setPower x) :=
  { h with table := fun w => (h.table w).imp_right he }

theorem Keeps.setIndex (h : Keeps s t) (x : List IndexEntry) (hx : indexOk t → ascendingKeys x) :
    Keeps s (t.setIndex x) :=
  { h with index := fun w => ⟨hx (h.index w), (h.index w).2⟩ }

/-- R123: an update of the engine keeps the held completion, drops it, or comes at a full Completion Queue. -/
theorem Keeps.setEngine (h : Keeps s t) (x : Engine)
    (hx : x.held = t.engine.held ∨ x.held = none ∨ Config.completionCapacity ≤ t.comps.length) :
    Keeps s (t.setEngine x) :=
  { h with
    queues := fun w => by
      obtain ⟨hcap, hheld⟩ := h.queues w
      refine ⟨hcap, fun hne => ?_⟩
      rcases hx with hsame | hnone | hfull
      · exact hheld (hsame ▸ hne)
      · exact absurd hnone hne
      · exact le_antisymm hcap.2.1 hfull }

theorem Keeps.setCmds (h : Keeps s t) (x : CommandQueue)
    (hx : x.queue.length ≤ t.cmds.queue.length ∨ x.queue.length ≤ Config.queueCapacity) : Keeps s (t.setCmds x) :=
  { h with
    queues := fun w => by
      obtain ⟨⟨hq, hc, hr⟩, hheld⟩ := h.queues w
      exact ⟨⟨hx.elim (le_trans · hq) id, hc, hr⟩, hheld⟩ }

/-- R123: an update of the Completion Queue keeps its length, or shortens or fills it with nothing held, or adds to a
queue that is not full. -/
theorem Keeps.setComps (h : Keeps s t) (x : List Completion)
    (hx : x.length = t.comps.length ∨ (t.engine.held = none ∧ x.length ≤ t.comps.length) ∨
      (t.comps.length < Config.completionCapacity ∧ x.length = t.comps.length + 1)) : Keeps s (t.setComps x) :=
  { h with
    queues := fun w => by
      obtain ⟨⟨hq, hc, hr⟩, hheld⟩ := h.queues w
      rcases hx with hsame | ⟨hnone, hle⟩ | ⟨hroom, hadd⟩
      · exact ⟨⟨hq, hsame ▸ hc, hr⟩, fun hne => hsame.trans (hheld hne)⟩
      · exact ⟨⟨hq, hle.trans hc, hr⟩, fun hne => absurd hnone hne⟩
      · exact ⟨⟨hq, hadd ▸ hroom, hr⟩, fun hne => absurd (hheld hne) hroom.ne⟩ }

theorem Keeps.setScanner (h : Keeps s t) (x : Scanner)
    (hr : t.scanner.ring.length ≤ Config.ringCapacity → x.ring.length ≤ Config.ringCapacity)
    (hl : t.scanner.lost ≤ 255 → x.lost ≤ 255) (hc : indexOk t → ascendingKeys x.chosen) : Keeps s (t.setScanner x) :=
  { h with
    queues := fun w => by
      obtain ⟨⟨hq, hcomp, hring, hlost⟩, hheld⟩ := h.queues w
      exact ⟨⟨hq, hcomp, hr hring, hl hlost⟩, hheld⟩
    index := fun w => ⟨(h.index w).1, hc (h.index w)⟩ }

/-- R193: the ring holds 8 entries at most and the lost-report count stops at 255. -/
theorem Keeps.report (h : Keeps s t) (r : Report) : Keeps s (Machine.report r t) := by
  unfold Machine.report
  split
  · rename_i hroom
    refine h.setScanner _ (fun _ => ?_) id And.right
    rw [List.length_append]
    exact hroom
  · refine h.setScanner _ (fun hring => ?_) (fun _ => min_le_left _ _) And.right
    have hring : t.scanner.ring.length ≤ 8 := hring
    show (t.scanner.ring.tail ++ [r]).length ≤ 8
    rw [List.length_append, List.length_tail, List.length_singleton]
    omega

theorem Keeps.setIrq (h : Keeps s t) (x : Interrupts) (hx : t.irq.wf → x.wf) : Keeps s (t.setIrq x) :=
  { h with ranges := fun w => (h.ranges w).imp_right (And.imp_right (And.imp_left hx)) }

/-! ### Every command -/

/-- Every update a command makes keeps what `Keeps` says. -/
theorem closedHost_keeps (s : State) : ClosedHost (Keeps s) where
  ctl _ x hx h := h.setCtl x hx
  table _ x hw he h := h.setTable x hw he
  index _ x hx h := h.setIndex x hx
  engine _ x hx h := h.setEngine x (.inl hx)
  hold _ x hx h := h.setEngine x (.inr (.inr hx))
  release _ x hx h := h.setEngine x (.inr (.inl hx))
  reclaimer _ _ h := { h with }
  take _ c q hq h := h.setCmds _ (.inl (by rw [hq]; exact Nat.le_succ _))
  join _ e he h := h.setComps _ (.inr (.inr ⟨he, List.length_append⟩))
  staging _ x hx h := { h with ranges := fun w => (h.ranges w).imp_left hx }
  scanner _ x hr hl hc h := h.setScanner x (hr ▸ id) (hl ▸ id) hc
  report _ r h := h.report r
  power _ x he h := h.setPower x he
  irq _ x hx h := h.setIrq x fun w => (congrArg (· &&& 0xC0) hx).trans w
  free _ _ h := { h with }
  mark _ n h := { h with array := fun w => CellArray.eraseMark_wf _ n (h.array w) }
  array _ _ hx h := { h with array := hx ∘ h.array }
  port _ _ h := { h with }
  pfw _ _ h := { h with }
  settings _ x hx h := { h with ranges := fun w => (h.ranges w).imp_right (And.imp_left hx) }
  mask _ x hx h := h.setIrq x hx
  cmds _ x hx h := h.setCmds x (.inl hx)
  fields _ x hx h := h.setCmds x (.inr hx)
  shift _ x hx h := h.setComps x (.inl hx)
  drop _ x hn hx h := h.setComps x (.inr (.inl ⟨hn, hx⟩))
  popReport _ x hr hl hc h := h.setScanner x hr.trans hl.trans hc

/-- A command keeps every invariant, and the queue of waiting commands. -/
theorem exec_keeps {i : Instr} (he : exec i s = .next t) : Keeps s t := (closedHost_keeps s).exec i (Keeps.refl s) he

theorem step_cons {c : Instr} {rest : List Instr} (h : s.pending = c :: rest) : step s = exec c (s.setPending rest) := by
  simp only [step, h]

/-- A step is one command on the state with the queue's rest, or nothing. -/
theorem step_cases (h : step s = .next t) : t = s ∨ ∃ c rest, exec c (s.setPending rest) = .next t := by
  cases hp : s.pending with
  | nil => exact .inl (by simpa [step, hp] using h.symm)
  | cons c rest => exact .inr ⟨c, rest, step_cons hp ▸ h⟩

/-- An invariant that does not read the queue of waiting commands, and that every command keeps, is kept by a step. -/
theorem step_invariant {P : State → Prop} (hq : ∀ u q, P u → P (u.setPending q))
    (hk : ∀ {u v}, Keeps u v → P u → P v) (hs : P s) (h : step s = .next t) : P t := by
  rcases step_cases h with rfl | ⟨c, rest, he⟩
  · exact hs
  · exact hk (exec_keeps he) (hq s rest hs)

end Sys2Proof.Machine

open Sys2Proof Sys2Proof.Machine

/-- Settles O3. -/
theorem arrayStaysCanonical : Obligations.ArrayStaysCanonical :=
  fun _ _ hs h => step_invariant (P := fun u => u.array.wf) (fun _ _ => id) Keeps.array hs h

/-- Settles O4. -/
theorem sectorCountsAdd : Obligations.SectorCountsAdd :=
  fun _ _ hs h => step_invariant (P := fun u => u.table.wf ∧ countsExact u) (fun _ _ => id) Keeps.table hs h

/-- Settles O5. -/
theorem queuesKeepCapacity : Obligations.QueuesKeepCapacity :=
  fun _ _ hs h => step_invariant (P := fun u => capacitiesOk u ∧ heldOk u) (fun _ _ => id) Keeps.queues hs h

/-- Settles O6. -/
theorem indexStaysAscending : Obligations.IndexStaysAscending :=
  fun _ _ hs h => step_invariant (P := indexOk) (fun _ _ => id) Keeps.index hs h

/-- Settles O7. -/
theorem rangesKept : Obligations.RangesKept :=
  fun _ _ hs h => step_invariant (P := fun u => u.staging.wf ∧ u.settings.wf ∧ u.irq.wf ∧ u.ctl.wf) (fun _ _ => id)
    Keeps.ranges hs h

/-- Settles O2. -/
theorem queueOfCommandsKept : Obligations.QueueOfCommandsKept := fun _ _ _ h => (exec_keeps h).pending

/-- Settles O1. -/
theorem frontCommandRuns : Obligations.FrontCommandRuns := fun _ _ _ h => step_cons h

/-- Settles O8: each block is in its reset value, and the reset table has 32 sound and exact records. -/
theorem resetIsSound : Obligations.ResetIsSound := by
  have hindex : indexOk State.reset := ⟨List.Pairwise.nil, List.Pairwise.nil⟩
  have hcap : capacitiesOk State.reset := ⟨Nat.zero_le _, Nat.zero_le _, Nat.zero_le _, Nat.zero_le _⟩
  have hstaging : State.reset.staging.wf := ⟨List.length_replicate, List.length_replicate⟩
  exact ⟨freshArray_wf, resetTable_wf, fun _ => resetTable_exact, hindex, hcap, fun h => absurd rfl h, hstaging,
    by decide, by decide, by decide⟩

end

section
/-! The three resets, the loss of the supply and the ends of the holds (R17, R166 to R169, R206, R208). -/

namespace Sys2Proof.Machine

variable {s : State}

/-! ### Running and held (R166, R171) -/

theorem running_iff (s : State) : s.running = true ↔
    s.power.supply = true ∧ s.power.supplyHold = false ∧ s.power.resetLow = false ∧ s.power.softHold = false := by
  simp [State.running, State.held, and_assoc]

/-- R166: a part that is held does not run. -/
theorem running_of_held (h : s.held = true) : s.running = false := by simp [State.running, h]

/-- R116: a part that is not READY takes no command. -/
theorem quiet_of_not_ready (h : s.power.isReady = false) : quiet s := .inr (.inr (by simp [State.deviceReady, h]))

/-- R19, R116: an event in which the engine takes nothing comes to what the port grants. -/
theorem settle_arrive (h : quiet s) (ha : quiet (arrive s)) : settle s = arrive s := by
  rw [settle, takeAll_quiet h, takeAll_quiet ha]

/-! ### What every reset leaves of the blocks (R166, R167) -/

/-- R166: the blocks after a reset, with a supply and hold block in which the part does not run. -/
theorem blocksReset_resetBlocks (c : StartCause) (x : Settings) (m : Byte) (a b : List Byte) (s : State) (p : Power)
    (hready : p.isReady = false) (hrun : ((resetBlocks c x m a b s).setPower p).running = false) :
    blocksReset ((resetBlocks c x m a b s).setPower p) :=
  ⟨rfl, rfl, rfl, rfl, rfl, rfl, rfl, ⟨rfl, rfl, rfl, rfl, rfl⟩, ⟨rfl, rfl, rfl, rfl, rfl, rfl⟩, ⟨rfl, rfl, rfl⟩, hready, hrun⟩

theorem resetPort_frame (f : Frame) : (resetPort f).frame = .closed ∨ (resetPort f).frame = .undecoded := by
  cases f <;> simp [resetPort]

/-- R167: a part that is running takes every block of a pin reset. -/
theorem beginPin_running (h : s.running = true) : beginPin s =
    (resetBlocks .pin resetSettings 0 s.staging.bytesA s.staging.bytesB (cutOperations s)).setPower
      { s.power with resetLow := true, isReady := false } := if_pos h

theorem beginPin_array (h : s.running = true) : (beginPin s).array = (cutOperations s).array := by
  simp [beginPin_running h]

@[simp] theorem beginPowerOn_array (s : State) : (beginPowerOn s).array = (cutOperations s).array := by
  simp [beginPowerOn, useFree]

@[simp] theorem loseSupply_array (s : State) : (loseSupply s).array = (cutOperations s).array := by simp [loseSupply]

/-- R166: a pin reset in a hold. -/
theorem beginPin_held (hs : s.power.supply = true) (h : s.held = true) : beginPin s =
    (s.setPower { s.power with resetLow := true }).setScanner { s.scanner with cause := .pin } := by
  unfold beginPin
  rw [if_neg (by simp [running_of_held h])]
  exact if_pos hs

/-! ### The write of CONTROL (R169, R214, R218) -/

@[simp] theorem beginSoft_port (s : State) : (beginSoft s).port = resetPort s.port.frame := by simp [beginSoft]

@[simp] theorem beginSoft_array (s : State) : (beginSoft s).array = (cutOperations s).array := by simp [beginSoft]

/-- R210, R214: the frame of a soft reset is not decoded, so that its address does not move on. -/
theorem exec_softReset {v : Byte} (hw : writing false 0x01 s) (hv : v.getLsbD 0 = true) :
    exec (.softReset v) s = .next (shiftOut 0x00 (beginSoft s)) := by
  have hwrite : writeRegister false 0x01 v s = beginSoft s := if_pos hv
  have hframe : (shiftOut 0x00 (beginSoft s)).port.frame = .undecoded := by
    show (beginSoft s).port.frame = _
    rw [beginSoft_port, hw]
    rfl
  have hstay : advanceAddress (shiftOut 0x00 (beginSoft s)) = shiftOut 0x00 (beginSoft s) := by
    simp only [advanceAddress, hframe]
  show Host.Outcome.next (dataWrite (at0 0x01) v s) = _
  unfold dataWrite
  rw [hw]
  simp only [at0, Bool.not_false, decide_true, Bool.and_self, if_true]
  rw [hwrite, hstay]

/-! ### The ends of the holds (R166, R168, R206) -/

/-- R19, R173: the scan's header read of a sector is granted at an empty port, quiesced or not. -/
theorem arrive_scanHeader (n : Nat) (h : portEmpty s) : arrive (scanHeader n s) =
    (s.setScanner { s.scanner with step := .headers, pos := n }).setCtl
      { s.ctl with op := some { who := .scanner, op := .headerRead n, phase := .single, suspendCount := 0 } } := by
  obtain ⟨hop, hpaused, hengine, hreclaimer, hscanner⟩ := h
  have hgrant : arrive (scanHeader n s) = grant .scanner (.headerRead n) (scanHeader n s) := by
    simp [arrive, scanHeader, placeWaiting, modScanner, Controller.setWaiting, grantable, Controller.waiting, isRead,
      hop, hpaused]
  have hctl : ({ s.ctl with waitScanner := none } : Controller) = s.ctl := by rw [← hscanner]
  rw [hgrant]
  show (s.setScanner { s.scanner with step := .headers, pos := n }).setCtl
    { ({ s.ctl with waitScanner := none } : Controller) with op := some (granted .scanner (.headerRead n)) } = _
  rw [hctl]
  rfl

/-- R173: the same at the end of an event in which the part is not READY. -/
theorem settle_scanHeader (n : Nat) (h : portEmpty s) (hn : s.power.isReady = false) : settle (scanHeader n s) =
    (s.setScanner { s.scanner with step := .headers, pos := n }).setCtl
      { s.ctl with op := some { who := .scanner, op := .headerRead n, phase := .single, suspendCount := 0 } } := by
  have harrive := arrive_scanHeader n h
  have hquiet : quiet (arrive (scanHeader n s)) := by
    rw [harrive]
    exact quiet_of_not_ready hn
  exact (settle_arrive (s := scanHeader n s) (quiet_of_not_ready hn) hquiet).trans harrive

/-- R168, R173: the end of the last hold begins the scan. -/
theorem endHold_running (hp : portEmpty s) (hr : s.running = true) (hn : s.power.isReady = false) :
    endHold s = s.scanBegun := by
  unfold endHold
  rw [if_pos hr, settle_scanHeader]
  · rfl
  · exact hp
  · exact hn

/-- R166: the end of a hold while another stands changes nothing further. -/
theorem endHold_held (h : s.held = true) : endHold s = s := if_neg (by simp [running_of_held h])

/-- R213: a frame that collected no byte of RECLAIM_LOW closes with the rest of the port as it stood. -/
theorem endFrame_uncollected (hf : s.port.frame ≠ .closed) (hl : s.port.lowByte = none) (hh : s.port.highByte = none) :
    endFrame s = endSoftHold (s.setPort { s.port with frame := .closed, taken := [] }) := by
  have hclose : closePort (storeCollected s) = s.setPort { s.port with frame := .closed, taken := [] } := by
    simp only [storeCollected, hl, hh, and_self, if_true, closePort, modPort]
  unfold endFrame
  rw [hclose]
  cases h : s.port.frame with
  | closed => exact absurd h hf
  | control => rfl
  | data _ _ _ => rfl
  | undecoded => rfl

/-- R168, R169: the end of the frame of a soft reset ends its hold. -/
theorem endFrame_softHold (hs : s.power.softHold = true) (hf : s.port.frame = .undecoded) (hl : s.port.lowByte = none)
    (hh : s.port.highByte = none) :
    endFrame s = endHold ((s.setPower { s.power with softHold := false }).setPort
      { s.port with frame := .closed, taken := [] }) := by
  rw [endFrame_uncollected (by simp [hf]) hl hh]
  exact if_pos hs

/-! ### The operation a reset cuts (R17, R208) -/

/-- R17, R166, R208: every command that cuts leaves an empty port and the array as the cut leaves it. -/
theorem exec_cuts {i : Instr} (h : cutsOperation i s) :
    ∃ t, exec i s = .next t ∧ t.ctl.op = none ∧ t.ctl.paused = none ∧ t.array = (cutOperations s).array := by
  rcases h with (rfl | ⟨rfl, hr⟩ | ⟨v, rfl, hv, hw⟩) | rfl
  · exact ⟨beginPowerOn s, rfl, rfl, rfl, beginPowerOn_array s⟩
  · have hctl : (beginPin s).ctl = resetController false := by rw [beginPin_running hr]; rfl
    exact ⟨beginPin s, rfl, congrArg Controller.op hctl, congrArg Controller.paused hctl, beginPin_array hr⟩
  · exact ⟨_, exec_softReset hw hv, rfl, rfl, beginSoft_array s⟩
  · exact ⟨loseSupply s, rfl, rfl, rfl, loseSupply_array s⟩

variable (a : CellArray) (o : Operation) (use : Nat)

/-- R17: a cut read or a cut state advance leaves the array as it was. -/
theorem CellArray.cut_none (h : (∃ c, o.op = .read c ∨ o.op = .headerRead c) ∨ (∃ c x, o.op = .advanceCell c x) ∨
    ∃ n x, o.op = .advanceHeader n x) : a.cut o use = a := by
  unfold CellArray.cut
  rcases h with ⟨c, h | h⟩ | ⟨c, x, h⟩ | ⟨n, x, h⟩ <;> rw [h]

theorem CellArray.cut_program {p : Program} (h : o.op = .program p) :
    a.cut o use = a.cutProgram p (Config.programResidue use) := by
  unfold CellArray.cut
  rw [h]

theorem CellArray.cut_erasePhase {n e k : Nat} (h : o.op = .erase n e k) (hp : o.phase = .erasePhase) :
    a.cut o use = (a.disturbSector n use).putSector n .garbled := by
  unfold CellArray.cut
  rw [h, hp]

/-- R17: a cut header phase leaves the header erased or torn. -/
theorem CellArray.cut_headerPhase {n e k : Nat}
    (h : (o.op = .erase n e k ∧ o.phase = .headerPhase true) ∨ o.op = .restoreHeader n e k) :
    ∃ x, (x = .erased ∨ x = .garbled) ∧ a.cut o use = a.putSector n x := by
  have hcut : a.cut o use = if Config.headerProgramBegun use then a.putSector n .garbled else a.putSector n .erased := by
    unfold CellArray.cut
    rcases h with ⟨h, hp⟩ | h
    · rw [h, hp]
    · rw [h]
  rw [hcut]
  split
  · exact ⟨_, .inr rfl, rfl⟩
  · exact ⟨_, .inl rfl, rfl⟩

/-- R17: a cut program of a BLANK cell leaves it torn and nothing else changed. -/
theorem CellArray.cutProgram_blank (p : Program) (x : Cell) (h : a.wf) (hp : p.cell < 1024)
    (hb : cellCondition (a.cellAt p.cell) = .blank) :
    cellCondition ((a.cutProgram p x).cellAt p.cell) = .torn ∧ (a.cutProgram p x).sectors = a.sectors ∧
      ∀ c, c ≠ p.cell → (a.cutProgram p x).cellAt c = a.cellAt c := by
  unfold CellArray.cutProgram
  rw [if_pos hb]
  refine ⟨?_, a.putCell_sectors _ _, fun c hc => a.cellAt_putCell_other _ _ _ h hc⟩
  rw [a.cellAt_putCell_same _ _ h hp]
  rfl

/-- R17: an erase cut in its erase phase leaves its sector torn and nothing of another sector changed. -/
theorem CellArray.cut_erasePhase_frame {n e k : Nat} (h : o.op = .erase n e k) (hp : o.phase = .erasePhase) (hw : a.wf)
    (hn : n < 32) :
    sectorTorn ((a.cut o use).sectorAt n) = true ∧ (∀ m, m ≠ n → (a.cut o use).sectorAt m = a.sectorAt m) ∧
      ∀ c, sectorOf c ≠ n → (a.cut o use).cellAt c = a.cellAt c := by
  have hlen : n < (a.disturbSector n use).sectors.length := by
    rw [a.disturbSector_sectors, hw.2.2]
    exact hn
  rw [a.cut_erasePhase o use h hp]
  refine ⟨?_, fun m hm => ?_, fun c hc => a.disturbSector_cellAt n use c hw hc⟩
  · rw [CellArray.sectorAt_putSector_same _ _ _ hlen]
    rfl
  · rw [CellArray.sectorAt_putSector_other _ _ _ _ hm, CellArray.sectorAt, a.disturbSector_sectors]
    rfl

/-- R17: a cut header phase changes its own header alone. -/
theorem CellArray.cut_headerPhase_frame {n e k : Nat}
    (h : (o.op = .erase n e k ∧ o.phase = .headerPhase true) ∨ o.op = .restoreHeader n e k) (hw : a.wf) (hn : n < 32) :
    ((a.cut o use).sectorAt n = .erased ∨ sectorTorn ((a.cut o use).sectorAt n) = true) ∧
      (∀ m, m ≠ n → (a.cut o use).sectorAt m = a.sectorAt m) ∧ ∀ c, (a.cut o use).cellAt c = a.cellAt c := by
  obtain ⟨x, hx, hcut⟩ := a.cut_headerPhase o use h
  rw [hcut]
  refine ⟨?_, fun m hm => a.sectorAt_putSector_other _ _ _ hm, fun _ => rfl⟩
  rw [a.sectorAt_putSector_same n x (by rw [hw.2.2]; exact hn)]
  exact hx.imp_right (congrArg sectorTorn)

end Sys2Proof.Machine

open Sys2Proof Sys2Proof.Machine

/-- Settles O16: every command that cuts comes to `CellArray.cut`, operation by operation. -/
theorem resetCutsOperation : Obligations.ResetCutsOperation := by
  intro i s hi hw
  obtain ⟨t, ht, hop, hpaused, harray⟩ := exec_cuts hi
  refine ⟨fun o ho hp => ⟨t, ht, hop, hpaused, ?_⟩, fun o r n e k hr hop' hn hphase ho hread => ⟨t, ht, hop, hpaused, ?_⟩⟩
  · rw [harray, cutOperations_array s o ho hp]
    refine ⟨fun c h => s.array.cut_none _ _ (.inl ⟨c, h⟩), fun c x h => s.array.cut_none _ _ (.inr (.inl ⟨c, x, h⟩)),
      fun n x h => s.array.cut_none _ _ (.inr (.inr ⟨n, x, h⟩)), fun p h hc hb => ?_,
      fun n e k h hn hph => s.array.cut_erasePhase_frame _ _ h hph hw hn,
      fun n e k h hn => s.array.cut_headerPhase_frame _ _ h hw hn⟩
    rw [s.array.cut_program _ _ h]
    exact s.array.cutProgram_blank p _ hw hc hb
  · obtain ⟨c, hc⟩ := hread
    have hcut : (cutOperations s).array = s.array.cut r (s.free + 1) := by
      have hnone := s.array.cut_none o s.free (.inl ⟨c, .inl hc⟩)
      simp only [cutOperations, cutOne, hr, ho, hnone, useFree]
      rfl
    rw [harray, hcut]
    exact s.array.cut_erasePhase_frame r _ hop' hphase hw hn

/-- Settles O9. -/
theorem powerOnResets : Obligations.PowerOnResets := by
  intro s
  refine ⟨beginPowerOn s, rfl, blocksReset_resetBlocks _ _ _ _ _ _ _ rfl rfl, ?_, rfl, rfl, rfl, ?_, fun hop hpaused => ?_,
    resetPort_frame _⟩
  · simp [beginPowerOn, useFree]
  · simp [beginPowerOn, useFree]
  · rw [beginPowerOn_array, cutOperations_idle s hop hpaused]

/-- Settles O10. -/
theorem pinResets : Obligations.PinResets := by
  intro s hr
  refine ⟨beginPin s, rfl, ?_⟩
  rw [beginPin_running hr]
  refine ⟨blocksReset_resetBlocks _ _ _ _ _ _ _ rfl (running_of_held (by simp [State.held])), rfl, rfl, rfl, rfl, rfl, rfl,
    ?_, fun hop hpaused => ?_, fun hf => ?_, fun hf => ?_⟩
  · simp
  · simp [cutOperations_idle s hop hpaused]
  · simp [hf]
  · simp [resetPort_open _ hf]

/-- Settles O11. -/
theorem softResets : Obligations.SoftResets := by
  intro v s hw hv
  have hframe : (beginSoft s).port.frame = .undecoded := by
    rw [beginSoft_port, hw]
    rfl
  have hblocks : blocksReset (beginSoft s) :=
    blocksReset_resetBlocks _ _ _ _ _ _ _ rfl (running_of_held (by simp [State.held]))
  refine ⟨_, exec_softReset hw hv, hblocks, rfl, rfl, rfl, rfl, rfl, rfl, ?_, fun hop hpaused => ?_, hframe⟩
  · simp [shiftOut, modPort, beginSoft]
  · exact (beginSoft_array s).trans (congrArg State.array (cutOperations_idle s hop hpaused))

/-- Settles O12. -/
theorem controlNeedsBitZero : Obligations.ControlNeedsBitZero := by
  intro v s hw hv
  have hwrite : writeRegister false 0x01 v s = s := by
    show writeControl v s = s
    rw [writeControl, hv]
    rfl
  have hdata := dataWrite_at (here := anyAddress) (v := v) hw rfl (by rw [hwrite]; exact hw)
  rw [hwrite] at hdata
  exact congrArg Host.Outcome.next hdata

/-- Settles O13. -/
theorem pinResetInHold : Obligations.PinResetInHold := fun _ hs h => congrArg Host.Outcome.next (beginPin_held hs h)

/-- Settles O14: each of the three ends of hold is `endHold` on a part that runs again. -/
theorem holdEndBeginsScan : Obligations.HoldEndBeginsScan := by
  intro s hp hsupply hready
  refine ⟨fun h1 h2 h3 => congrArg Host.Outcome.next ((if_pos h1).trans ?_),
    fun h1 h2 h3 => congrArg Host.Outcome.next ((if_pos h2).trans ?_),
    fun h1 h2 h3 hf hl hh => congrArg Host.Outcome.next ((endFrame_softHold h3 hf hl hh).trans ?_)⟩
  · exact endHold_running hp ((running_iff _).mpr ⟨hsupply, rfl, h2, h3⟩) hready
  · exact endHold_running hp ((running_iff _).mpr ⟨hsupply, h1, rfl, h3⟩) hready
  · exact endHold_running hp ((running_iff _).mpr ⟨hsupply, h1, h2, rfl⟩) hready

/-- Settles O15: each end of hold is `endHold` on a part that is still held. -/
theorem holdWaitsForAll : Obligations.HoldWaitsForAll := by
  intro s
  refine ⟨fun h1 h2 => congrArg Host.Outcome.next ((if_pos h1).trans (endHold_held ?_)),
    fun h1 h2 => congrArg Host.Outcome.next ((if_pos h1).trans (endHold_held ?_)),
    fun h1 h2 hf hl hh => congrArg Host.Outcome.next ((endFrame_softHold h1 hf hl hh).trans (endHold_held ?_))⟩
  all_goals rcases h2 with h2 | h2 <;> simp [State.held, h2]

/-- Settles O17. -/
theorem supplyLossStops : Obligations.SupplyLossStops := by
  intro s hop hpaused
  have hcut := cutOperations_idle s hop hpaused
  refine ⟨loseSupply s, rfl, rfl, ?_⟩
  unfold loseSupply
  rw [hcut]
  exact ⟨rfl, ⟨rfl, rfl, rfl, rfl, rfl⟩, rfl, rfl, rfl, rfl⟩

end

section
/-! The power-fail warning and what the arbiter grants at its end (R19, R20, R195 to R201). -/

namespace Sys2Proof.Machine

variable {s : State}

@[simp] theorem State.setCtl_setCtl (s : State) (x y : Controller) : (s.setCtl x).setCtl y = s.setCtl y := rfl

/-! ### Whether the engine takes a command is read from its queue, its state and the device state (R116) -/

@[simp] theorem quiet_setArray (s : State) (x : CellArray) : quiet (s.setArray x) ↔ quiet s := Iff.rfl
@[simp] theorem quiet_setCtl (s : State) (x : Controller) : quiet (s.setCtl x) ↔ quiet s := Iff.rfl
@[simp] theorem quiet_setTable (s : State) (x : SectorTable) : quiet (s.setTable x) ↔ quiet s := Iff.rfl
@[simp] theorem quiet_setIndex (s : State) (x : List IndexEntry) : quiet (s.setIndex x) ↔ quiet s := Iff.rfl
@[simp] theorem quiet_setReclaimer (s : State) (x : Reclaimer) : quiet (s.setReclaimer x) ↔ quiet s := Iff.rfl
@[simp] theorem quiet_setComps (s : State) (x : List Completion) : quiet (s.setComps x) ↔ quiet s := Iff.rfl
@[simp] theorem quiet_setStaging (s : State) (x : Staging) : quiet (s.setStaging x) ↔ quiet s := Iff.rfl
@[simp] theorem quiet_setScanner (s : State) (x : Scanner) : quiet (s.setScanner x) ↔ quiet s := Iff.rfl
@[simp] theorem quiet_setPfw (s : State) (x : PowerFail) : quiet (s.setPfw x) ↔ quiet s := Iff.rfl
@[simp] theorem quiet_setPort (s : State) (x : Port) : quiet (s.setPort x) ↔ quiet s := Iff.rfl
@[simp] theorem quiet_setIrq (s : State) (x : Interrupts) : quiet (s.setIrq x) ↔ quiet s := Iff.rfl
@[simp] theorem quiet_setSettings (s : State) (x : Settings) : quiet (s.setSettings x) ↔ quiet s := Iff.rfl
@[simp] theorem quiet_setFree (s : State) (x : Nat) : quiet (s.setFree x) ↔ quiet s := Iff.rfl

/-! ### The edges of PFW# (R195, R196, R200) -/

theorem supply_of_running (h : s.running = true) : s.power.supply = true := ((running_iff s).mp h).1

/-- R195: the monitor follows the pin while the part has its supply. -/
theorem pfwEdge_supplied (low : Bool) (h : s.power.supply = true) :
    pfwEdge low s = s.setPfw { pinLow := low, asserted := low } := by
  unfold pfwEdge
  rw [if_pos h]

/-- R196: a warning outside a hold. -/
theorem exec_pfwAssertion (hr : s.running = true) (hq : s.ctl.quiesced = false) :
    exec .pfwAssertion s = .next (settleFree (enterQuiesce (s.setPfw { pinLow := true, asserted := true }))) := by
  rw [← pfwEdge_supplied true (supply_of_running hr)]
  exact congrArg Host.Outcome.next (if_pos (by simp [hr, hq]))

/-- R200: the end of a warning outside a hold. -/
theorem exec_pfwDeassertion (hr : s.running = true) (hq : s.ctl.quiesced = true) :
    exec .pfwDeassertion s = .next (settleFree ((s.setPfw { pinLow := false, asserted := false }).setCtl
      { s.ctl with quiesced := false })) := by
  have hedge : leaveQuiesce (pfwEdge false s) = (s.setPfw { pinLow := false, asserted := false }).setCtl
      { s.ctl with quiesced := false } := by
    rw [pfwEdge_supplied false (supply_of_running hr)]
    rfl
  rw [← hedge]
  exact congrArg Host.Outcome.next (if_pos (by simp [hr, hq]))

/-- R197: an operation that is no erase in its erase phase runs on. -/
theorem enterQuiesce_running {o : Operation} (ho : s.ctl.op = some o) (hphase : o.phase ≠ .erasePhase)
    (hp : s.ctl.paused = none) : enterQuiesce s = s.setCtl { s.ctl with quiesced := true } := by
  simp only [enterQuiesce, abandonErase, State.setCtl_ctl, hp, ho, if_neg hphase]

/-- R197, R198, R201: the Reclaimer's erase in its erase phase is abandoned and waits again. -/
theorem enterQuiesce_erasing {n e k sc : Nat}
    (ho : s.ctl.op = some { who := .reclaimer, op := .erase n e k, phase := .erasePhase, suspendCount := sc })
    (hp : s.ctl.paused = none) (hb : s.reclaimer.barred = false) :
    enterQuiesce s = (modRec n (fun r => { r with state := .abandoned })
      ((s.setArray (s.array.disturbSector n s.free)).setFree (s.free + 1))).setCtl
        { s.ctl with op := none, waitReclaimer := some (.erase n e k), quiesced := true } := by
  simp only [enterQuiesce, abandonErase, State.setCtl_ctl, hp, ho, if_true, deliverAbandoned, disturb, portReleased,
    useFree, eraseEnded, stopping]
  rw [if_neg (by simp [modRec, hb])]
  rfl

/-! ### The free point (R19, R20, R199) -/

/-- R19, R199: a free port where no request may be granted stays free. -/
theorem settleFree_ungranted (h : quiet s) (hg : ∀ who, grantable who s = none) (h2 : s.ctl.paused = none) :
    settleFree s = s := by
  have hf : freePoint s = s := by
    unfold freePoint arbitrate
    rw [h2, hg, hg, hg]
    cases s.ctl.op <;> rfl
  rw [settleFree, takeAll_quiet h, hf, takeAll_quiet h]

/-- R116: an event at whose free point the engine takes nothing. -/
theorem settleFree_of_freePoint {t : State} (h : quiet s) (hf : freePoint s = t) (ht : quiet t) : settleFree s = t := by
  rw [settleFree, takeAll_quiet h, hf, takeAll_quiet ht]

/-- R20: of two programs that wait the arbiter chooses by the erased-cell count and the pass counter. -/
theorem freePoint_programs {p q : Program} {k : Nat}
    (hc : s.ctl = { op := none, paused := none, waitEngine := some (.program p), waitReclaimer := some (.program q),
                    waitScanner := none, pass := k, quiesced := false }) :
    freePoint s = if s.erasedCount < 32 ∨ 4 ≤ k then
        s.setCtl { op := some { who := .reclaimer, op := .program q, phase := .single, suspendCount := 0 }
                   paused := none, waitEngine := some (.program p), waitReclaimer := none, waitScanner := none, pass := 0,
                   quiesced := false }
      else
        s.setCtl { op := some { who := .engine, op := .program p, phase := .single, suspendCount := 0 }
                   paused := none, waitEngine := none, waitReclaimer := some (.program q), waitScanner := none,
                   pass := k + 1, quiesced := false } := by
  have harb : freePoint s = if reclaimerFirst s then grantReclaimer (.program q) s
      else grant .engine (.program p) (s.setCtl { s.ctl with pass := s.ctl.pass + 1 }) := by
    simp [freePoint, arbitrate, grantable, Controller.waiting, hc]
  have hfirst : reclaimerFirst s = true ↔ s.erasedCount < 32 ∨ 4 ≤ k := by simp [reclaimerFirst, hc]
  rw [harb]
  refine if_congr hfirst ?_ ?_
  · unfold grantReclaimer
    rw [hc]
    rfl
  · rw [hc]
    rfl

end Sys2Proof.Machine

open Sys2Proof Sys2Proof.Machine

/-- Settles O18: the running operation by `enterQuiesce_running`; a held part takes neither edge further. -/
theorem warningQuiesces : Obligations.WarningQuiesces := by
  refine fun s => ⟨fun o hr hq hquiesced ho hphase hp => ?_, fun hsupply hheld => ?_⟩
  · refine (exec_pfwAssertion hr hquiesced).trans (congrArg Host.Outcome.next ?_)
    rw [enterQuiesce_running (s := s.setPfw { pinLow := true, asserted := true }) ho hphase hp, settleFree_busy]
    · rfl
    · simpa using hq
    · exact ho ▸ Option.some_ne_none o
  · have hrun := running_of_held hheld
    rw [← pfwEdge_supplied true hsupply, ← pfwEdge_supplied false hsupply]
    exact ⟨congrArg Host.Outcome.next (if_neg (by simp [hrun])), congrArg Host.Outcome.next (if_neg (by simp [hrun]))⟩

/-- Settles O19: `enterQuiesce_erasing`, after which the erase is withheld. -/
theorem warningAbandonsErase : Obligations.WarningAbandonsErase := by
  intro s n e k sc hr hq hquiesced ho hp he hrec hscan hb hw hn hlen
  have hexec := exec_pfwAssertion hr hquiesced
  rw [enterQuiesce_erasing (s := s.setPfw { pinLow := true, asserted := true }) ho hp hb, settleFree_ungranted] at hexec
  · refine ⟨_, hexec, State.setCtl_ctl _ _, fun m => recAt_modRec _ n m _ (hlen ▸ hn), ?_, fun c hc => ?_, ?_⟩
    · simp [modRec]
    · simpa [modRec] using s.array.disturbSector_cellAt n s.free c hw hc
    · simp [modRec]
  · simpa [modRec] using hq
  · intro who
    cases who <;> simp [grantable, Controller.waiting, he, hscan, isRead]
  · exact hp

/-- Settles O20: a port in use stays as it is; the lone erase of the Reclaimer is granted with its mark. -/
theorem warningEnds : Obligations.WarningEnds := by
  refine fun s hr hq hquiesced => ⟨fun ho => ?_, fun n e k hc => ?_⟩
  · refine (exec_pfwDeassertion hr hquiesced).trans (congrArg Host.Outcome.next ?_)
    exact settleFree_busy (by simpa using hq) ho
  · refine (exec_pfwDeassertion hr hquiesced).trans (congrArg Host.Outcome.next ?_)
    rw [hc, settleFree_reclaimer (.erase n e k)]
    · rfl
    · simpa using hq
    · simpa [grantReclaimer, grant, grantEffect] using hq
    all_goals rfl

/-- Settles O21: `freePoint_programs`, by the two clauses of R20. -/
theorem arbiterChoosesByCount : Obligations.ArbiterChoosesByCount := by
  intro s p q hr hq hc hpass
  have hfree := freePoint_programs (s := (s.setPfw { pinLow := false, asserted := false }).setCtl
    { s.ctl with quiesced := false }) (p := p) (q := q) (k := s.ctl.pass) (congrArg ({ · with quiesced := false }) hc)
  have hcount : ((s.setPfw { pinLow := false, asserted := false }).setCtl
    { s.ctl with quiesced := false }).erasedCount = s.erasedCount := rfl
  rw [hcount, State.setCtl_setCtl, State.setCtl_setCtl] at hfree
  have hexec := exec_pfwDeassertion hr (congrArg Controller.quiesced hc)
  have hq' (c : Controller) : quiet ((s.setPfw { pinLow := false, asserted := false }).setCtl c) := by simpa using hq
  refine ⟨fun h => hexec.trans (congrArg Host.Outcome.next ?_), fun h1 h2 => hexec.trans (congrArg Host.Outcome.next ?_)⟩
  · rw [if_pos (h.imp_right ge_of_eq)] at hfree
    exact settleFree_of_freePoint (hq' _) hfree (hq' _)
  · rw [if_neg (not_or.mpr ⟨not_lt.mpr h1, not_le.mpr h2⟩)] at hfree
    exact settleFree_of_freePoint (hq' _) hfree (hq' _)

end

section
/-! Frames and the registers that are written (R82, R85, R111, R125, R160, R161, R194, R209 to R214, R218, R222, R223). -/

namespace Sys2Proof.Machine

variable {s : State}

/-! ### A byte of a write frame (R210, R213) -/

/-- R210: a byte written where the write leaves the port as it stands. -/
theorem dataWrite_of_port {here : Bool → RegAddr → Bool} {v : Byte} {bank : Bool} {a : RegAddr} {t : State}
    (hw : writing bank a s) (hh : here bank a = true) (ht : writeRegister bank a v s = t) (hp : t.port = s.port) :
    dataWrite here v s = t.afterWrite bank (nextAddress bank a) := by
  subst ht
  exact dataWrite_at hw hh ((congrArg Port.frame hp).trans hw)

/-- R213: a byte of a plain register. -/
theorem exec_registerWrite {v : Byte} {bank : Bool} {a : RegAddr} {t : State} (hw : writing bank a s)
    (ht : writeRegister bank a v s = t) (hp : t.port = s.port) :
    exec (.registerWrite v) s = .next (t.afterWrite bank (nextAddress bank a)) :=
  congrArg Host.Outcome.next (dataWrite_of_port hw rfl ht hp)

/-- R215, R216: every port address is one the host writes. -/
theorem isPortAddress_of_not_hostWrites :
    ∀ (bank : Bool) (a : RegAddr), hostWrites bank a = false → isPortAddress bank a = false := by decide

/-- R213: a byte where the host may not write, or where no register is. -/
theorem writeRegister_ignored {v : Byte} {bank : Bool} {a : RegAddr} (h : hostWrites bank a = false) :
    writeRegister bank a v s = s := by
  cases bank with
  | false =>
    show writeBank0 a v s = s
    unfold writeBank0
    split
    case h_17 => rfl
    all_goals simp_all [hostWrites]
  | true =>
    show writeBank1 a v s = s
    unfold writeBank1
    split
    case h_6 => rfl
    all_goals simp_all [hostWrites]

/-! ### The fields of two bytes (R111, R160) -/

theorem toNat_setLow (h : Half) (v : Byte) : (setLow h v).toNat = h.toNat / 256 * 256 + v.toNat := by
  rw [setLow, BitVec.toNat_ofNat]
  omega

theorem toNat_setHigh (h : Half) (v : Byte) : (setHigh h v).toNat = v.toNat * 256 + h.toNat % 256 := by
  rw [setHigh, BitVec.toNat_ofNat]
  omega

theorem toNat_writePtrLow (g : Staging) (v : Byte) :
    (g.writePtrLow v).offset.toNat = g.offset.toNat / 256 * 256 + v.toNat := by
  rw [Staging.writePtrLow, BitVec.toNat_ofNat]
  omega

theorem toNat_writePtrHigh (g : Staging) (v : Byte) :
    (g.writePtrHigh v).offset.toNat = v.toNat % 4 * 256 + g.offset.toNat % 256 := by
  rw [Staging.writePtrHigh, BitVec.toNat_ofNat]
  omega

/-! ### Settings whose change is an evaluation point (R85, R86, R218) -/

/-- R86: an event that changes the settings, where no reclamation starts and nothing else follows. -/
theorem settle_evaluate_settings {x : Settings} (hq : quiet s) (hp : portSettled s)
    (hb : x.background = false ∨ s.reclaimer.state ≠ .idle) :
    settle (evaluate (s.setSettings x)) = s.setSettings x := by
  rw [evaluate_idle hb, settle_quiet ((quiet_setSettings s x).mpr hq) (portSettled_congr rfl hp)]

/-- R218: CONFIG stores its two settings where no reclamation starts. -/
theorem writeConfig_stored {v : Byte} (hq : quiet s) (hp : portSettled s)
    (hb : v.getLsbD 0 = false ∨ s.reclaimer.state ≠ .idle) :
    writeConfig v s = s.setSettings { s.settings with background := v.getLsbD 0, suspend := v.getLsbD 1 } := by
  unfold writeConfig
  dsimp only
  split
  · rename_i hsame
    exact congrArg s.setSettings hsame.symm
  · exact settle_evaluate_settings hq hp hb

/-- R85: RECLAIM_LOW is stored where no reclamation starts. -/
theorem storeReclaimLow_stored (n : Nat) (hq : quiet s) (hp : portSettled s)
    (hb : s.settings.background = false ∨ s.reclaimer.state ≠ .idle) :
    storeReclaimLow n s = s.setSettings { s.settings with reclaimLow := clampLow n } := by
  unfold storeReclaimLow
  split
  · rename_i hsame
    rw [hsame]
    rfl
  · exact settle_evaluate_settings hq hp hb

theorem clampLow_eq (n : Nat) : clampLow n = if n < 32 then 32 else if 1024 < n then 1024 else n := by
  unfold clampLow
  split_ifs <;> omega

/-! ### Bytes that are not decoded (R168, R214) -/

/-- R214: every data byte of a frame that is not decoded, and its control byte, shifts out FFh. -/
theorem exec_undecoded {i : Instr} {v : Byte} (hf : s.port.frame = .undecoded)
    (hi : isDataByte i = true ∨ i = .controlByte v) : exec i s = .next (s.setPort { s.port with out := 0xFF }) := by
  rcases hi with hi | rfl
  · cases i
    case powerOn | powerOnHoldEnd | pinReset | resetRelease | pfwAssertion | pfwDeassertion | controlByte | frameEnd |
      fragmentReadComplete | headerReadComplete | cellProgramComplete | stateAdvanceComplete | erasePhaseEnd |
      sectorEraseComplete | frameBegin | supplyLoss => cases hi
    case bufDataRead =>
      refine congrArg Host.Outcome.next ?_
      unfold dataRead
      rw [hf]
      rfl
    all_goals exact congrArg Host.Outcome.next (dataWrite_undecoded hf)
  · refine congrArg Host.Outcome.next ?_
    unfold takeControl
    rw [hf]
    rfl

end Sys2Proof.Machine

open Sys2Proof Sys2Proof.Machine

/-- Settles O22. -/
theorem frameOpens : Obligations.FrameOpens := by
  refine fun v s => ⟨fun hf hr => congrArg Host.Outcome.next ?_, fun hf => congrArg Host.Outcome.next ?_⟩
  · simp only [beginFrame, hf, hr, if_true]
    rfl
  · have haddr : v.setWidth 6 = v.extractLsb' 0 6 := BitVec.setWidth_eq_extractLsb' (by decide)
    simp only [takeControl, hf, haddr]
    rfl

/-- Settles O23. -/
theorem frameCloses : Obligations.FrameCloses := by
  intro s hf hl hh hs
  refine congrArg Host.Outcome.next ((endFrame_uncollected hf hl hh).trans (if_neg ?_))
  simp [hs]

/-- Settles O24: `exec_undecoded`, and a frame that begins where the part does not run. -/
theorem undecodedFrameInert : Obligations.UndecodedFrameInert := by
  refine fun i v s => ⟨fun hf hr => congrArg Host.Outcome.next ?_, exec_undecoded⟩
  simp only [beginFrame, hf, hr]
  rfl

/-- Settles O25. -/
theorem commandFieldsStored : Obligations.CommandFieldsStored := fun v s =>
  ⟨fun hw => exec_registerWrite hw rfl rfl,
   fun hw => ⟨setLow s.cmds.key v, toNat_setLow _ _, exec_registerWrite hw rfl rfl⟩,
   fun hw => ⟨setHigh s.cmds.key v, toNat_setHigh _ _, exec_registerWrite hw rfl rfl⟩,
   fun hw => ⟨setLow s.cmds.len v, toNat_setLow _ _, exec_registerWrite hw rfl rfl⟩,
   fun hw => ⟨setHigh s.cmds.len v, toNat_setHigh _ _, exec_registerWrite hw rfl rfl⟩,
   fun hw => exec_registerWrite hw rfl rfl⟩

/-- Settles O26. -/
theorem pointerAndSelectStored : Obligations.PointerAndSelectStored := by
  refine fun v s => ⟨fun hw => ⟨_, toNat_writePtrLow s.staging v, exec_registerWrite hw rfl rfl⟩,
    fun hw => ⟨_, toNat_writePtrHigh s.staging v, exec_registerWrite hw rfl rfl⟩, fun hw => ?_⟩
  have hsel : min v.toNat 31 = if 32 ≤ v.toNat then 31 else v.toNat := by split <;> omega
  rw [← hsel]
  exact exec_registerWrite hw rfl rfl

/-- Settles O27. -/
theorem readOnlyWritesIgnored : Obligations.ReadOnlyWritesIgnored := by
  intro v bank a s hw hno
  have hnext : nextAddress bank a = a + 1 := by simp [nextAddress, isPortAddress_of_not_hostWrites bank a hno]
  rw [← hnext]
  exact exec_registerWrite hw (writeRegister_ignored hno) rfl

/-- Settles O28. -/
theorem stickyFlagsCleared : Obligations.StickyFlagsCleared := by
  intro v s hw
  have hflag (x b : Bool) : (x && !b) = if b then false else x := by cases b <;> simp
  rw [← hflag, ← hflag, ← hflag]
  exact congrArg Host.Outcome.next (dataWrite_of_port hw rfl rfl rfl)

/-- Settles O29. -/
theorem maskStored : Obligations.MaskStored := by
  intro v s hw
  refine ⟨v &&& 0x3F, fun i hi => ?_, ?_, ?_, congrArg Host.Outcome.next (dataWrite_of_port hw rfl rfl rfl)⟩
  · have hbit : (0x3F : Byte).getLsbD i = true := by interval_cases i <;> rfl
    rw [BitVec.getLsbD_and, hbit, Bool.and_true]
  · simp
  · simp

/-- Settles O32. -/
theorem configStored : Obligations.ConfigStored := fun _ _ hw hq hp hb =>
  congrArg Host.Outcome.next (dataWrite_of_port hw rfl (writeConfig_stored hq hp hb) rfl)

/-- Settles O34: the end of the frame stores the value formed, clamped as `clampLow_eq` says. -/
theorem reclaimLowStored : Obligations.ReclaimLowStored := by
  refine fun v s => ⟨fun hw => congrArg Host.Outcome.next (dataWrite_at hw rfl hw),
    fun hw => congrArg Host.Outcome.next (dataWrite_at hw rfl hw), fun rd bank a n hf hsome hn hs hq hp hb => ?_⟩
  have hcollected : storeCollected s = s.setSettings { s.settings with reclaimLow := clampLow n } := by
    rw [hn]
    exact (if_neg (not_and_or.mpr hsome)).trans (storeReclaimLow_stored _ hq hp hb)
  refine congrArg Host.Outcome.next ?_
  unfold endFrame
  rw [hf, ← clampLow_eq]
  simp only [hcollected]
  exact if_neg (by simp [closePort, modPort, hs])

/-- Settles O35. -/
theorem conflictFlagCleared : Obligations.ConflictFlagCleared := by
  intro v s hw
  have hflag : (s.staging.conflict && !v.getLsbD 0) = if v.getLsbD 0 then false else s.staging.conflict := by
    cases v.getLsbD 0 <;> simp
  rw [← hflag]
  exact congrArg Host.Outcome.next (dataWrite_of_port hw rfl rfl rfl)

/-- Settles O51: in HOLDING the pop leaves the engine IDLE with nothing to take. -/
theorem popAnswers : Obligations.PopAnswers := by
  refine fun v s hw => ⟨fun hc => ?_, fun e rest hc hh => ?_, fun e rest h hc hh hq hp => ?_⟩
  · exact congrArg Host.Outcome.next (dataWrite_of_port hw rfl (by simp [writeRegister, writeBank0, popCompletion, hc]) rfl)
  · exact congrArg Host.Outcome.next
      (dataWrite_of_port hw rfl (by simp [writeRegister, writeBank0, popCompletion, hc, hh]) rfl)
  · have hpop : popCompletion s = ((s.setComps (rest ++ [h.entry])).setStaging (s.staging.handedBack h.buf)).setEngine
        { s.engine with state := .idle, held := none } := by
      simp only [popCompletion, hc, hh, setOwner_host, modEngine]
      exact settle_quiet (.inl hq) (portSettled_congr rfl hp)
    exact congrArg Host.Outcome.next (dataWrite_of_port hw rfl hpop rfl)

/-- Settles O52. -/
theorem reportPopped : Obligations.ReportPopped := by
  refine fun v s hw => ⟨fun hr => ?_, fun r rest hr => ?_⟩
  · have hpop : popReport s = s := by
      unfold popReport
      rw [hr, List.tail_nil, ← hr]
      rfl
    exact congrArg Host.Outcome.next (dataWrite_of_port hw rfl hpop rfl)
  · have hpop : popReport s = s.setScanner { s.scanner with ring := rest } := by rw [popReport, hr, List.tail_cons]
    exact congrArg Host.Outcome.next (dataWrite_of_port hw rfl hpop rfl)

end

section
/-! What the part shows: STATUS and IRQ_FLAGS bit by bit, and the bytes a read frame shifts out (R82, R124, R194, R212,
R217, R219 to R221, R223). -/

namespace Sys2Proof.Machine

variable {s : State}

/-! ### Bytes from bits (R217, R219) -/

/-- The number whose binary digits, the least significant first, are a list of bits. -/
def numOfBits : List Bool → Nat
  | [] => 0
  | b :: rest => b.toNat + 2 * numOfBits rest

theorem testBit_numOfBits (l : List Bool) (i : Nat) : (numOfBits l).testBit i = l.getD i false := by
  induction l generalizing i with
  | nil => simp [numOfBits]
  | cons b rest ih =>
    cases i with
    | zero => cases b <;> simp [numOfBits, Nat.testBit_zero, Nat.add_mod]
    | succ i =>
      have hhalf : numOfBits (b :: rest) / 2 = numOfBits rest := by
        have := Bool.toNat_le b
        simp only [numOfBits]
        omega
      rw [Nat.testBit_succ, hhalf, ih, List.getD_cons_succ]

/-- The sum `byteOfBits` takes, from a first place on. -/
theorem sum_bitAt (l : List Bool) (k : Nat) :
    ((l.zipIdx k).map fun p => bitAt p.1 p.2).sum = 2 ^ k * numOfBits l := by
  induction l generalizing k with
  | nil => rfl
  | cons b rest ih =>
    rw [List.zipIdx_cons, List.map_cons, List.sum_cons, ih, numOfBits, Nat.mul_add, ← Nat.mul_assoc, ← Nat.pow_succ]
    cases b <;> simp [bitAt]

/-- R219: bit `i` of a byte is the bit at place `i`, and 0 past the last. -/
theorem getLsbD_byteOfBits (l : List Bool) (i : Nat) (hi : i < 8) : (byteOfBits l).getLsbD i = l.getD i false := by
  rw [byteOfBits, BitVec.getLsbD_ofNat, sum_bitAt, Nat.pow_zero, Nat.one_mul, testBit_numOfBits]
  simp [hi]

/-! ### Two bytes with a bit in common (R223) -/

/-- R223: bytes with bits 0 to 5 alone have a common bit exactly where their conjunction is not 0. -/
theorem and_ne_zero_iff {x m : Byte} (h6 : x.getLsbD 6 = false) (h7 : x.getLsbD 7 = false) :
    x &&& m ≠ 0 ↔ ∃ i < 6, x.getLsbD i = true ∧ m.getLsbD i = true := by
  constructor
  · intro hne
    by_contra hno
    refine hne (BitVec.eq_of_getLsbD_eq fun i hi => ?_)
    rw [BitVec.getLsbD_and]
    by_cases hlow : i < 6
    · have hboth : ¬(x.getLsbD i = true ∧ m.getLsbD i = true) := fun hb => hno ⟨i, hlow, hb⟩
      simpa using hboth
    · have hhigh : i = 6 ∨ i = 7 := by omega
      rcases hhigh with rfl | rfl
      · rw [h6]; rfl
      · rw [h7]; rfl
  · rintro ⟨i, -, hx, hm⟩ h0
    have hbit : (x &&& m).getLsbD i = true := by rw [BitVec.getLsbD_and, hx, hm]; rfl
    rw [h0] at hbit
    simp at hbit

/-! ### Reads (R210, R212) -/

/-- R212: a read of a register leaves the frame as it is. -/
theorem readPlain_frame (bank : Bool) (a : RegAddr) (s : State) : (readPlain bank a s).2.frame = s.port.frame := by
  unfold readPlain
  split
  · rfl
  · split
    · rfl
    · split <;> rfl

/-- R210: the byte of a read frame at a register other than BUF_DATA. -/
theorem exec_read {bank : Bool} {a : RegAddr} (h : reading bank a s) (hne : ¬(bank = false ∧ a = 0x1E)) :
    exec .bufDataRead s = .next (s.setPort { (readPlain bank a s).2 with
      frame := .data true bank (nextAddress bank a), out := (readPlain bank a s).1 }) := by
  have hreg : readRegister bank a s = ((readPlain bank a s).1, s.setPort (readPlain bank a s).2) :=
    if_neg (by simpa using hne)
  have hframe : reading bank a (readRegister bank a s).2 := by
    rw [hreg]
    exact (readPlain_frame bank a s).trans h
  refine congrArg Host.Outcome.next ((dataRead_at h hframe).trans ?_)
  rw [hreg]
  rfl

/-- R212: a group the frame has taken gives its bytes as they were. -/
theorem readPlain_taken {bank : Bool} {a : RegAddr} {first : Nat} {bytes old : List Byte}
    (hg : registerAt bank a s = some (first, bytes)) (hl : 1 < bytes.length) (ht : takenAt bank first s.port = some old) :
    readPlain bank a s = (old.getD (a.toNat - first) 0, s.port) := by
  simp only [readPlain, hg, ht, if_neg (Nat.not_le_of_lt hl)]

/-- R212: a group the frame has not taken is taken whole. -/
theorem readPlain_untaken {bank : Bool} {a : RegAddr} {first : Nat} {bytes : List Byte}
    (hg : registerAt bank a s = some (first, bytes)) (hl : 1 < bytes.length) (ht : takenAt bank first s.port = none) :
    readPlain bank a s = (bytes.getD (a.toNat - first) 0,
      { s.port with taken := s.port.taken ++ [((bank, BitVec.ofNat 6 first), bytes)] }) := by
  simp only [readPlain, hg, ht, if_neg (Nat.not_le_of_lt hl)]

/-- R212: the first byte a frame reads is a byte of its group as the group stands. -/
theorem exec_read_group {bank : Bool} {a : RegAddr} {first : Nat} {bytes : List Byte} (h : reading bank a s)
    (hne : ¬(bank = false ∧ a = 0x1E)) (hg : registerAt bank a s = some (first, bytes)) (hl : 1 < bytes.length)
    (ht : s.port.taken = []) :
    ∃ p : Port, exec .bufDataRead s = .next (s.setPort p) ∧ p.out = bytes.getD (a.toNat - first) 0 :=
  ⟨_, exec_read h hne, congrArg Prod.fst (readPlain_untaken hg hl (by simp [takenAt, ht]))⟩

/-! ### The views (R82, R124, R194) -/

/-- The register of an address, after registers that end at or before it. -/
theorem groupAt_append_cons {a : Nat} {before after : List (Nat × List Byte)} {g : Nat × List Byte}
    (hb : ∀ x ∈ before, x.1 + x.2.length ≤ g.1) (h1 : g.1 ≤ a) (h2 : a < g.1 + g.2.length) :
    groupAt a (before ++ g :: after) = some g := by
  have hnone : before.find? (fun x => decide (x.1 ≤ a ∧ a < x.1 + x.2.length)) = none :=
    List.find?_eq_none.mpr fun x hx => by
      have := hb x hx
      simp only [decide_eq_true_eq]
      omega
  rw [groupAt, List.find?_append, hnone, Option.none_or]
  exact List.find?_cons_of_pos (decide_eq_true ⟨h1, h2⟩)

theorem completionView_length (l : List Completion) : (completionView l).length = 12 := by cases l <;> rfl

theorem reportView_length (l : List Report) : (reportView l).length = 9 := by cases l <;> rfl

theorem sectorView_length (r : SectorRec) : (sectorView r).length = 9 := rfl

/-- R215: COMP_TAG to COMP_FRAGS. -/
theorem registerAt_completionView {a : RegAddr} (h1 : 0x0F ≤ a.toNat) (h2 : a.toNat < 0x1B) :
    registerAt false a s = some (0x0F, completionView s.comps) := by
  have hsplit : bank0 s = (bank0 s).take 13 ++ (0x0F, completionView s.comps) :: (bank0 s).drop 14 := rfl
  show groupAt a.toNat (bank0 s) = _
  rw [hsplit]
  exact groupAt_append_cons (by simp [bank0, leBytes]) h1 (by rw [completionView_length]; exact h2)

/-- R216: REP_KIND to REP_SEQ. -/
theorem registerAt_reportView {a : RegAddr} (h1 : 0x1B ≤ a.toNat) (h2 : a.toNat < 0x24) :
    registerAt true a s = some (0x1B, reportView s.scanner.ring) := by
  have hsplit : bank1 s = (bank1 s).take 17 ++ (0x1B, reportView s.scanner.ring) :: (bank1 s).drop 18 := rfl
  show groupAt a.toNat (bank1 s) = _
  rw [hsplit]
  exact groupAt_append_cons (by simp [bank1, leBytes]) h1 (by rw [reportView_length]; exact h2)

/-- R216: SEC_STATE to SEC_FLAGS. -/
theorem registerAt_sectorView {a : RegAddr} (h1 : 0x26 ≤ a.toNat) (h2 : a.toNat < 0x2F) :
    registerAt true a s = some (0x26, sectorView (s.recAt s.table.sel)) := by
  have hsplit : bank1 s = (bank1 s).take 20 ++ (0x26, sectorView (s.recAt s.table.sel)) :: (bank1 s).drop 21 := rfl
  show groupAt a.toNat (bank1 s) = _
  rw [hsplit]
  exact groupAt_append_cons (by simp [bank1, leBytes, reportView_length]) h1 h2

/-- The little-endian bytes of a number, byte by byte. -/
theorem leBytes_eq (w n : Nat) : leBytes w n = (List.range w).map (byteOf n) := by
  induction w generalizing n with
  | zero => rfl
  | succ w ih =>
    have hshift (k : Nat) : byteOf (n / 256) k = byteOf n (k + 1) := by
      rw [byteOf, byteOf, Nat.div_div_eq_div_mul, Nat.pow_succ']
    have hfirst : byteOf n 0 = BitVec.ofNat 8 n := by rw [byteOf, Nat.pow_zero, Nat.div_one]
    rw [leBytes, ih, List.range_succ_eq_map, List.map_cons, List.map_map, hfirst]
    exact congrArg _ (List.map_congr_left fun k _ => hshift k)

theorem kindTable_code {k : Kind} {c : Byte} (h : (k, c) ∈ kindTable) : kindCode k = c := by
  cases k <;> simp_all [kindTable, kindCode]

theorem statusTable_code {x : Status} {c : Byte} (h : (x, c) ∈ statusTable) : statusCode x = c := by
  cases x <;> simp_all [statusTable, statusCode]

theorem reportTable_code {k : ReportKind} {c : Byte} (h : (k, c) ∈ reportTable) : reportCode k = c := by
  cases k <;> simp_all [reportTable, reportCode]

theorem recStateTable_code {x : RecState} {c : Byte} (h : (x, c) ∈ recStateTable) : recStateCode x = c := by
  cases x <;> simp_all [recStateTable, recStateCode]

theorem flagsTable_code {r : SectorRec} {c : Byte} (h : ((r.pinned, r.role), c) ∈ flagsTable) : secFlags r = c := by
  unfold secFlags
  generalize r.pinned = p at h ⊢
  generalize r.role = q at h ⊢
  cases p <;> cases q <;> simp_all [flagsTable, roleCode, bitAt]

/-- R124: the head of the Completion Queue, byte by byte. -/
theorem completionView_cons (e : Completion) (rest : List Completion) : completionView (e :: rest) =
    [e.tag, kindCode e.kind, statusCode e.status, byteOf e.key 0, byteOf e.key 1, byteOf e.len 0, byteOf e.len 1,
      byteOf (e.seq.getD 0) 0, byteOf (e.seq.getD 0) 1, byteOf (e.seq.getD 0) 2, byteOf (e.seq.getD 0) 3,
      byteOf e.frags 0] := by
  simp only [completionView, leBytes_eq]
  rfl

/-- R194: the oldest report, byte by byte. -/
theorem reportView_cons (r : Report) (rest : List Report) : reportView (r :: rest) =
    [reportCode r.kind, byteOf r.num 0, byteOf r.num 1, byteOf (r.key.getD 0) 0, byteOf (r.key.getD 0) 1,
      byteOf (r.seq.getD 0) 0, byteOf (r.seq.getD 0) 1, byteOf (r.seq.getD 0) 2, byteOf (r.seq.getD 0) 3] := by
  simp only [reportView, leBytes_eq]
  rfl

/-- R82: the record of a sector, byte by byte. -/
theorem sectorView_eq (r : SectorRec) : sectorView r =
    [recStateCode r.state, byteOf r.erases 0, byteOf r.erases 1, byteOf r.erases 2, byteOf r.blank 0, byteOf r.live 0,
      byteOf r.dead 0, byteOf r.faultyCount 0, secFlags r] := by
  simp only [sectorView, leBytes_eq]
  rfl

/-- The address of a byte of a view. -/
theorem toNat_viewAddress {first k : Nat} (h : first + k < 64) : (BitVec.ofNat 6 (first + k)).toNat = first + k := by
  rw [BitVec.toNat_ofNat]
  exact Nat.mod_eq_of_lt h

end Sys2Proof.Machine

open Sys2Proof Sys2Proof.Machine

/-- Settles O30. -/
theorem flagsDriveIrq : Obligations.FlagsDriveIrq := by
  intro s
  have hbit (i : Nat) (hi : i < 8) : (irqFlags s).getLsbD i =
      [compFlag s, reportFlag s, pfwFlag s, s.irq.ready, s.irq.fault, s.irq.space].getD i false :=
    getLsbD_byteOfBits _ i hi
  have h6 : (irqFlags s).getLsbD 6 = false := hbit 6 (by decide)
  have h7 : (irqFlags s).getLsbD 7 = false := hbit 7 (by decide)
  refine ⟨?_, ?_, hbit 2 (by decide), hbit 3 (by decide), hbit 4 (by decide), hbit 5 (by decide), h6, h7, ?_⟩
  · rw [hbit 0 (by decide)]
    simp [compFlag]
  · rw [hbit 1 (by decide)]
    simp [reportFlag]
  · rw [irqDriven, Bool.and_eq_true, decide_eq_true_eq, and_ne_zero_iff h6 h7]

/-- Settles O31. -/
theorem statusBits : Obligations.StatusBits := by
  intro s
  have hbit (i : Nat) (hi : i < 8) : (statusByte s).getLsbD i = [s.deviceStarting, s.deviceReady, engineBusy s,
      reclaimActive s, reclaimHalted s, s.ctl.quiesced, s.pfw.asserted].getD i false := getLsbD_byteOfBits _ i hi
  refine ⟨?_, ?_, ?_, ?_, ?_, hbit 5 (by decide), hbit 6 (by decide), hbit 7 (by decide)⟩
  · rw [hbit 0 (by decide)]
    simp [State.deviceStarting]
  · rw [hbit 1 (by decide)]
    simp [State.deviceReady]
  · rw [hbit 2 (by decide)]
    cases h : s.engine.state <;> simp [engineBusy, h]
  · rw [hbit 3 (by decide)]
    cases h : s.reclaimer.state <;> simp [reclaimActive, h]
  · rw [hbit 4 (by decide)]
    simp [reclaimHalted]

/-- Settles O38. -/
theorem readsTakeGroupsWhole : Obligations.ReadsTakeGroupsWhole := by
  intro bank a s h hne
  refine ⟨_, exec_read h hne, ?_, fun first bytes hg hl => ⟨fun old ht => ?_, fun ht => ?_⟩⟩
  · have hport : isPortAddress bank a = true ↔
        bank = true ∧ a = 0x24 ∨ bank = false ∧ (a = 0x0A ∨ a = 0x0C ∨ a = 0x1B) := by
      cases bank <;> simp_all [isPortAddress]
    exact congrArg (Frame.data true bank) (if_congr hport rfl rfl)
  · rw [readPlain_taken hg hl ht]
    exact ⟨rfl, rfl⟩
  · rw [readPlain_untaken hg hl ht]
    exact ⟨rfl, rfl⟩

/-- Settles O39: each view is one group, and its bytes are those of `completionView_cons`, `reportView_cons` and
`sectorView_eq`. -/
theorem viewsShowHeads : Obligations.ViewsShowHeads := by
  intro s k ht
  refine ⟨fun hk h => ?_, fun hk h => ?_, fun hk h => ?_⟩
  · have ha := toNat_viewAddress (first := 0x0F) (k := k) (by omega)
    have hdata : (0x1E : RegAddr).toNat = 30 := rfl
    obtain ⟨p, hp, hout⟩ := exec_read_group h
      (fun hb => absurd (congrArg BitVec.toNat hb.2) (by rw [ha, hdata]; omega))
      (registerAt_completionView (by omega) (by omega)) (by rw [completionView_length]; decide) ht
    rw [ha, Nat.add_sub_cancel_left] at hout
    refine ⟨_, hp, rfl, fun hc => ?_, fun e rest kc sc hc hkind hstatus => ?_⟩
    · rw [State.setPort_port, hout, hc]
      interval_cases k <;> rfl
    · rw [State.setPort_port, hout, hc, completionView_cons, kindTable_code hkind, statusTable_code hstatus]
  · have ha := toNat_viewAddress (first := 0x1B) (k := k) (by omega)
    obtain ⟨p, hp, hout⟩ := exec_read_group h (fun hb => Bool.noConfusion hb.1)
      (registerAt_reportView (by omega) (by omega)) (by rw [reportView_length]; decide) ht
    rw [ha, Nat.add_sub_cancel_left] at hout
    refine ⟨_, hp, rfl, fun hc => ?_, fun r rest rc hc hkind => ?_⟩
    · rw [State.setPort_port, hout, hc]
      interval_cases k <;> rfl
    · rw [State.setPort_port, hout, hc, reportView_cons, reportTable_code hkind]
  · have ha := toNat_viewAddress (first := 0x26) (k := k) (by omega)
    obtain ⟨p, hp, hout⟩ := exec_read_group h (fun hb => Bool.noConfusion hb.1)
      (registerAt_sectorView (by omega) (by omega)) (by rw [sectorView_length]; decide) ht
    rw [ha, Nat.add_sub_cancel_left] at hout
    refine ⟨_, hp, rfl, fun r sc fc hr hstate hflags => ?_⟩
    subst hr
    rw [State.setPort_port, hout, sectorView_eq, recStateTable_code hstate, flagsTable_code hflags]

end

section
/-! Commands that are queued, or taken in their submission event and answered by the index or by an array request
(R53, R56, R80, R113, R116, R119, R139, R143 to R145). -/

namespace Sys2Proof.Machine

variable {s : State}

/-! ### The byte that is written moves the port alone (R210) -/

section AfterWrite

variable (s : State) (bank : Bool) (a : RegAddr)

@[simp] theorem State.afterWrite_power : (s.afterWrite bank a).power = s.power := rfl
@[simp] theorem State.afterWrite_array : (s.afterWrite bank a).array = s.array := rfl
@[simp] theorem State.afterWrite_ctl : (s.afterWrite bank a).ctl = s.ctl := rfl
@[simp] theorem State.afterWrite_table : (s.afterWrite bank a).table = s.table := rfl
@[simp] theorem State.afterWrite_index : (s.afterWrite bank a).index = s.index := rfl
@[simp] theorem State.afterWrite_engine : (s.afterWrite bank a).engine = s.engine := rfl
@[simp] theorem State.afterWrite_reclaimer : (s.afterWrite bank a).reclaimer = s.reclaimer := rfl
@[simp] theorem State.afterWrite_cmds : (s.afterWrite bank a).cmds = s.cmds := rfl
@[simp] theorem State.afterWrite_comps : (s.afterWrite bank a).comps = s.comps := rfl
@[simp] theorem State.afterWrite_staging : (s.afterWrite bank a).staging = s.staging := rfl
@[simp] theorem State.afterWrite_scanner : (s.afterWrite bank a).scanner = s.scanner := rfl
@[simp] theorem State.afterWrite_pfw : (s.afterWrite bank a).pfw = s.pfw := rfl
@[simp] theorem State.afterWrite_irq : (s.afterWrite bank a).irq = s.irq := rfl
@[simp] theorem State.afterWrite_settings : (s.afterWrite bank a).settings = s.settings := rfl
@[simp] theorem State.afterWrite_free : (s.afterWrite bank a).free = s.free := rfl

@[simp] theorem State.afterWrite_recAt (n : Nat) : (s.afterWrite bank a).recAt n = s.recAt n := rfl

end AfterWrite

/-! ### Requests that arrive at the port (R8, R19, R23) -/

/-- R19: a port with an operation on it is settled. -/
theorem portSettled_busy {o : Operation} (h : s.ctl.op = some o) : portSettled s := .inl (h ▸ Option.some_ne_none o)

/-- R19: the lone request of the engine is granted as it arrives. -/
theorem arrive_engine {op : ArrayOp} (h1 : s.ctl.op = none) (h2 : s.ctl.paused = none)
    (h3 : s.ctl.waitEngine = some op) (h4 : s.ctl.waitReclaimer = none) (h5 : s.ctl.waitScanner = none)
    (h6 : s.ctl.quiesced = false ∨ isRead op = true) : arrive s = grant .engine op s := by
  have hg : (s.ctl.quiesced && !isRead op) = false := by rcases h6 with h6 | h6 <;> simp [h6]
  simp [arrive, grantable, Controller.waiting, h1, h2, h3, h4, h5, hg]

/-- R19: the lone request of the Reclaimer is granted as it arrives. -/
theorem arrive_reclaimer {op : ArrayOp} (h1 : s.ctl.op = none) (h2 : s.ctl.paused = none)
    (h3 : s.ctl.waitReclaimer = some op) (h4 : s.ctl.waitEngine = none) (h5 : s.ctl.waitScanner = none)
    (h6 : s.ctl.quiesced = false) : arrive s = grantReclaimer op s := by
  simp [arrive, grantable, Controller.waiting, h1, h2, h3, h4, h5, h6]

/-- R23: a fragment read that arrives at an empty port is granted, in a warning too. -/
theorem arrive_read_free (cell : Nat) (h : portEmpty s) : arrive (placeEngineRead cell s) =
    s.setCtl { s.ctl with op := some { who := .engine, op := .read cell, phase := .single, suspendCount := 0 } } := by
  obtain ⟨hop, hpaused, hengine, hreclaimer, hscanner⟩ := h
  have hplace : placeEngineRead cell s = s.setCtl { s.ctl with waitEngine := some (.read cell) } := by
    unfold placeEngineRead
    rw [hop]
    rfl
  have hback : ({ s.ctl with waitEngine := none } : Controller) = s.ctl := by rw [← hengine]
  rw [hplace, arrive_engine (op := .read cell)]
  · show s.setCtl { ({ s.ctl with waitEngine := none } : Controller) with op := some (granted .engine (.read cell)) } = _
    rw [hback]
    rfl
  · exact hop
  · exact hpaused
  · rfl
  · exact hreclaimer
  · exact hscanner
  · exact .inr rfl

/-- R23: a fragment read that arrives in an erase phase that may be suspended. -/
theorem arrive_read_suspends (cell : Nat) {who : Requester} {op : ArrayOp} {sc : Nat}
    (h : s.ctl.op = some { who := who, op := op, phase := .erasePhase, suspendCount := sc })
    (hs : s.settings.suspend = true) (hc : sc < 8) : arrive (placeEngineRead cell s) =
    s.setCtl { s.ctl with
      op := some { who := .engine, op := .read cell, phase := .single, suspendCount := 0 }
      paused := some { who := who, op := op, phase := .erasePhase, suspendCount := sc + 1 } } := by
  have hsus : suspends s = true := by simp [suspends, h, hs, hc]
  unfold placeEngineRead
  rw [h]
  simp only
  rw [if_pos hsus]
  exact arrive_settled (.inl (Option.some_ne_none _))

/-- R23: a fragment read that arrives at a port in use that it may not suspend. -/
theorem arrive_read_waits (cell : Nat) {o : Operation} (h : s.ctl.op = some o)
    (hw : o.phase ≠ .erasePhase ∨ s.settings.suspend = false ∨ 8 ≤ o.suspendCount) : arrive (placeEngineRead cell s) =
    s.setCtl { s.ctl with waitEngine := some (.read cell) } := by
  have hsus : suspends s = false := by rcases hw with hw | hw | hw <;> simp [suspends, h, hw]
  have hplace : placeEngineRead cell s = placeWaiting .engine (.read cell) s := by simp [placeEngineRead, h, hsus]
  rw [hplace]
  exact arrive_settled (portSettled_busy h)

/-! ### A command that ends in its submission event (R116, R119) -/

/-- R121: the key of the command fields, for the kinds that hold one. -/
theorem keyNum_entryFor {k : Kind} (h : k ≠ .reclaim ∧ k ≠ .format) : (s.entryFor k).keyNum = s.cmds.key.toNat := by
  simp [State.entryFor, Command.keyNum, h]

/-- R51: the lookup of the key of the command fields, where the index holds it. -/
theorem lookup_entryFor {k : Kind} {e : IndexEntry} (h : k ≠ .reclaim ∧ k ≠ .format) (hasc : ascendingKeys s.index)
    (he : e ∈ s.index) (hkey : e.key = s.cmds.key.toNat) : lookup (s.entryFor k).keyNum s.index = some e := by
  rw [keyNum_entryFor h, ← hkey]
  exact lookup_mem s.index hasc e he

/-- R119: a submitted command that begins by ending is answered, whatever the engine held in between. -/
theorem exec_answered {i : Instr} {v : Byte} {k : Kind} (hi : submittedByte i = some v) (hk : kindCode k = v)
    (ha : acceptable v s) (hs : answersNow s) (hp : portSettled s) {x : EngineState} {y : Work} {st : Status}
    {key len n : Nat} {q : Option Nat} (hst : k ≠ .store ∨ st ≠ .noSpace)
    (hb : beginCommand (s.entryFor k) ((s.setCmds { s.cmds with submitResult := 0 }).setStaging (s.lentStaging k)) =
      finish st key len q n (((s.setCmds { s.cmds with submitResult := 0 }).setStaging (s.lentStaging k)).setEngine
        { s.engine with state := x, cmd := some (s.entryFor k), work := y })) :
    exec i s = .next
      (s.answered { tag := s.cmds.tag, kind := k, status := st, key := key, len := len, seq := q, frags := n }) := by
  rw [exec_submit hi hs.1, submit_taken hk ha hs.2.1, hb]
  exact congrArg Host.Outcome.next (arrive_finish hk ha hs hp x y st key len q n hst _ rfl)

/-- R121: the same of a command that ends with its key and nothing else. -/
theorem exec_answered_plain {i : Instr} {v : Byte} {k : Kind} (hi : submittedByte i = some v) (hk : kindCode k = v)
    (ha : acceptable v s) (hs : answersNow s) (hp : portSettled s) {st : Status} (hst : k ≠ .store ∨ st ≠ .noSpace)
    (hkey : k ≠ .reclaim ∧ k ≠ .format)
    (hb : beginCommand (s.entryFor k) ((s.setCmds { s.cmds with submitResult := 0 }).setStaging (s.lentStaging k)) =
      finishPlain st (s.begun k)) :
    exec i s = .next (s.answered { tag := s.cmds.tag, kind := k, status := st, key := s.cmds.key.toNat, len := 0,
                                   seq := none, frags := 0 }) := by
  rw [← keyNum_entryFor hkey]
  exact exec_answered hi hk ha hs hp hst hb

/-! ### FETCH and DROP with an entry of their key (R139, R143) -/

/-- R139, R80: a FETCH captures the entry, pins its sectors and asks for the read of its first cell. -/
theorem beginFetch_found {c : Command} {e : IndexEntry} (h : lookup c.keyNum s.index = some e) :
    beginFetch c s = placeEngineRead (e.map.headD 0) ((s.setTable (s.table.pinnedAt e.map)).setEngine { s.engine with
      work := .fetch { seq := e.seq, len := e.len, count := e.count, map := e.map, next := 0, readOnce := false,
                       delivered := 0 } }) := by
  simp only [beginFetch, h, pinCells_table, setWork, modEngine, State.setEngine_table]
  rfl

/-- R143, R80: a DROP pins the sectors of the entry and asks for the retirement of its head. -/
theorem beginDrop_found {c : Command} {e : IndexEntry} (h : lookup c.keyNum s.index = some e) :
    beginDrop c s = ((s.setTable (s.table.pinnedAt e.map)).setEngine { s.engine with
      work := .drop { head := e.map.headD 0, removed := none, toRetire := [] } }).setCtl
        { s.ctl with waitEngine := some (.advanceCell (e.map.headD 0) .retired) } := by
  simp only [beginDrop, h, pinCells_table, setWork, modEngine, State.setEngine_table, requestRetire, placeWaiting,
    Controller.setWaiting, State.setTable_ctl, State.setEngine_ctl]
  rfl

/-- R58: with no relocation in progress a removal answers none. -/
theorem answerRelocation_none (removed : List Nat) (h : s.reclaimer.reloc = none) : answerRelocation removed s = s := by
  simp only [answerRelocation, h]

/-- R42, R56: what the grant of a DROP's head retirement leaves, with no relocation and no background start. -/
theorem dropRemoval_found {c : Command} {d : DropWork} {e : IndexEntry} (hc : s.engine.cmd = some c)
    (hd : s.engine.work = .drop d) (hn : d.removed = none) (h : lookup c.keyNum s.index = some e)
    (hr : s.reclaimer.reloc = none) (hb : s.settings.background = false) :
    ∃ x, dropRemoval s = (((s.setIndex (removeKey c.keyNum s.index)).setTable x).setEngine
      { s.engine with work := .drop { d with removed := some e.map } }) := by
  obtain ⟨x, hx⟩ := modCells_table liveToDead e.map (s.setIndex (removeKey c.keyNum s.index))
  have hremove : dropRemoval s = answerRelocation e.map (evaluate (pinCells e.map
      (setWork (.drop { d with removed := some e.map }) (modCells liveToDead e.map
        (s.setIndex (removeKey c.keyNum s.index)))))) := by
    simp only [dropRemoval, hc, hd, hn, Option.isNone_none, if_true, h]
  rw [hremove, hx, pinCells_table, evaluate_idle, answerRelocation_none]
  · exact ⟨_, rfl⟩
  · exact hr
  · exact .inl hb

/-- R42, R56: a DROP's head retirement granted at a port whose other requests are none. -/
theorem grant_dropHead {c : Command} {d : DropWork} {e : IndexEntry} (head : Nat) (hc : s.engine.cmd = some c)
    (hd : s.engine.work = .drop d) (hn : d.removed = none) (h : lookup c.keyNum s.index = some e)
    (hr : s.reclaimer.reloc = none) (hb : s.settings.background = false) :
    ∃ x, grant .engine (.advanceCell head .retired) s = (((s.setCtl { s.ctl with
      waitEngine := none
      op := some { who := .engine, op := .advanceCell head .retired, phase := .single, suspendCount := 0 } }).setIndex
        (removeKey c.keyNum s.index)).setTable x).setEngine { s.engine with work := .drop { d with removed := some e.map } } :=
  dropRemoval_found (s := s.setCtl { s.ctl with
    waitEngine := none
    op := some { who := .engine, op := .advanceCell head .retired, phase := .single, suspendCount := 0 } })
    hc hd hn h hr hb

end Sys2Proof.Machine

open Sys2Proof Sys2Proof.Machine

/-- Settles O41: the engine is not IDLE, so the event ends as the submission leaves it. -/
theorem acceptedCommandQueued : Obligations.AcceptedCommandQueued := by
  intro i v k s hi hk hw ha he hp
  rw [exec_submit hi hw, submit_accepted hk ha, settle_quiet]
  · exact .inr (.inl he)
  · exact portSettled_congr rfl hp

/-- Settles O42. -/
theorem probeAnswers : Obligations.ProbeAnswers := by
  refine fun s hs hp ha hasc => ⟨fun e he hkey => ?_, fun habsent => ?_⟩
  · have hl := lookup_entryFor (k := .probe) (by decide) hasc he hkey
    refine exec_answered (k := .probe) rfl rfl ha hs hp (.inl (by decide)) (x := .running) (y := .none) ?_
    rw [hkey]
    show beginProbe (s.entryFor .probe) (s.begun .probe) = _
    simp only [beginProbe, State.setEngine_index, State.setStaging_index, State.setCmds_index, hl]
    rfl
  · have hl : lookup (s.entryFor .probe).keyNum s.index = none := lookup_absent s.index _ habsent
    refine exec_answered_plain (k := .probe) rfl rfl ha hs hp (.inl (by decide)) (by decide) ?_
    show beginProbe (s.entryFor .probe) (s.begun .probe) = _
    simp only [beginProbe, State.setEngine_index, State.setStaging_index, State.setCmds_index, hl]

/-- Settles O43. -/
theorem nextAnswers : Obligations.NextAnswers := by
  refine fun s hs hp ha hasc => ⟨fun e he hkey hleast => ?_, fun habsent => ?_⟩
  · have hl : successor (s.entryFor .next).keyNum s.index = some e := successor_least s.index hasc _ e he hkey hleast
    refine exec_answered (k := .next) rfl rfl ha hs hp (.inl (by decide)) (x := .running) (y := .none) ?_
    show beginNext (s.entryFor .next) (s.begun .next) = _
    simp only [beginNext, State.setEngine_index, State.setStaging_index, State.setCmds_index, hl]
  · have hl : successor (s.entryFor .next).keyNum s.index = none := successor_none s.index _ habsent
    refine exec_answered_plain (k := .next) rfl rfl ha hs hp (.inl (by decide)) (by decide) ?_
    show beginNext (s.entryFor .next) (s.begun .next) = _
    simp only [beginNext, State.setEngine_index, State.setStaging_index, State.setCmds_index, hl]

/-- Settles O44: `beginFetch_found` with the three ways its read arrives. -/
theorem fetchTaken : Obligations.FetchTaken := by
  intro s e hw hf ha hasc
  refine ⟨fun c t he hkey ht => ?_, fun habsent hs hp => ?_⟩
  · have hl := lookup_entryFor (k := .fetch) (by decide) hasc he hkey
    have hexec := exec_taken (i := .fetch) (k := .fetch) rfl rfl hw ha hf
    simp only [beginFetch_found (s := s.begun .fetch) hl] at hexec
    subst ht
    refine ⟨fun hp hc => ?_, fun n ep k sc ho hpaused hsus hcount hc => ?_, fun o ho hwait hc => ?_⟩ <;> subst hc <;>
      refine hexec.trans (congrArg (fun u : State => Host.Outcome.next (u.afterWrite false 0x0A)) ?_)
    · exact arrive_read_free _ hp
    · exact arrive_read_suspends _ ho hsus hcount
    · exact arrive_read_waits _ ho hwait
  · have hl : lookup (s.entryFor .fetch).keyNum s.index = none := lookup_absent s.index _ habsent
    refine exec_answered_plain (k := .fetch) rfl rfl ha hs hp (.inl (by decide)) (by decide) ?_
    show beginFetch (s.entryFor .fetch) (s.begun .fetch) = _
    simp only [beginFetch, State.setEngine_index, State.setStaging_index, State.setCmds_index, hl]

/-- Settles O45: `beginDrop_found`, whose request waits at a port in use, and `dropRemoval_found` at its grant. -/
theorem dropTaken : Obligations.DropTaken := by
  intro s e hw hf ha hasc
  have hexec := exec_taken (i := .drop) (k := .drop) rfl rfl hw ha hf
  refine ⟨fun o he hkey ho => ?_, fun he hkey hp hquiesced hreloc hback => ?_, fun habsent hs hp => ?_⟩
  · have hl := lookup_entryFor (k := .drop) (by decide) hasc he hkey
    simp only [beginDrop_found (s := s.begun .drop) hl] at hexec
    rw [arrive_settled] at hexec
    · exact hexec
    · exact portSettled_busy ho
  · have hl := lookup_entryFor (k := .drop) (by decide) hasc he hkey
    simp only [beginDrop_found (s := s.begun .drop) hl] at hexec
    obtain ⟨hop, hpaused, hengine, hreclaimer, hscanner⟩ := hp
    rw [arrive_engine (op := .advanceCell (e.map.headD 0) .retired)] at hexec
    · obtain ⟨x, hx⟩ := grant_dropHead (s := (((s.begun .drop).setTable (s.table.pinnedAt e.map)).setEngine
        { (s.begun .drop).engine with work := .drop { head := e.map.headD 0, removed := none, toRetire := [] } }).setCtl
          { s.ctl with waitEngine := some (.advanceCell (e.map.headD 0) .retired) })
        (e.map.headD 0) rfl rfl rfl (by simpa using hl) (by simpa using hreloc) (by simpa using hback)
      have hkeys (y : IndexEntry) : y ∈ removeKey (s.entryFor .drop).keyNum s.index ↔
          y ∈ s.index ∧ y.key ≠ s.cmds.key.toNat := by
        rw [mem_removeKey, keyNum_entryFor (by decide)]
      refine ⟨_, hexec.trans (congrArg (fun u : State => Host.Outcome.next (u.afterWrite false 0x0A)) hx), ?_⟩
      have hlent : s.lentStaging .drop = s.staging := rfl
      refine ⟨?_, by simpa using hkeys, by simpa using removeKey_ascending _ _ hasc, ?_⟩
      · simp [hengine]
      · simp [hlent]
    · exact hop
    · exact hpaused
    · rfl
    · exact hreclaimer
    · exact hscanner
    · exact .inl hquiesced
  · have hl : lookup (s.entryFor .drop).keyNum s.index = none := lookup_absent s.index _ habsent
    refine exec_answered_plain (k := .drop) rfl rfl ha hs hp (.inl (by decide)) (by decide) ?_
    show beginDrop (s.entryFor .drop) (s.begun .drop) = _
    simp only [beginDrop, State.setEngine_index, State.setStaging_index, State.setCmds_index, hl]

end

section
/-! The start of a reclamation, by a write of CONFIG and by a RECLAIM (R19, R86, R89 to R92, R146). -/

namespace Sys2Proof.Machine

variable {s : State}

/-- R91: the choice of the best victim reads the records, the epoch, the erased-cell count and the Reclaimer's bar. -/
theorem isBestVictim_congr {t : State} {n : Nat} (ht : t.table = s.table) (hr : t.reclaimer = s.reclaimer)
    (he : t.engine.epoch = s.engine.epoch) (h : isBestVictim s n) : isBestVictim t n := by
  have hrec (m : Nat) : t.recAt m = s.recAt m := congrArg (fun x : SectorTable => x.recs.getD m resetRec) ht
  have hcount : t.erasedCount = s.erasedCount := by
    simp only [State.erasedCount, State.openRoom, State.openSector, ht]
  simpa only [isBestVictim, eligibleVictim, hrec, hr, he, hcount] using h

/-- R92: the state in which a reclamation of sector `n` has started, its marking waiting. -/
theorem startMarking_eq (n : Nat) (s : State) : startMarking n s =
    (s.setReclaimer { s.reclaimer with state := .marking, victim := some n, cursor := 0, faults := 0, cause := .none }).setCtl
      { s.ctl with waitReclaimer := some (.advanceHeader n .reclaiming) } := rfl

/-- R19, R92: the marking of a victim that waits alone at a free port is granted and makes its sector RECLAIMING. -/
theorem arrive_marking {n : Nat} (h1 : s.ctl.op = none) (h2 : s.ctl.paused = none)
    (h3 : s.ctl.waitReclaimer = some (.advanceHeader n .reclaiming)) (h4 : s.ctl.waitEngine = none)
    (h5 : s.ctl.waitScanner = none) (h6 : s.ctl.quiesced = false) :
    arrive s = modRec n (fun r => { r with state := .reclaiming, role := .victim }) (s.setCtl { s.ctl with
      waitReclaimer := none, pass := 0
      op := some { who := .reclaimer, op := .advanceHeader n .reclaiming, phase := .single, suspendCount := 0 } }) :=
  arrive_reclaimer h1 h2 h3 h4 h5 h6

/-- R92: the records after the grant of a marking, in terms of those before its event. -/
theorem recAt_marked {t : State} {n : Nat} (ht : t.table = s.table) (hn : n < s.table.recs.length) (m : Nat) :
    (modRec n (fun r => { r with state := .reclaiming, role := .victim }) t).recAt m =
      if m = n then { s.recAt n with state := .reclaiming, role := .victim } else s.recAt m := by
  have hrec (k : Nat) : t.recAt k = s.recAt k := congrArg (fun x : SectorTable => x.recs.getD k resetRec) ht
  rw [recAt_modRec _ _ _ _ (ht ▸ hn), hrec, hrec]

/-- R86: an evaluation point at which the background start is due. -/
theorem evaluate_starts {n : Nat} (hr : s.deviceReady = true) (hi : s.reclaimer.state = .idle)
    (hb : s.settings.background = true) (hq : s.reclaimer.request = .none) (hl : s.erasedCount < s.settings.reclaimLow)
    (hv : isBestVictim s n) : evaluate s = startMarking n s := by
  have hbarred : s.reclaimer.barred = false := hv.1.2.1
  unfold evaluate
  rw [if_pos (by simp [backgroundDue, hr, hi, hb, hq, hl, hbarred]), chooseVictim_best n hv]

/-- R90: whether a sector is eligible, likewise. -/
theorem eligibleVictim_congr {t : State} {n : Nat} (ht : t.table = s.table) (hr : t.reclaimer = s.reclaimer)
    (he : t.engine.epoch = s.engine.epoch) : eligibleVictim t n ↔ eligibleVictim s n := by
  have hrec (m : Nat) : t.recAt m = s.recAt m := congrArg (fun x : SectorTable => x.recs.getD m resetRec) ht
  have hcount : t.erasedCount = s.erasedCount := by
    simp only [State.erasedCount, State.openRoom, State.openSector, ht]
  simp only [eligibleVictim, hrec, hr, he, hcount]

/-- R89, R146: a RECLAIM with no eligible victim ends. -/
theorem beginReclaim_noVictim (hi : s.reclaimer.state = .idle) (hv : ∀ n, ¬ eligibleVictim s n) :
    beginReclaim s = finish .nothingToDo 0 0 none 0 (s.setEngine { s.engine with work := .reclaim false }) := by
  have hchoose : chooseVictim (s.setEngine { s.engine with work := .reclaim false }) = none :=
    chooseVictim_none fun n hn => hv n ((eligibleVictim_congr rfl rfl rfl).mp hn)
  simp only [beginReclaim, reclaimRequest, setWork, modEngine, State.setEngine_reclaimer, hi, hchoose]
  rfl

/-- R89: a RECLAIM starts the reclamation of the best victim. -/
theorem beginReclaim_starts {n : Nat} (hi : s.reclaimer.state = .idle) (hv : isBestVictim s n) :
    beginReclaim s = ((s.setEngine { s.engine with work := .reclaim false }).setReclaimer
      { s.reclaimer with state := .marking, victim := some n, cursor := 0, faults := 0, cause := .none,
                         request := .reclaimTaken }).setCtl
        { s.ctl with waitReclaimer := some (.advanceHeader n .reclaiming) } := by
  have hchoose : chooseVictim (s.setEngine { s.engine with work := .reclaim false }) = some n :=
    chooseVictim_best n (isBestVictim_congr rfl rfl rfl hv)
  simp only [beginReclaim, reclaimRequest, setWork, modEngine, State.setEngine_reclaimer, hi, hchoose]
  rfl

/-- R89: a RECLAIM waits behind a reclamation in progress. -/
theorem beginReclaim_waits (hi : s.reclaimer.state ≠ .idle) (hh : s.reclaimer.state ≠ .halted) :
    beginReclaim s = (s.setEngine { s.engine with work := .reclaim false }).setReclaimer
      { s.reclaimer with request := .reclaimWaiting } := by
  simp only [beginReclaim, reclaimRequest, setWork, modEngine, State.setEngine_reclaimer]
  split
  case h_1 h => exact absurd h hi
  case h_6 h => exact absurd h hh
  all_goals rfl

end Sys2Proof.Machine

open Sys2Proof Sys2Proof.Machine

/-- Settles O33: the change of CONFIG is an evaluation point, and the marking it asks for is granted in the event. -/
theorem backgroundStarts : Obligations.BackgroundStarts := by
  intro v s n hw hq hready hp hquiesced hlen hv hoff hidle hreq hlow hbest
  obtain ⟨hop, hpaused, hengine, hreclaimer, hscanner⟩ := hp
  have hn : n < s.table.recs.length := hlen ▸ hbest.1.1
  have hset : ({ s.settings with background := v.getLsbD 0, suspend := v.getLsbD 1 } : Settings) =
      { s.settings with background := true, suspend := v.getLsbD 1 } := by rw [hv]
  have hchange : writeConfig v s =
      settle (evaluate (s.setSettings { s.settings with background := true, suspend := v.getLsbD 1 })) := by
    rw [← hset]
    refine if_neg fun hsame => ?_
    have hback := congrArg Settings.background hsame
    rw [hoff] at hback
    exact absurd (hv.symm.trans hback) (by decide)
  have hstart : evaluate (s.setSettings { s.settings with background := true, suspend := v.getLsbD 1 }) =
      startMarking n (s.setSettings { s.settings with background := true, suspend := v.getLsbD 1 }) :=
    evaluate_starts hready hidle rfl hreq hlow (isBestVictim_congr rfl rfl rfl hbest)
  have hgrant := arrive_marking (n := n)
    (s := startMarking n (s.setSettings { s.settings with background := true, suspend := v.getLsbD 1 }))
    hop hpaused rfl hengine hscanner hquiesced
  have hwrite : writeConfig v s = _ := hchange.trans ((congrArg settle hstart).trans
    ((settle_arrive (by simpa [startMarking_eq] using hq) (by rw [hgrant]; simpa [startMarking_eq, modRec] using hq)).trans
      hgrant))
  refine ⟨_, congrArg Host.Outcome.next (dataWrite_of_port hw rfl hwrite ?_), ?_⟩
  · simp [startMarking_eq, modRec]
  · refine ⟨?_, ?_, ?_, fun m => (State.afterWrite_recAt _ true 0x01 m).trans (recAt_marked ?_ hn m), ?_⟩ <;>
      simp [startMarking_eq, modRec, hreclaimer]

/-- Settles O48: the three outcomes of `beginReclaim`. -/
theorem reclaimTaken : Obligations.ReclaimTaken := by
  intro s hw hf ha
  have hexec := exec_taken (i := .reclaim) (k := .reclaim) rfl rfl hw ha hf
  refine ⟨fun hs hp hidle hnone => ?_, fun n hp hquiesced hlen hidle hbest => ?_, fun hp hidle hhalted => ?_⟩
  · refine exec_answered (k := .reclaim) rfl rfl ha hs hp (.inl (by decide)) (x := .running) (y := .reclaim false) ?_
    exact beginReclaim_noVictim (s := s.begun .reclaim) hidle
      fun n hn => hnone n ((eligibleVictim_congr rfl rfl rfl).mp hn)
  · obtain ⟨hop, hpaused, hengine, hreclaimer, hscanner⟩ := hp
    have hn : n < s.table.recs.length := hlen ▸ hbest.1.1
    have hbegin := beginReclaim_starts (s := s.begun .reclaim) hidle (isBestVictim_congr rfl rfl rfl hbest)
    simp only [hbegin] at hexec
    rw [arrive_marking (n := n) (by exact hop) (by exact hpaused) rfl (by exact hengine) (by exact hscanner)
      (by exact hquiesced)] at hexec
    refine ⟨_, hexec, ?_⟩
    refine ⟨?_, ?_, ?_, fun m => (State.afterWrite_recAt _ false 0x0A m).trans (recAt_marked ?_ hn m), ?_⟩ <;>
      simp [modRec, hreclaimer]
  · have hbegin := beginReclaim_waits (s := s.begun .reclaim) hidle hhalted
    simp only [hbegin] at hexec
    rw [arrive_settled (portSettled_congr (s := s) (by simp) hp)] at hexec
    exact hexec

end

section
/-! STORE and FORMAT in their submission event (R71 to R75, R133 to R136, R148 to R150). -/

namespace Sys2Proof.Machine

variable {s : State}

/-! ### Claims at an empty claim list (R71, R75) -/

/-- R71: a claim that arrives at an empty list and leaves it again changes nothing. -/
theorem dropClaim_appendClaim {who : Requester} {k : Nat} (hc : s.table.claims = []) :
    dropClaim (appendClaim who k s) = s := by
  have htable : ({ s.table with claims := (s.table.claims ++ [({ who := who, count := k } : Claim)]).tail } : SectorTable) =
      s.table := by
    rw [hc]
    show ({ s.table with claims := [] } : SectorTable) = s.table
    rw [← hc]
  exact (congrArg s.setTable htable).trans s.setTable_self

/-- R71: a claim of the engine at an empty list, dealt with at once. -/
theorem claim_engine {k : Nat} (hc : s.table.claims = []) : claim .engine k s =
    if s.erasedCount < k + 32 then engineShort s
    else if k ≤ s.openRoom then startProgramming (assignCells (handOut k s).1 (evaluate (handOut k s).2))
    else requestOpening .engine (appendClaim .engine k s) := by
  have hclaims : (appendClaim .engine k s).table.claims = [{ who := .engine, count := k }] := by
    simp [appendClaim, hc]
  have hdrop := dropClaim_appendClaim (s := s) (who := .engine) (k := k) hc
  have hcount : (appendClaim .engine k s).erasedCount = s.erasedCount := rfl
  have hroom : (appendClaim .engine k s).openRoom = s.openRoom := rfl
  simp only [claim, hc, if_true, dealClaims, hclaims, hdrop, hcount, hroom, Config.reserve]

/-- R75: the claim of a STORE that would leave fewer than 32 erased cells is refused. -/
theorem claim_engine_short {k : Nat} (hc : s.table.claims = []) (h : s.erasedCount < k + 32) :
    claim .engine k s = engineShort s := by
  rw [claim_engine hc, if_pos h]

/-- R71: the claim of a STORE that the open sector has room for is served with its next cells. -/
theorem claim_engine_served {k m : Nat} (hc : s.table.claims = []) (h : k + 32 ≤ s.erasedCount)
    (ho : s.openSector = some m) (hk : s.table.cursor + k ≤ 32) (hb : s.settings.background = false) :
    ∃ x, claim .engine k s = startProgramming (assignCells ((List.range k).map fun i => m * 32 + s.table.cursor + i)
      (s.setTable { s.table with recs := x, cursor := s.table.cursor + k })) := by
  obtain ⟨x, hx⟩ := handOut_some m k ho hk
  have hroom : k ≤ s.openRoom := by simp only [State.openRoom, ho]; omega
  refine ⟨x, ?_⟩
  rw [claim_engine hc, if_neg (by omega), if_pos hroom, hx, evaluate_idle]
  exact .inl hb

/-! ### Pins and clears leave the allocator's other fields (R80, R81) -/

@[simp] theorem SectorTable.pinnedAt_cursor (t : SectorTable) (cells : List Nat) :
    (t.pinnedAt cells).cursor = t.cursor := rfl

@[simp] theorem SectorTable.pinnedAt_claims (t : SectorTable) (cells : List Nat) :
    (t.pinnedAt cells).claims = t.claims := rfl

/-! ### STORE (R75, R133 to R135) -/

/-- R133: the working state of a STORE that places its reservation. -/
def storeReserving (replaces : Bool) (seq count : Nat) : StoreWork :=
  { phase := .reserving, replaces := replaces, seq := seq, count := count, map := [], next := 0, fails := 0,
    oldMap := none, toRetire := [], ending := .done }

theorem beginStore_seqExhausted {c : Command} (h : 4294967296 ≤ s.engine.seqNext) :
    beginStore c s = finishPlain .seqExhausted s := if_pos h

theorem beginStore_indexFull {c : Command} (h : s.engine.seqNext < 4294967296) (hl : lookup c.keyNum s.index = none)
    (hfull : 256 ≤ s.index.length) : beginStore c s = finishPlain .indexFull s := by
  unfold beginStore
  rw [if_neg (Nat.not_le.mpr h), if_pos (by simp [hl, hfull])]

/-- R133: a STORE takes its sequence and claims its cells. -/
theorem beginStore_claims {c : Command} (h : s.engine.seqNext < 4294967296)
    (hr : (lookup c.keyNum s.index).isSome = true ∨ s.index.length < 256) :
    beginStore c s = claim .engine (fragmentCount c.lenNum) (s.setEngine { s.engine with
      seqNext := s.engine.seqNext + 1
      work := .store (storeReserving (lookup c.keyNum s.index).isSome s.engine.seqNext (fragmentCount c.lenNum)) }) := by
  have hroom : ¬ ((!(lookup c.keyNum s.index).isSome && decide (Config.indexCapacity ≤ s.index.length)) = true) := by
    rcases hr with hr | hr <;> simp [hr]
  unfold beginStore
  rw [if_neg (Nat.not_le.mpr h), if_neg hroom]
  rfl

/-- R75, R135: a reservation that is refused where no victim is eligible ends the STORE. -/
theorem engineShort_noVictim {w : StoreWork} (hw : s.engine.work = .store w) (hp : w.phase = .reserving)
    (hi : s.reclaimer.state = .idle) (hv : ∀ n, ¬ eligibleVictim s n) : engineShort s =
    finishPlain .noSpace (s.setEngine { s.engine with state := .waitSpace, work := .store { w with phase := .waiting } }) := by
  have hchoose : chooseVictim (s.setEngine { s.engine with
      state := .waitSpace, work := .store { w with phase := .waiting } }) = none :=
    chooseVictim_none fun n hn => hv n ((eligibleVictim_congr rfl rfl rfl).mp hn)
  simp only [engineShort, hw, hp, if_true, demand, modEngine, State.setEngine_reclaimer, hi, hchoose]
  rfl

/-- R36, R134: the STORE takes the cells of its reservation and asks for the program of its head. -/
theorem startProgramming_assigned {c : Command} {w : StoreWork} (cells : List Nat) (hc : s.engine.cmd = some c)
    (hw : s.engine.work = .store w) (hp : w.phase = .reserving) : startProgramming (assignCells cells s) =
    ((s.setTable (s.table.pinnedAt cells)).setEngine { s.engine with
      work := .store { w with phase := .programming, map := cells } }).setCtl { s.ctl with
        waitEngine := some (.program (fragmentProgram c { w with phase := .programming, map := cells } w.next s)) } := by
  simp only [startProgramming, assignCells, hw, hp, if_true, pinCells_table, setWork, modEngine, State.setEngine_table,
    State.setTable_engine, State.setEngine_engine, requestFragment, hc]
  rfl

/-- R156: a buffer that is lent keeps its bytes. -/
theorem bytes_lentStaging (k : Kind) (b : Buf) : (s.lentStaging k).bytes b = s.staging.bytes b := by
  unfold State.lentStaging
  split
  · split <;> cases b <;> rfl
  · rfl

/-- R27, R134: the program of the head, in terms of the command fields and the cells handed out. -/
theorem fragmentProgram_head {t : State} {n q k : Nat} {b : Bool} (hn : 0 < n) (ht : t.staging = s.lentStaging .store) :
    fragmentProgram (s.entryFor .store)
      { storeReserving b q n with phase := .programming, map := (List.range n).map fun f => k + f } 0 t =
    { cell := k, state := .written, key := s.cmds.key.toNat, seq := q, frag := 0, count := n,
      recLen := some s.cmds.len.toNat, payLen := min 64 s.cmds.len.toNat,
      payload := (s.staging.bytes s.namedBuf).take (min 64 s.cmds.len.toNat), check := none } := by
  have hcell : ((List.range n).map fun f => k + f).getD 0 0 = k := by
    simp [List.getD_eq_getElem?_getD, hn]
  have hbytes : takeBytes s.namedBuf (64 * 0) (min 64 s.cmds.len.toNat) t =
      (s.staging.bytes s.namedBuf).take (min 64 s.cmds.len.toNat) := by
    simp [takeBytes, ht, bytes_lentStaging]
  simp only [fragmentProgram, hcell]
  show ({ payload := takeBytes s.namedBuf (64 * 0) (min 64 s.cmds.len.toNat) t, .. } : Program) = _
  rw [hbytes]
  rfl

/-! ### FORMAT (R109, R148 to R150) -/

/-- R119: the end of a command reads nothing of the Reclaimer but its state. -/
theorem finish_setReclaimer {c : Command} {x : Reclaimer} (st : Status) (key len : Nat) (q : Option Nat) (n : Nat)
    (hc : s.engine.cmd = some c) (hr : s.comps.length < 8) (hd : s.reclaimer.state ≠ .draining)
    (hx : x.state ≠ .draining) (hs : c.kind ≠ .store ∨ st ≠ .noSpace) :
    (finish st key len q n s).setReclaimer x = finish st key len q n (s.setReclaimer x) := by
  rw [finish_ended st key len q n hc hr hd hs, finish_ended (s := s.setReclaimer x) st key len q n hc hr hx hs]
  rfl

/-- R109: the end of a FORMAT with background reclaim off. -/
theorem endFormat_ended {c : Command} (st : Status) (hc : s.engine.cmd = some c) (hk : c.kind ≠ .store)
    (hr : s.comps.length < 8) (hd : s.reclaimer.state ≠ .draining) (hb : s.settings.background = false) :
    endFormat st s = finish st 0 0 none 0 (s.setReclaimer { s.reclaimer with barred := false }) := by
  have hfinish := finish_ended st 0 0 none 0 hc hr hd (.inl hk)
  have hreclaimer : (finish st 0 0 none 0 s).reclaimer = s.reclaimer := by rw [hfinish]; simp [State.ended]
  have hoff : (finish st 0 0 none 0 s).settings.background = false := by rw [hfinish]; simpa [State.ended] using hb
  unfold endFormat modReclaimer
  rw [hreclaimer, evaluate_idle (.inl (by simpa using hoff))]
  exact finish_setReclaimer st 0 0 none 0 hc hr hd hd (.inl hk)

/-- R149: a FORMAT that finds the Reclaimer IDLE clears in its own event. -/
theorem beginFormat_clears (h : s.engine.epoch < 65535) (hi : s.reclaimer.state = .idle) : beginFormat s =
    formatClear ((s.setEngine { s.engine with work := .format { erasing := false, next := 0 } }).setReclaimer
      { s.reclaimer with barred := true }) := by
  unfold beginFormat
  rw [if_neg (Nat.not_le.mpr h)]
  simp only [requestStop, setWork, modEngine, modReclaimer, State.setReclaimer_reclaimer, State.setEngine_reclaimer, hi,
    if_true]

/-- R150: FORMAT asks for the erase of the first ERASE_PENDING sector. -/
theorem formatExamine_erases {m : Nat} (hm : m < 32) (hbefore : ∀ k < m, (s.recAt k).state ≠ .erasePending)
    (hstate : (s.recAt m).state = .erasePending) (hworn : dueForWear (s.recAt m) = false) : formatExamine 0 s =
    (s.setEngine { s.engine with work := .format { erasing := true, next := m } }).setCtl { s.ctl with
      waitEngine := some (.erase m s.engine.epoch (nextEraseCount (s.recAt m).erases)) } := by
  have hfind : ((List.range 32).find? fun n => decide (0 ≤ n) && decide ((s.recAt n).state = .erasePending)) = some m :=
    List.find?_range_eq_some.mpr ⟨by simp [hstate], by simpa using hm, fun k hk => by simp [hbefore k hk]⟩
  simp only [formatExamine, hfind, hworn]
  rfl

/-- R81, R149: the index, the allocator and the counters after FORMAT's clears. -/
def State.formatCleared (s : State) : State :=
  ((s.setIndex []).setTable
    { s.table with recs := s.table.recs.map clearedRec, cursor := 32, queue := [], claims := [] }).setEngine
      { s.engine with seqNext := 1, epoch := s.engine.epoch + 1 }

theorem formatClear_eq (s : State) : formatClear s = formatExamine 0 s.formatCleared := rfl

/-- R81, R69: the record of a sector after FORMAT's clears. -/
theorem recAt_cleared {t : State} (ht : t.table.recs = s.table.recs.map clearedRec) {k : Nat}
    (hk : k < s.table.recs.length) : t.recAt k = clearedRec (s.recAt k) := by
  simp [State.recAt, ht, List.getD_eq_getElem?_getD, hk]

theorem clearedRec_state (r : SectorRec) :
    (clearedRec r).state = if r.state = .worn then .worn else .erasePending := by
  unfold clearedRec
  dsimp only
  split
  · assumption
  · rfl

theorem clearedRec_erases (r : SectorRec) : (clearedRec r).erases = r.erases := by
  unfold clearedRec
  dsimp only
  split <;> rfl

theorem clearedRec_faulty (r : SectorRec) : (clearedRec r).faulty = r.faulty := by
  unfold clearedRec
  dsimp only
  split <;> rfl

/-- R65: below the end of its range an erase count rises by 1. -/
theorem nextEraseCount_succ {n : Nat} (h : n < 100000) : nextEraseCount n = n + 1 := if_pos (Nat.lt_trans h (by decide))

/-- R149, R150: the clears, and the erase of the first sector that is not WORN, in a state `t` with the records of `s`. -/
theorem formatClear_erases {t : State} {m : Nat} (ht : t.table.recs = s.table.recs) (hlen : s.table.recs.length = 32)
    (hm : m < 32) (hbefore : ∀ k < m, (s.recAt k).state = .worn) (hstate : (s.recAt m).state ≠ .worn)
    (herases : (s.recAt m).erases < 100000) (hfaulty : (s.recAt m).faulty.length < 4) : formatClear t =
    (t.formatCleared.setEngine { t.engine with
      work := .format { erasing := true, next := m }, seqNext := 1, epoch := t.engine.epoch + 1 }).setCtl { t.ctl with
        waitEngine := some (.erase m (t.engine.epoch + 1) ((s.recAt m).erases + 1)) } := by
  have hrec (k : Nat) (hk : k < 32) : t.formatCleared.recAt k = clearedRec (s.recAt k) :=
    recAt_cleared (congrArg (List.map clearedRec) ht) (hlen ▸ hk)
  rw [formatClear_eq, formatExamine_erases hm, hrec m hm, clearedRec_erases, nextEraseCount_succ herases]
  · rfl
  · intro k hk
    rw [hrec k (hk.trans hm), clearedRec_state, if_pos (hbefore k hk)]
    decide
  · rw [hrec m hm, clearedRec_state, if_neg hstate]
  · simp [hrec m hm, dueForWear, clearedRec_erases, clearedRec_faulty, herases, hfaulty]

end Sys2Proof.Machine

open Sys2Proof Sys2Proof.Machine

/-- Settles O47: the two refusals before the claim, and the refused claim. -/
theorem storeRefused : Obligations.StoreRefused := by
  intro s e hs hp ha he
  have hentry (st : Status) (hst : e.status = st) : e =
      { tag := s.cmds.tag, kind := .store, status := st, key := s.cmds.key.toNat, len := 0, seq := none, frags := 0 } :=
    he.trans (by rw [hst])
  refine ⟨fun hseq hst => ?_, fun hseq habsent hfull hst => ?_, fun hseq hroom hclaims hcount hidle hnone hst => ?_⟩
  · rw [hentry _ hst]
    exact exec_answered_plain (k := .store) rfl rfl ha hs hp (.inr (by decide)) (by decide)
      (beginStore_seqExhausted (s := s.begun .store) (Nat.le_of_eq hseq.symm))
  · rw [hentry _ hst]
    exact exec_answered_plain (k := .store) rfl rfl ha hs hp (.inr (by decide)) (by decide)
      (beginStore_indexFull (s := s.begun .store) hseq (lookup_absent s.index _ habsent) hfull)
  · rw [hentry _ hst]
    have hpresent : (lookup (s.entryFor .store).keyNum s.index).isSome = true ∨ s.index.length < 256 :=
      hroom.imp_left (lookup_isSome s.index _).mpr
    rw [exec_taken (i := .store) (k := .store) rfl rfl hs.1 ha hs.2.1]
    simp only [beginStore_claims (s := s.begun .store) (c := s.entryFor .store) hseq hpresent]
    rw [claim_engine_short, engineShort_noVictim]
    · exact congrArg Host.Outcome.next (arrive_noSpace (s := s.setEngine { s.engine with
        seqNext := s.engine.seqNext + 1 }) ha hs hp .waitSpace _ _ 0 none 0 _ rfl)
    · rfl
    · rfl
    · exact hidle
    · exact fun n hn => hnone n ((eligibleVictim_congr (s := s) (by simp) (by simp) (by simp)).mp hn)
    · exact hclaims
    · exact hcount

/-- Settles O46: the claim is served from the open sector, and the program it asks for is granted. -/
theorem storeTaken : Obligations.StoreTaken := by
  intro s m n hw hf ha hseq hroom hn hclaims hopen hcount hcursor hback hp hquiesced
  obtain ⟨hop, hpaused, hengine, hreclaimer, hscanner⟩ := hp
  have hfrags : fragmentCount (s.entryFor .store).lenNum = n := hn.symm
  have hpresent : (lookup (s.entryFor .store).keyNum s.index).isSome = true ∨ s.index.length < 256 :=
    hroom.imp_left (lookup_isSome s.index _).mpr
  have hexec := exec_taken (i := .store) (k := .store) rfl rfl hw ha hf
  simp only [beginStore_claims (s := s.begun .store) (c := s.entryFor .store) hseq hpresent, hfrags] at hexec
  obtain ⟨x, hx⟩ := claim_engine_served (s := (s.begun .store).setEngine { (s.begun .store).engine with
    seqNext := s.engine.seqNext + 1
    work := .store (storeReserving (lookup (s.entryFor .store).keyNum s.index).isSome s.engine.seqNext n) })
    hclaims hcount hopen hcursor hback
  have hpos : 0 < n := by rw [hn]; split <;> omega
  have hserved := hx.trans ((startProgramming_assigned _ rfl rfl rfl).trans
    (congrArg (fun p => State.setCtl _ { s.ctl with waitEngine := some (.program p) }) (fragmentProgram_head hpos rfl)))
  refine ⟨_, hexec.trans (congrArg (fun u : State => Host.Outcome.next (u.afterWrite false 0x0A))
    ((congrArg arrive hserved).trans (arrive_engine hop hpaused rfl hreclaimer hscanner (.inl hquiesced)))),
    ⟨_, lookup_isSome s.index _, rfl⟩, ?_⟩
  simp [grant, grantEffect, granted, firstPhase, Controller.setWaiting, hclaims, hengine]

/-- Settles O49: the FORMAT that ends at once, and the erase the clears lead to. -/
theorem formatTaken : Obligations.FormatTaken := by
  intro s hw hf ha
  have hexec := exec_taken (i := .format) (k := .format) rfl rfl hw ha hf
  refine ⟨fun hs hp hepoch hback => ?_, fun m hepoch hidle hp hquiesced hlen hm hbefore hstate herases hfaulty => ?_⟩
  · refine hexec.trans (congrArg Host.Outcome.next ?_)
    have hbegin : beginFormat (s.begun .format) = endFormat .epochExhausted (s.begun .format) :=
      if_pos (Nat.le_of_eq hepoch.symm)
    simp only [hbegin]
    obtain ⟨-, -, hroom, hdraining⟩ := id hs
    rw [endFormat_ended (s := s.begun .format) .epochExhausted rfl Kind.noConfusion hroom hdraining hback]
    exact arrive_finish (s := s.setReclaimer { s.reclaimer with barred := false }) (k := .format) rfl ha hs hp .running
      .none .epochExhausted 0 0 none 0 (.inl (by decide)) _ rfl
  · obtain ⟨hop, hpaused, hengine, hreclaimer, hscanner⟩ := hp
    have hclear := (beginFormat_clears (s := s.begun .format) hepoch hidle).trans
      (formatClear_erases (s := s) (by simp) hlen hm hbefore hstate herases hfaulty)
    refine ⟨_, hexec.trans (congrArg (fun u : State => Host.Outcome.next (u.afterWrite false 0x0A))
      ((congrArg arrive hclear).trans (arrive_engine hop hpaused rfl hreclaimer hscanner (.inl hquiesced)))), ?_⟩
    refine ⟨?_, ?_, ?_, ?_, ?_, fun k hk => ?_, ?_⟩
    case refine_6 =>
      refine (recAt_cleared (s := s) (by simp [grant, grantEffect, State.formatCleared]) (hlen ▸ hk)).trans ?_
      unfold clearedRec
      split <;> simp [*]
    all_goals simp [grant, grantEffect, State.formatCleared, granted, firstPhase, Controller.setWaiting,
      CellArray.eraseMark, hengine]

end

section
/-! What follows the end of an operation that was alone on the port (R19, R119), and the end of a FETCH's fragment read
(R140, R141, R163). -/

namespace Sys2Proof.Machine

variable {s t : State}

/-! ### What follows the end of an operation that was alone on the port (R19) -/

/-- R19: nothing waits, so the port stays free. -/
theorem settleFree_alone {who : Requester} {op : ArrayOp} {ph : Phase} (h : aloneOnPort who op ph s)
    (hc : t.ctl = { s.ctl with op := none }) (hq : quiet t) : settleFree t = t := by
  obtain ⟨-, hpaused, hengine, hreclaimer, hscanner, -⟩ := h
  exact settleFree_none hq (by rw [hc]) (by rw [hc]; exact hpaused) (by rw [hc]; exact hengine)
    (by rw [hc]; exact hreclaimer) (by rw [hc]; exact hscanner)

/-- R19: the request the engine placed in the event is granted, where its grant moves the port alone. -/
theorem settleFree_alone_engine {who : Requester} {op next : ArrayOp} {ph : Phase} (h : aloneOnPort who op ph s)
    (hc : t.ctl = { s.ctl with op := none, waitEngine := some next }) (hi : t.engine.state ≠ .idle)
    (hph : firstPhase next = .single)
    (hg : ∀ c, grantEffect .engine next (t.setCtl c) = t.setCtl c) : settleFree t = t.setCtl (s.nowOnPort .engine next) := by
  obtain ⟨-, hpaused, hengine, hreclaimer, hscanner, hquiesced⟩ := h
  have hgrant : grant .engine next t = t.setCtl (s.nowOnPort .engine next) := by
    refine (hg _).trans (congrArg t.setCtl ?_)
    simp [hc, State.nowOnPort, Controller.setWaiting, granted, hph, hengine]
  rw [← hgrant]
  exact settleFree_engine next hi (by rw [hgrant]; simp) (by rw [hc]) (by rw [hc]; exact hpaused) (by rw [hc])
    (by rw [hc]; exact hreclaimer) (by rw [hc]; exact hscanner) (by rw [hc]; exact hquiesced)

/-- R119: a command that ends with room in the Completion Queue, where nothing follows. -/
theorem settleFree_alone_finish {who : Requester} {op : ArrayOp} {ph : Phase} {c : Command} {st : Status} {key len n : Nat}
    {q : Option Nat} (h : aloneOnPort who op ph s) (he : endsQuietly s) (hctl : t.ctl = { s.ctl with op := none })
    (hcmd : t.engine.cmd = some c) (hcomps : t.comps = s.comps) (hcmds : t.cmds = s.cmds)
    (hreclaimer : t.reclaimer = s.reclaimer) (hst : st ≠ .noSpace) : settleFree (finish st key len q n t) =
    t.ended c { tag := c.tag, kind := c.kind, status := st, key := key, len := len, seq := q, frags := n } := by
  obtain ⟨hroom, hqueue, hdraining⟩ := he
  rw [finish_ended (c := c) st key len q n hcmd (hcomps ▸ hroom) (hreclaimer ▸ hdraining) (.inr hst),
    settleFree_alone h (by simp [State.ended, hctl]) (.inl (by simp [State.ended, hcmds, hqueue]))]

/-! ### FETCH (R140, R141, R163) -/

/-- R8: a fragment read placed at a free port waits for the free point. -/
theorem placeEngineRead_free (cell : Nat) (h : s.ctl.op = none) :
    placeEngineRead cell s = s.setCtl { s.ctl with waitEngine := some (.read cell) } := by
  unfold placeEngineRead
  rw [h]
  rfl

section Fetch

variable {c : Command} {w : FetchWork} {b : Buf} {o : ReadOutcome}

/-- R163: the buffer with the bytes of the fragment just read in their place. -/
def fragmentStored (w : FetchWork) (b : Buf) (o : ReadOutcome) (s : State) : State :=
  s.setStaging (s.staging.setBytes b
    (bytesAt (64 * w.next) (o.payload.take (min 64 (w.len - 64 * w.next))) (s.staging.bytes b)))

/-- R140, R163: the end of a read with what the FETCH expects. -/
theorem fetchReadEnded_match (hc : s.engine.cmd = some c) (hw : s.engine.work = .fetch w) (hb : c.buf = some b)
    (hm : fetchMatches c w o) : fetchReadEnded o s =
    if w.next + 1 < w.count then
      placeEngineRead (w.map.getD (w.next + 1) 0) (setWork (.fetch { w with
        next := w.next + 1, readOnce := false, delivered := w.delivered + min 64 (w.len - 64 * w.next) })
          (fragmentStored w b o s))
    else finish .done c.keyNum w.len (some w.seq) w.count (setWork (.fetch { w with
        next := w.next + 1, readOnce := false, delivered := w.delivered + min 64 (w.len - 64 * w.next) })
          (fragmentStored w b o s)) := by
  have hpass := (fetchPasses_iff c w o).mpr hm
  simp only [fetchReadEnded, hc, hw, hpass, if_true, hb, Option.getD_some, writeBytes, overwrite_bytesAt, fragmentBytes]
  rfl

/-- R141: the end of a read with what the FETCH does not expect. -/
theorem fetchReadEnded_mismatch (hc : s.engine.cmd = some c) (hw : s.engine.work = .fetch w)
    (hm : ¬ fetchMatches c w o) : fetchReadEnded o s =
    if w.readOnce then finish .dataCheck c.keyNum w.delivered (some w.seq) w.count s
    else placeEngineRead (w.map.getD w.next 0) (setWork (.fetch { w with readOnce := true }) s) := by
  have hpass : ¬ fetchPasses c w o = true := fun h => hm ((fetchPasses_iff c w o).mp h)
  simp only [fetchReadEnded, hc, hw, if_neg hpass]

end Fetch

end Sys2Proof.Machine

open Sys2Proof Sys2Proof.Machine

/-- Settles O53: the two outcomes of the comparison, each with its two ways on. -/
theorem fragmentReadTaken : Obligations.FragmentReadTaken := by
  intro s c w b cell n o t h hstate hc hw hb ho hn ht
  obtain ⟨k, hk⟩ := h.1
  have hexec : exec .fragmentReadComplete s = .next (settleFree (fetchReadEnded o (portReleased s))) := by
    show execFragmentReadComplete s = _
    rw [ho, execFragmentReadComplete, hk]
    rfl
  have ht' : t = fragmentStored w b o s := by rw [ht, hn]; rfl
  subst hn ht'
  refine ⟨fun hm hnext => ?_, fun hm hlast hends => ?_, fun hm honce => ?_, fun hm htwice hends => ?_⟩
  · rw [hexec, fetchReadEnded_match (s := portReleased s) hc hw hb hm, if_pos hnext, placeEngineRead_free _ rfl,
      settleFree_alone_engine h rfl (by simp [portReleased, fragmentStored, setWork, modEngine, hstate]) rfl fun _ => rfl]
    rfl
  · rw [hexec, fetchReadEnded_match (s := portReleased s) hc hw hb hm, if_neg (Nat.not_lt.mpr hlast),
      settleFree_alone_finish h hends]
    case hcmd => exact hc
    case hst => decide
    all_goals rfl
  · rw [hexec, fetchReadEnded_mismatch (s := portReleased s) hc hw hm, if_neg (by simp [honce]),
      placeEngineRead_free _ rfl, settleFree_alone_engine h rfl (by simp [portReleased, setWork, modEngine, hstate]) rfl
        fun _ => rfl]
    rfl
  · rw [hexec, fetchReadEnded_mismatch (s := portReleased s) hc hw hm, if_pos htwice,
      settleFree_alone_finish h hends]
    case hcmd => exact hc
    case hst => decide
    all_goals rfl

end

section
/-! The ends of a STORE's programs and of its commit advance (R10 to R13, R27, R37 to R41, R54, R55, R67). -/

namespace Sys2Proof.Machine

variable {s t : State}

/-! ### Cell programs (R10, R11) -/

/-- R10: a program of a BLANK cell that verifies. -/
theorem CellArray.endProgram_verified (a : CellArray) {p : Program} (residue : Cell)
    (h : cellCondition (a.cellAt p.cell) = .blank) :
    a.endProgram p .verified residue = (a.putCell p.cell p.image, .done) := if_pos h

/-- R11: a program of a BLANK cell that fails. -/
theorem CellArray.endProgram_failed (a : CellArray) {p : Program} (mark : Bool) (residue : Cell)
    (h : cellCondition (a.cellAt p.cell) = .blank) :
    a.endProgram p (.failed mark) residue = (a.putCell p.cell (failedProgramCell mark residue), .failed) := if_pos h

/-- R8: what takes the end of a cell program. -/
theorem exec_cellProgramComplete {who : Requester} {p : Program} {ph : Phase} (r : ProgramResult)
    (h : aloneOnPort who (.program p) ph s) :
    exec (.cellProgramComplete r) s = .next (settleFree (endProgram who p r s)) := by
  obtain ⟨k, hk⟩ := h.1
  show execCellProgramComplete r s = _
  rw [execCellProgramComplete, hk]

/-- R10: what the requester takes of a program of a BLANK cell that verifies. -/
theorem endProgram_done {who : Requester} {p : Program} (h : cellCondition (s.array.cellAt p.cell) = .blank) :
    endProgram who p .verified s = match who with
      | .engine => storeProgramEnded .done ((portReleased s).setArray (s.array.putCell p.cell p.image))
      | .reclaimer => reclaimerProgramEnded .done ((portReleased s).setArray (s.array.putCell p.cell p.image))
      | .scanner => (portReleased s).setArray (s.array.putCell p.cell p.image) := by
  simp only [endProgram, CellArray.endProgram_verified _ _ h]
  rfl

/-! ### The next request of a STORE (R37, R39) -/

section Store

variable {c : Command} {w : StoreWork}

theorem requestFragment_eq (hc : s.engine.cmd = some c) (hw : s.engine.work = .store w) : requestFragment s =
    s.setCtl { s.ctl with waitEngine := some (.program (fragmentProgram c w w.next s)) } := by
  simp only [requestFragment, hc, hw]
  rfl

/-- R37: after a program that ended DONE the engine asks for the next fragment's, or for the commit advance. -/
theorem storeProgramEnded_done (hc : s.engine.cmd = some c) (hw : s.engine.work = .store w) :
    storeProgramEnded .done s =
    if w.next + 1 < w.count then (setWork (.store { w with next := w.next + 1 }) s).setCtl { s.ctl with
      waitEngine := some (.program (fragmentProgram c { w with next := w.next + 1 } (w.next + 1) s)) }
    else (setWork (.store { w with phase := .committing, next := w.next + 1 }) s).setCtl { s.ctl with
      waitEngine := some (.advanceCell (w.map.headD 0) .committed) } := by
  have hnext := requestFragment_eq (s := setWork (.store { w with next := w.next + 1 }) s) hc rfl
  simp only [storeProgramEnded, hw, if_true, hnext]
  rfl

/-- R27, R162: the program of a fragment after the head. -/
theorem fragmentProgram_succ {b : Buf} {f n : Nat} (hb : c.buf = some b) (hn : n = min 64 (c.len.getD 0 - 64 * (f + 1))) :
    fragmentProgram c w (f + 1) s =
    { cell := w.map.getD (f + 1) 0, state := .written, key := c.key.getD 0, seq := w.seq, frag := f + 1, count := w.count,
      recLen := none, payLen := n, payload := ((s.staging.bytes b).drop (64 * (f + 1))).take n, check := none } := by
  subst hn
  simp only [fragmentProgram, hb]
  rfl

end Store

/-! ### A program that fails (R11, R38, R67) -/

/-- R11: a key field of all zero bits is no key, so that the cell reads TORN. -/
theorem cellCondition_zeroKey (x : HeaderArea) (st : CellState) (l : List Byte) :
    cellCondition { header := zeroKey x, state := st, payload := l } = .torn := by
  cases x with
  | erased => rfl
  | garbled => rfl
  | fields h => exact if_neg fun hread => by simp [headerInRange] at hread

/-- R11: the cell a failed program leaves reads FAULTY where its mark held. -/
theorem failedProgramCell_marked (x : Cell) : (failedProgramCell true x).state = .faulty := rfl

/-- R11: the cell a failed program leaves reads TORN where its mark did not hold. -/
theorem failedProgramCell_unmarked (x : Cell) : cellCondition (failedProgramCell false x) = .torn ∧
    (failedProgramCell false x).state ≠ .faulty := by
  refine ⟨cellCondition_zeroKey _ _ _, ?_⟩
  show (if x.state = .faulty then CellState.blank else x.state) ≠ .faulty
  split
  · decide
  · assumption

/-- R67: the cell of a failed operation joins the faulty set of its sector, before READY and after it. -/
theorem mem_faulty_cellFailed {c : Nat} (hn : sectorOf c < s.table.recs.length) (hd : (s.recAt (sectorOf c)).dead ≠ 0)
    (x : Nat) : x ∈ ((cellFailed c s).recAt (sectorOf c)).faulty ↔ x = c ∨ x ∈ (s.recAt (sectorOf c)).faulty := by
  unfold cellFailed
  rw [recAt_modRec _ _ _ _ hn, if_pos rfl]
  split
  · exact mem_joinFaulty _ _ c x _ hd
  · exact mem_noteFaulty c x _

/-- R80: the clearing of the pins leaves a record's faulty set. -/
theorem faulty_unpinned (h : t.table = s.table.unpinned) (n : Nat) : (t.recAt n).faulty = (s.recAt n).faulty := by
  simp only [State.recAt, h, SectorTable.unpinned, List.getD_eq_getElem?_getD, List.getElem?_map]
  cases s.table.recs[n]? <;> rfl

/-- R11, R67: what the requester takes of a program of a BLANK cell that fails, with background reclaim off. -/
theorem endProgram_failed_engine {p : Program} {mark : Bool} (h : cellCondition (s.array.cellAt p.cell) = .blank)
    (hb : s.settings.background = false) : endProgram .engine p (.failed mark) s =
    storeProgramEnded .failed (cellFailed p.cell ((useFree (portReleased s)).setArray
      (s.array.putCell p.cell (failedProgramCell mark (Config.programResidue s.free))))) := by
  have hidle : (cellFailed p.cell ((useFree (portReleased s)).setArray (s.array.putCell p.cell
      (failedProgramCell mark (Config.programResidue s.free))))).settings.background = false := hb
  simp only [endProgram, CellArray.endProgram_failed _ _ _ h, tableCell, if_true, evaluate_idle (.inl hidle)]

/-- R38, R138: the third failure of a STORE with nothing programmed ends it. -/
theorem storeProgramEnded_third {c : Command} {w : StoreWork} (hc : s.engine.cmd = some c)
    (hw : s.engine.work = .store w) (hn : w.next = 0) (hf : w.fails = 2) : storeProgramEnded .failed s =
    finish .arrayFault c.keyNum 0 none 0 (setWork (.store { w with
      fails := 3, phase := .cleaning, toRetire := [], ending := .arrayFault }) s) := by
  simp [storeProgramEnded, hw, hn, hf, startCleaning, setWork, modEngine, finishPlain, hc]
  rfl

/-! ### The commit event (R12, R39, R41, R54, R55) -/

/-- R12: an advance that verifies on a WRITTEN cell that reads READABLE makes it COMMITTED. -/
theorem CellArray.endCellAdvance_commit (a : CellArray) {n : Nat} (hc : cellCondition (a.cellAt n) = .readable)
    (hs : (a.cellAt n).state = .written) : a.endCellAdvance n .committed .verified =
    (a.putCell n { a.cellAt n with state := .committed }, .done) := by
  have hperformed : advancePerformed (a.cellAt n) .committed = true := by
    simp [advancePerformed, hc, hs, cellRank]
  exact if_pos hperformed

/-- R8: what takes the end of a cell's state advance. -/
theorem exec_stateAdvanceComplete {who : Requester} {n : Nat} {target : CellState} {ph : Phase} (r : AdvanceResult)
    (h : aloneOnPort who (.advanceCell n target) ph s) :
    exec (.stateAdvanceComplete r) s = .next (settleFree (endCellAdvance who n target r s)) := by
  obtain ⟨k, hk⟩ := h.1
  show execStateAdvanceComplete r s = _
  rw [execStateAdvanceComplete, hk]

/-- R39: what the engine takes of its commit advance that ends DONE. -/
theorem endCellAdvance_committed {n : Nat} {w : StoreWork} (hw : s.engine.work = .store w) (hp : w.phase = .committing)
    (hc : cellCondition (s.array.cellAt n) = .readable) (hs : (s.array.cellAt n).state = .written) :
    endCellAdvance .engine n .committed .verified s =
    commitEvent ((portReleased s).setArray (s.array.putCell n { s.array.cellAt n with state := .committed })) := by
  have hwork : ((portReleased s).setArray (s.array.putCell n { s.array.cellAt n with
      state := .committed })).engine.work = .store w := hw
  have hnotFailed : ¬ ArrayOutcome.done = .failed := by decide
  simp only [endCellAdvance, CellArray.endCellAdvance_commit _ hc hs, tableCell, if_neg hnotFailed,
    engineCellAdvanceEnded, hwork, hp, if_true, storeCommitEnded]

section Commit

variable {c : Command} {w : StoreWork}

/-- R27: the index entry of the generation a STORE commits. -/
abbrev committedEntry (c : Command) (w : StoreWork) : IndexEntry :=
  { key := c.keyNum, seq := w.seq, len := c.lenNum, count := w.count, map := w.map }

/-- R54: the commit event of a key with no entry ends the STORE. -/
theorem commitEvent_new (hc : s.engine.cmd = some c) (hw : s.engine.work = .store w) (hb : s.settings.background = false)
    (hl : lookup c.keyNum s.index = none) : ∃ x, commitEvent s =
    finish .done c.keyNum c.lenNum (some w.seq) w.count
      ((s.setIndex (upsert (committedEntry c w) s.index)).setTable { s.table with recs := x }) := by
  obtain ⟨x, hx⟩ := modCells_table deadToLive w.map (s.setIndex (upsert (committedEntry c w) s.index))
  refine ⟨x, ?_⟩
  simp only [commitEvent, hc, hw, hl]
  rw [hx, evaluate_idle]
  · rfl
  · exact .inl hb

/-- R41, R55: the commit event of a key with an entry asks for the retirement of the old map. -/
theorem commitEvent_replaces {e : IndexEntry} (hc : s.engine.cmd = some c) (hw : s.engine.work = .store w)
    (hb : s.settings.background = false) (hl : lookup c.keyNum s.index = some e) (hmap : e.map ≠ []) :
    ∃ x, commitEvent s = (setWork (.store { w with phase := .retiring, oldMap := some e.map, toRetire := e.map })
      ((s.setIndex (upsert (committedEntry c w) s.index)).setTable x)).setCtl { s.ctl with
        waitEngine := some (.advanceCell (e.map.headD 0) .retired) } := by
  obtain ⟨x, hx⟩ := modCells_table deadToLive w.map (s.setIndex (upsert (committedEntry c w) s.index))
  obtain ⟨y, hy⟩ := modCells_table liveToDead e.map
    (modCells deadToLive w.map (s.setIndex (upsert (committedEntry c w) s.index)))
  have hmoved : modCells liveToDead e.map (modCells deadToLive w.map
      (s.setIndex (upsert (committedEntry c w) s.index))) =
      (s.setIndex (upsert (committedEntry c w) s.index)).setTable { s.table with recs := y } := by
    rw [hy, hx]
    rfl
  obtain ⟨head, rest, hcons⟩ := List.exists_cons_of_ne_nil hmap
  refine ⟨({ s.table with recs := y } : SectorTable).pinnedAt e.map, ?_⟩
  simp only [commitEvent, hc, hw, hl]
  rw [hmoved, evaluate_idle, pinCells_table]
  · simp only [hcons]
    rfl
  · exact .inl hb

/-- R41: the grant of a STORE's retirement moves the port alone. -/
theorem dropRemoval_store (hw : s.engine.work = .store w) : dropRemoval s = s := by
  simp only [dropRemoval, hw]
  cases s.engine.cmd <;> rfl

end Commit

end Sys2Proof.Machine

open Sys2Proof Sys2Proof.Machine

/-- Settles O55: `storeProgramEnded_done` on the cell that `endProgram_done` leaves. -/
theorem fragmentProgrammed : Obligations.FragmentProgrammed := by
  intro s c w p b h n halone hstate hc hw hphase hb hwf hcell hcheck hblank hh hn
  have himage : p.image = { header := .fields { h with check := headerCheck h }, state := p.state,
                            payload := padPayload (p.payload.take p.payLen) } := by
    have hpay : p.payCheckWritten = check16 (p.payload.take p.payLen) := by simp [Program.payCheckWritten, hcheck]
    rw [hh, ← hpay]
    rfl
  have hexec := exec_cellProgramComplete .verified halone
  rw [endProgram_done hblank] at hexec
  simp only [storeProgramEnded_done (s := (portReleased s).setArray (s.array.putCell p.cell p.image)) hc hw] at hexec
  refine ⟨s.array.putCell p.cell p.image, fun k => ?_, s.array.putCell_sectors _ _, fun hmore => ?_, fun hlast => ?_⟩
  · rw [← himage]
    exact s.array.cellAt_putCell _ _ _ hwf hcell
  · rw [if_pos hmore, fragmentProgram_succ hb hn, settleFree_alone_engine halone rfl] at hexec
    · exact hexec
    · simp [portReleased, setWork, modEngine, hstate]
    · rfl
    · exact fun _ => rfl
  · rw [if_neg (Nat.not_lt.mpr hlast), settleFree_alone_engine halone rfl] at hexec
    · exact hexec
    · simp [portReleased, setWork, modEngine, hstate]
    · rfl
    · exact fun _ => rfl

/-- Settles O56: `endProgram_failed_engine` and `storeProgramEnded_third`, whose ending nothing follows. -/
theorem failedProgramFaultyOrTorn : Obligations.FailedProgramFaultyOrTorn := by
  intro s c w p mark halone hstate hc hw hphase hnext hfails hwf hcell hblank hends hback hlen hdead
  have hsector : sectorOf p.cell < s.table.recs.length := by
    rw [hlen]
    exact Nat.div_lt_of_lt_mul hcell
  have hexec := exec_cellProgramComplete (.failed mark) halone
  rw [endProgram_failed_engine hblank hback, storeProgramEnded_third (c := c) (w := w),
    settleFree_alone_finish (c := c) halone hends] at hexec
  case hst => decide
  case hcmd | hc => exact hc
  case hw => exact hw
  case hn => exact hnext
  case hf => exact hfails
  case hctl | hcomps | hcmds | hreclaimer => simp [setWork, modEngine, cellFailed, modRec, useFree, portReleased]
  have hcellAt (k : Nat) := s.array.cellAt_putCell p.cell k
    (failedProgramCell mark (Config.programResidue s.free)) hwf hcell
  have hfaulty (x : Nat) := mem_faulty_cellFailed (s := (useFree (portReleased s)).setArray (s.array.putCell p.cell
    (failedProgramCell mark (Config.programResidue s.free)))) hsector hdead x
  refine ⟨_, hexec, fun hmark => ?_, fun hmark => ?_, fun k hk => ?_, ?_, ?_, fun x => ?_, ?_⟩
  · rw [hmark] at hcellAt ⊢
    exact (congrArg Cell.state ((hcellAt p.cell).trans (if_pos rfl))).trans (failedProgramCell_marked _)
  · rw [hmark] at hcellAt ⊢
    have hread := (hcellAt p.cell).trans (if_pos rfl)
    refine ⟨(congrArg cellCondition hread).trans (failedProgramCell_unmarked _).1, fun h => ?_⟩
    exact (failedProgramCell_unmarked _).2 ((congrArg Cell.state hread).symm.trans h)
  · exact (hcellAt k).trans (if_neg hk)
  · exact s.array.putCell_sectors _ _
  · rw [faulty_unpinned rfl]
    exact (hfaulty _).mpr (.inl rfl)
  · rw [faulty_unpinned rfl]
    exact hfaulty x
  · simp [State.ended, setWork, modEngine, cellFailed, modRec, useFree, portReleased, Command.keyNum]

/-- Settles O57: the two commit events, the first ending the STORE and the second asking for a retirement. -/
theorem commitEvent : Obligations.CommitEvent := by
  intro s c w head e halone hstate hc hw hphase hwf hhead hread hwritten hasc hback he hcases
  obtain rfl : e = committedEntry c w := he
  have hexec := exec_stateAdvanceComplete .verified halone
  rw [endCellAdvance_committed hw hphase hread hwritten] at hexec
  have hcellAt (k : Nat) := s.array.cellAt_putCell head k { s.array.cellAt head with state := .committed } hwf hhead
  have hindex (x : IndexEntry) := mem_upsert s.index hasc (committedEntry c w) x
  have hlookup := lookup_mem s.index hasc
  rcases hcases with ⟨habsent, hends⟩ | ⟨x, hx, hkey, hmap⟩
  · obtain ⟨recs, hcommit⟩ := commitEvent_new (s := (portReleased s).setArray (s.array.putCell head
      { s.array.cellAt head with state := .committed })) hc hw hback (lookup_absent s.index _ habsent)
    rw [hcommit, settleFree_alone_finish (c := c) halone hends] at hexec
    case hst => decide
    case hcmd => exact hc
    case hctl | hcomps | hcmds | hreclaimer => simp [portReleased]
    refine ⟨_, hexec, hcellAt, s.array.putCell_sectors _ _, hindex, ?_, ?_, fun _ => ?_,
      fun x hx hkey => absurd hkey (habsent x hx)⟩ <;> simp [State.ended, portReleased]
  · have hfound : lookup c.keyNum s.index = some x := by
      rw [← hlookup x hx, hkey]
    obtain ⟨table, hcommit⟩ := commitEvent_replaces (s := (portReleased s).setArray (s.array.putCell head
      { s.array.cellAt head with state := .committed })) hc hw hback hfound hmap
    rw [hcommit, settleFree_alone_engine halone rfl] at hexec
    case hph => rfl
    case hi => simp [setWork, modEngine, portReleased, hstate]
    case hg => exact fun _ => dropRemoval_store rfl
    refine ⟨_, hexec, hcellAt, s.array.putCell_sectors _ _, hindex, ?_, ?_, fun habsent => absurd hkey (habsent x hx),
      fun y hy hykey => ?_⟩
    · simp [setWork, modEngine, portReleased]
    · simp [setWork, modEngine, portReleased]
    · have hxy : x = y := Option.some.inj (by rw [← hlookup x hx, ← hlookup y hy, hkey, hykey])
      simp [setWork, modEngine, portReleased, hxy]

end

section
/-! The end of a relocation copy's program and of an erase phase (R15 to R17, R57, R96, R97). -/

namespace Sys2Proof.Machine

variable {s t : State}

/-! ### The erase phase (R15, R16) -/

theorem lookupCell_filter (p : Nat → Bool) (c : Nat) (l : List (Nat × Cell)) :
    lookupCell c (l.filter fun x => p x.1) = if p c then lookupCell c l else blankCell := by
  induction l with
  | nil => simp [lookupCell]
  | cons x rest ih =>
    obtain ⟨n, d⟩ := x
    by_cases hn : p n = true
    · by_cases hc : c = n
      · simp [lookupCell, hc, hn]
      · simp [lookupCell, hc, hn, ih]
    · by_cases hc : c = n
      · subst hc
        simp [hn, ih]
      · simp [lookupCell, hc, hn, ih]

/-- R15: every cell of an erased sector is blank, and every other cell reads as before. -/
theorem CellArray.cellAt_blankSector (a : CellArray) (n c : Nat) :
    (a.blankSector n).cellAt c = if sectorOf c = n then blankCell else a.cellAt c := by
  refine (lookupCell_filter (fun k => decide (sectorOf k ≠ n)) c a.cells).trans ?_
  by_cases h : sectorOf c = n <;> simp [h, CellArray.cellAt]

/-- R16: a blank verify that fails. -/
theorem CellArray.endErasePhase_failed (a : CellArray) (n use : Nat) :
    a.endErasePhase n false use = (a.disturbSector n use).putSector n .garbled := rfl

/-! ### Where the move cursor leads (R93, R100 to R102) -/

/-- R6, R8: the grant of a request of the Reclaimer that changes no cell and nothing beside the array. -/
def grantKeepsCells (op : ArrayOp) : Prop :=
  ∀ s : State, ∃ a, grantEffect .reclaimer op s = s.setArray a ∧ ∀ k, a.cellAt k = s.array.cellAt k

theorem grantKeepsCells_read (c : Nat) : grantKeepsCells (.read c) := fun s => ⟨s.array, rfl, fun _ => rfl⟩

theorem grantKeepsCells_worn (n : Nat) : grantKeepsCells (.advanceHeader n .worn) :=
  fun s => ⟨s.array, rfl, fun _ => rfl⟩

theorem grantKeepsCells_erase (n e k : Nat) : grantKeepsCells (.erase n e k) :=
  fun s => ⟨s.array.eraseMark n, rfl, fun _ => rfl⟩

/-- R93, R100 to R102: from `s` the Reclaimer has changed its own block and at most placed a request, and a relocation
in progress has only begun. -/
def CursorReached (s t : State) : Prop :=
  ∃ r w, t = (s.setReclaimer r).setCtl { s.ctl with waitReclaimer := w } ∧
    (∀ x, r.reloc = some x → x.reading = none ∧ x.copy = none ∧ x.refused = false) ∧
    ∀ op, w = some op → grantKeepsCells op

/-- R93: before it reaches the cursor the Reclaimer has no relocation in progress and no request waiting. -/
def CursorFree (s : State) : Prop := s.reclaimer.reloc = none ∧ s.ctl.waitReclaimer = none

theorem cursorReached_of_setReclaimer {x : Reclaimer} (h : CursorReached (s.setReclaimer x) t) : CursorReached s t := by
  obtain ⟨r, w, ht, hr, hw⟩ := h
  exact ⟨r, w, ht, hr, hw⟩

/-- Nothing more than a change of the Reclaimer's own block. -/
theorem cursorReached_setReclaimer {x : Reclaimer} (h : CursorFree s) (hx : x.reloc = none) :
    CursorReached s (s.setReclaimer x) := by
  refine ⟨x, none, ?_, by simp [hx], nofun⟩
  rw [← h.2]
  rfl

theorem cursorReached_self (h : CursorFree s) : CursorReached s s :=
  cursorReached_setReclaimer (x := s.reclaimer) h h.1

theorem startRelocation_reached (v p : Nat) : CursorReached s (startRelocation v p s) := by
  refine ⟨_, some (.read (v * 32 + p)), rfl, ?_, ?_⟩
  · rintro x ⟨⟩
    exact ⟨rfl, rfl, rfl⟩
  · rintro op ⟨⟩
    exact grantKeepsCells_read _

theorem enterErasing_reached (h : CursorFree s) : CursorReached s (enterErasing s) := by
  unfold enterErasing
  split
  · exact cursorReached_self h
  · rename_i v hv
    refine ⟨{ s.reclaimer with state := .erasing }, some _, rfl, by simp [h.1], ?_⟩
    rintro op ⟨⟩
    split
    · exact grantKeepsCells_worn v
    · exact grantKeepsCells_erase _ _ _

theorem endPass_reached (v : Nat) (h : CursorFree s) : CursorReached s (endPass v s) := by
  have hdrained : CursorFree (s.setReclaimer { s.reclaimer with state := .draining, cursor := 32 }) := h
  unfold endPass
  split
  · dsimp only
    split
    · exact cursorReached_setReclaimer h h.1
    · exact cursorReached_of_setReclaimer (enterErasing_reached hdrained)
  · split
    · exact startRelocation_reached v _
    · exact cursorReached_setReclaimer h h.1

theorem reachCursor_reached (h : CursorFree s) : CursorReached s (reachCursor s) := by
  unfold reachCursor
  split
  · exact cursorReached_self h
  · split
    · exact startRelocation_reached _ _
    · exact endPass_reached _ h

theorem endRelocation_reached (h : s.ctl.waitReclaimer = none) : CursorReached s (endRelocation s) :=
  cursorReached_of_setReclaimer (reachCursor_reached ⟨rfl, h⟩)

/-- R19: the request, if any, is granted at the free port, and no cell changes. -/
theorem settleFree_cursorReached (h : CursorReached s t) (hq : quiet s) (h1 : s.ctl.op = none) (h2 : s.ctl.paused = none)
    (h3 : s.ctl.waitEngine = none) (h4 : s.ctl.waitScanner = none) (h5 : s.ctl.quiesced = false) :
    ∃ r a c, settleFree t = ((s.setReclaimer r).setCtl c).setArray a ∧ (∀ k, a.cellAt k = s.array.cellAt k) ∧
      ∀ x, r.reloc = some x → x.reading = none ∧ x.copy = none ∧ x.refused = false := by
  obtain ⟨r, w, rfl, hr, hw⟩ := h
  cases w with
  | none =>
    refine ⟨r, s.array, { s.ctl with waitReclaimer := none }, ?_, fun _ => rfl, hr⟩
    exact settleFree_none (by simpa using hq) h1 h2 h3 rfl h4
  | some op =>
    obtain ⟨a, hgrant, hcells⟩ := hw op rfl ((s.setReclaimer r).setCtl { s.ctl with
      pass := 0, waitReclaimer := none, op := some (granted .reclaimer op) })
    refine ⟨r, a, { s.ctl with pass := 0, waitReclaimer := none, op := some (granted .reclaimer op) }, ?_, hcells, hr⟩
    have hquiet : quiet (grantReclaimer op ((s.setReclaimer r).setCtl { s.ctl with waitReclaimer := some op })) := by
      show quiet (grantEffect .reclaimer op ((s.setReclaimer r).setCtl { s.ctl with
        pass := 0, waitReclaimer := none, op := some (granted .reclaimer op) }))
      rw [hgrant]
      simpa using hq
    rw [settleFree_reclaimer op (by simpa using hq) hquiet h1 h2 rfl h3 h4 h5]
    exact hgrant

/-- R19: the request the Reclaimer placed in the event is granted, where its grant moves the port alone. -/
theorem settleFree_alone_reclaimer {who : Requester} {op next : ArrayOp} {ph : Phase} (h : aloneOnPort who op ph s)
    (hc : t.ctl = { s.ctl with op := none, waitReclaimer := some next }) (hq : quiet t) (hph : firstPhase next = .single)
    (hg : ∀ c, grantEffect .reclaimer next (t.setCtl c) = t.setCtl c) :
    settleFree t = t.setCtl { s.nowOnPort .reclaimer next with pass := 0 } := by
  obtain ⟨-, hpaused, hengine, hreclaimer, hscanner, hquiesced⟩ := h
  have hgrant : grantReclaimer next t = t.setCtl { s.nowOnPort .reclaimer next with pass := 0 } := by
    refine (hg _).trans (congrArg t.setCtl ?_)
    simp [hc, State.nowOnPort, Controller.setWaiting, granted, hph, hreclaimer]
  rw [← hgrant]
  exact settleFree_reclaimer next hq (by rw [hgrant]; simpa using hq) (by rw [hc]) (by rw [hc]; exact hpaused)
    (by rw [hc]) (by rw [hc]; exact hengine) (by rw [hc]; exact hscanner) (by rw [hc]; exact hquiesced)

/-! ### The conditional map update (R57) -/

/-- R57: an index that holds the entry with the source in its place accepts the move. -/
theorem acceptsMove_of_mem {l : List IndexEntry} {e : IndexEntry} {f source : Nat} (hasc : ascendingKeys l) (he : e ∈ l)
    (hmap : e.map[f]? = some source) : acceptsMove e.key e.seq f source l = true := by
  simp [acceptsMove, lookup_mem l hasc e he, hmap]

/-- R57: an index with no such entry refuses the move. -/
theorem acceptsMove_of_forall {l : List IndexEntry} {key seq f source : Nat}
    (h : ∀ e ∈ l, e.key = key → e.seq = seq → e.map[f]? ≠ some source) : acceptsMove key seq f source l = false := by
  unfold acceptsMove
  split
  · rename_i e he
    have hmem := List.mem_of_find?_eq_some he
    have hkey : e.key = key := by simpa using List.find?_some he
    by_cases hseq : e.seq = seq
    · simp [h e hmem hkey hseq]
    · simp [hseq]
  · rfl

section Copy

variable {copy source : Nat} {o : ReadOutcome} {h : CellHeader} {refused : Bool}

/-- R57: an accepted update moves the map's place to the copy, and counts of the Sector Table. -/
theorem conditionalUpdate_accepted (ho : o.header = some h) (ha : acceptsMove h.key h.seq h.frag source s.index = true) :
    ∃ x, conditionalUpdate copy source o s =
      (true, (s.setIndex (moveInMap h.key h.frag copy s.index)).setTable { s.table with recs := x }) := by
  obtain ⟨x, hx⟩ := modCells_table deadToLive [copy] (s.setIndex (moveInMap h.key h.frag copy s.index))
  obtain ⟨y, hy⟩ := modCells_table liveToDead [source]
    ((s.setIndex (moveInMap h.key h.frag copy s.index)).setTable { s.table with recs := x })
  refine ⟨y, ?_⟩
  simp only [conditionalUpdate, ho, Option.getD_some, ha, if_true]
  rw [hx]
  exact congrArg (Prod.mk true) hy

theorem conditionalUpdate_refused (ho : o.header = some h) (ha : acceptsMove h.key h.seq h.frag source s.index = false) :
    conditionalUpdate copy source o s = (false, s) := by
  simp [conditionalUpdate, ho, ha]

/-- R96: an accepted copy ends the relocation. -/
theorem reclaimerProgramEnded_accepted (hb : s.reclaimer.barred = false)
    (hr : s.reclaimer.reloc = some { source := source, reading := some o, copy := some copy, refused := refused })
    (ho : o.header = some h) (ha : acceptsMove h.key h.seq h.frag source s.index = true) :
    ∃ x, reclaimerProgramEnded .done s =
      endRelocation ((s.setIndex (moveInMap h.key h.frag copy s.index)).setTable { s.table with recs := x }) := by
  obtain ⟨x, hx⟩ := conditionalUpdate_accepted (copy := copy) ho ha
  refine ⟨x, ?_⟩
  simp [reclaimerProgramEnded, hr, hx, stopping, hb]

/-- R97: a refused copy is to be retired. -/
theorem reclaimerProgramEnded_refused (hb : s.reclaimer.barred = false)
    (hr : s.reclaimer.reloc = some { source := source, reading := some o, copy := some copy, refused := refused })
    (ho : o.header = some h) (ha : acceptsMove h.key h.seq h.frag source s.index = false) :
    reclaimerProgramEnded .done s = (s.setReclaimer { s.reclaimer with
      reloc := some { source := source, reading := some o, copy := some copy, refused := true } }).setCtl
        { s.ctl with waitReclaimer := some (.advanceCell copy .retired) } := by
  have hupdate := conditionalUpdate_refused (copy := copy) ho ha
  simp only [reclaimerProgramEnded, hr, if_true, hupdate, stopping, hb, Bool.false_and, Bool.false_eq_true, if_false,
    retireCopy, modReclaimer, Option.map_some]
  rfl

end Copy

end Sys2Proof.Machine

open Sys2Proof Sys2Proof.Machine

/-- Settles O59: the two answers of the blank verify. -/
theorem erasePhaseEnds : Obligations.ErasePhaseEnds := by
  intro s who n epoch erases k passed hwf hn hop
  have hexec (b : Bool) : exec (.erasePhaseEnd b) s = .next
      (((if b then s else useFree s).setArray (s.array.endErasePhase n b s.free)).setCtl { s.ctl with
        op := some { who := who, op := .erase n epoch erases, phase := .headerPhase b, suspendCount := k } }) := by
    show execErasePhaseEnd b s = _
    rw [execErasePhaseEnd, hop]
  have hlen : n < s.array.sectors.length := by rw [hwf.2.2]; exact hn
  cases passed with
  | true =>
    refine ⟨s.array.endErasePhase n true s.free, s.free, hexec true, fun _ => ⟨rfl, ?_, fun c hc => ?_⟩, nofun,
      fun c hc => ?_, fun m hm => ?_⟩
    · exact (s.array.blankSector n).sectorAt_putSector_same n .erased hlen
    · exact (s.array.cellAt_blankSector n c).trans (if_pos hc)
    · exact (s.array.cellAt_blankSector n c).trans (if_neg hc)
    · exact (s.array.blankSector n).sectorAt_putSector_other n m .erased hm
  | false =>
    have hsectors := s.array.disturbSector_sectors n s.free
    refine ⟨s.array.endErasePhase n false s.free, s.free + 1, hexec false, nofun, fun _ => ?_, fun c hc => ?_,
      fun m hm => ?_⟩
    · exact (s.array.disturbSector n s.free).sectorAt_putSector_same n .garbled (hsectors ▸ hlen)
    · exact s.array.disturbSector_cellAt n s.free c hwf hc
    · rw [CellArray.endErasePhase_failed, CellArray.sectorAt_putSector_other _ _ _ _ hm]
      exact congrArg (fun l : List SectorArea => l.getD m .garbled) hsectors

/-- Settles O58: the accepted update by `endRelocation_reached`, the refused one by the grant of its retirement. -/
theorem copyProgrammed : Obligations.CopyProgrammed := by
  intro s p source o h refused halone hbarred hreloc ho hwf hcell hblank hasc hq
  have hexec := exec_cellProgramComplete .verified halone
  rw [endProgram_done hblank] at hexec
  have himage (k : Nat) := s.array.cellAt_putCell p.cell k p.image hwf hcell
  refine ⟨fun e he hkey hseq hmap => ?_, fun hrefused => ?_⟩
  · have haccept : acceptsMove h.key h.seq h.frag source s.index = true := by
      rw [← hkey, ← hseq]
      exact acceptsMove_of_mem hasc he hmap
    obtain ⟨recs, hended⟩ := reclaimerProgramEnded_accepted (s := (portReleased s).setArray
      (s.array.putCell p.cell p.image)) hbarred hreloc ho haccept
    obtain ⟨-, hpaused, hengine, hreclaimer, hscanner, hquiesced⟩ := halone
    obtain ⟨r, a, c, hsettled, hcells, hfresh⟩ := settleFree_cursorReached (endRelocation_reached
      (s := (((portReleased s).setArray (s.array.putCell p.cell p.image)).setIndex
        (moveInMap h.key h.frag p.cell s.index)).setTable { s.table with recs := recs }) hreclaimer)
      (by simpa [portReleased] using hq) rfl hpaused hengine hscanner hquiesced
    have hcellAt (k : Nat) := (hcells k).trans (himage k)
    refine ⟨_, hexec.trans (congrArg Host.Outcome.next ((congrArg settleFree hended).trans hsettled)), ?_⟩
    refine ⟨(hcellAt p.cell).trans (if_pos rfl), fun k hk => (hcellAt k).trans (if_neg hk), fun x => ?_,
      keys_moveInMap s.index h.key h.frag p.cell, ?_, ?_, ?_, ?_, hfresh⟩
    case refine_1 => exact hkey ▸ mem_moveInMap s.index hasc e h.frag p.cell he x
    all_goals simp [portReleased]
  · refine ⟨_, ?_, (himage p.cell).trans (if_pos rfl), fun k hk => (himage k).trans (if_neg hk)⟩
    have hended := reclaimerProgramEnded_refused (s := (portReleased s).setArray (s.array.putCell p.cell p.image))
      hbarred hreloc ho (acceptsMove_of_forall hrefused)
    refine hexec.trans (congrArg Host.Outcome.next ((congrArg settleFree hended).trans ?_))
    rw [settleFree_alone_reclaimer halone rfl]
    case hq => simpa [portReleased] using hq
    case hg => exact fun _ => rfl
    all_goals rfl

end

section
/-! The header reads of the recovery scan (R173 to R185). -/

namespace Sys2Proof.Machine

variable {s t : State}

/-- R116: of the engine, whether it takes a command is read from its state alone. -/
theorem quiet_of_engineState (h : quiet s) (h1 : t.cmds.queue = s.cmds.queue) (h2 : t.engine.state = s.engine.state)
    (h3 : t.power = s.power) : quiet t := by
  have hready : t.deviceReady = s.deviceReady := by simp only [State.deviceReady, State.running, State.held, h3]
  simpa only [quiet, h1, h2, hready] using h

/-- R19: the request the scanner placed in the event is granted, where its grant moves the port alone. -/
theorem settleFree_alone_scanner {who : Requester} {op next : ArrayOp} {ph : Phase} (h : aloneOnPort who op ph s)
    (hc : t.ctl = { s.ctl with op := none, waitScanner := some next }) (hq : quiet t)
    (hg : ∀ c, grantEffect .scanner next (t.setCtl c) = t.setCtl c) :
    settleFree t = t.setCtl { s.ctl with op := some (granted .scanner next) } := by
  obtain ⟨-, hpaused, -, -, hscanner, hquiesced⟩ := h
  have hgrant : grant .scanner next t = t.setCtl { s.ctl with op := some (granted .scanner next) } := by
    refine (hg _).trans (congrArg t.setCtl ?_)
    simp [hc, Controller.setWaiting, hscanner]
  rw [← hgrant]
  exact settleFree_scanner next hq (by rw [hgrant]; simpa using hq) (by rw [hc]) (by rw [hc]; exact hpaused) (by rw [hc])
    (by rw [hc]; exact hquiesced)

/-! ### Step 1 (R173) -/

/-- R6, R173: the finding and the record follow from what the header area holds. -/
theorem headerTaken_eq {a : CellArray} {n : Nat} {r r' : SectorRec} {f : HeaderFound}
    (h : headerTaken (a.sectorAt n) r f r') : f = a.readHeader n ∧ r' = headerRec f r := by
  unfold CellArray.readHeader
  rcases h with ⟨x, hx, hcheck, hepoch, rfl, rfl⟩ | ⟨hx, rfl, rfl⟩ | ⟨hx | ⟨x, hx, hbad⟩, rfl, rfl⟩
  · have hreadable : readableSector (.fields x) = some x := if_pos ⟨hcheck, hepoch⟩
    simp [hx, hreadable, headerRec]
  · simp [hx, headerRec]
  · simp [hx, headerRec, readableSector]
  · have hunreadable : readableSector (.fields x) = none := if_neg fun ⟨hcheck, hepoch⟩ =>
      hbad.elim (absurd hcheck) (Nat.ne_of_gt hepoch)
    simp [hx, hunreadable, headerRec]

/-- R8: what takes the end of a header read. -/
theorem exec_headerReadComplete {who : Requester} {n : Nat} {ph : Phase} (h : aloneOnPort who (.headerRead n) ph s) :
    exec .headerReadComplete s =
      .next (settleFree (scanHeaderEnded n (s.array.readHeader n) (portReleased s))) := by
  obtain ⟨k, hk⟩ := h.1
  show execHeaderReadComplete s = _
  rw [execHeaderReadComplete, hk]

/-- R173: a header read before the last asks for the next. -/
theorem scanHeaderEnded_before {n : Nat} {f : HeaderFound} (h : n + 1 < 32) : scanHeaderEnded n f s =
    scanHeader (n + 1) ((modRec n (headerRec f) s).setScanner
      { s.scanner with headers := s.scanner.headers.set n f }) := if_pos h

/-- R173, R174: the last header read begins step 2. -/
theorem scanHeaderEnded_last {n : Nat} {f : HeaderFound} (h : ¬ n + 1 < 32) : scanHeaderEnded n f s =
    scanEpoch ((modRec n (headerRec f) s).setScanner { s.scanner with headers := s.scanner.headers.set n f }) :=
  if_neg h

/-! ### The scan of an array of blank headers (R174, R175, R181 to R185) -/

/-- R174: with no readable header the epoch is 1, and no record is old. -/
theorem scanEpoch_blank (hh : s.scanner.headers = List.replicate 32 .blank) :
    scanEpoch s = scanCells 0 (s.setEngine { s.engine with epoch := 1 }) := by
  have hrec (n : Nat) (r : SectorRec) : epochRec 1 (s.scanner.headers.getD n .unread) r = r := by
    rw [hh, List.getD_eq_getElem?_getD, List.getElem?_replicate]
    split <;> rfl
  have hrecs : (s.table.recs.mapIdx fun n r => epochRec 1 (s.scanner.headers.getD n .unread) r) = s.table.recs := by
    exact List.ext_getElem (by simp) fun n h1 h2 => by rw [List.getElem_mapIdx, hrec]
  have hepoch : highestEpoch s.scanner.headers = 1 := by rw [hh]; rfl
  simp only [scanEpoch, hepoch, hrecs]
  rfl

/-- R175: no cell of a sector with a blank header is read. -/
theorem scanCells_blank (h : ∀ m < 32, (s.recAt m).state = .blankHeader) :
    scanCells 0 s = scanRecords (settleReclaiming s) := by
  have hfind : ((List.range Config.cells).find? fun k => decide (0 ≤ k) && readInStep3 s (sectorOf k)) = none := by
    refine List.find?_eq_none.mpr fun k hk => ?_
    have hcell : k < 1024 := by simpa [Config.cells] using hk
    have hsector : sectorOf k < 32 := by
      show k / 32 < 32
      omega
    simp [readInStep3, h _ hsector]
  unfold scanCells
  rw [hfind]

theorem reclaimingSectors_blank (h : ∀ m < 32, (s.recAt m).state = .blankHeader) : reclaimingSectors s = [] := by
  refine List.filter_eq_nil_iff.mpr fun n hn => ?_
  simp [h n (List.mem_range.mp hn)]

/-- R176 to R182: with no cell found step 4 has nothing to settle, and the index is empty. -/
theorem scanRecords_empty (hf : s.scanner.found = []) (hr : reclaimingSectors s = []) :
    scanRecords (settleReclaiming s) =
    scanSectors 0 (((s.setScanner { s.scanner with retire := [], chosen := [] }).setIndex []).setEngine
      { s.engine with seqNext := 1 }) := by
  have hsettled : settleReclaiming s = s := by simp only [settleReclaiming, hr]
  have hmembers : membersOf s = [] := by simp only [membersOf, hf, List.filterMap_nil]
  have hvictim : unmarkedVictim s [] = none := rfl
  have hnext : nextSequence s.scanner.found = 1 := by rw [hf]; rfl
  rw [hsettled]
  simp only [scanRecords, hmembers, hr, hvictim, if_true, List.head?_nil]
  show scanIndex (s.setScanner { s.scanner with retire := [], chosen := [] }) = _
  simp only [scanIndex, State.setScanner_scanner, hnext]
  rfl

/-- R184, R185: step 7 restores the header of S0 first. -/
theorem scanSectors_restores (h : (s.recAt 0).state = .blankHeader) (hh : s.scanner.headers = List.replicate 32 .blank) :
    scanSectors 0 s = (s.setScanner { s.scanner with step := .sectors, pos := 0 }).setCtl
      { s.ctl with waitScanner := some (.restoreHeader 0 s.engine.epoch 0) } := by
  have herases : highestErases s.scanner.headers = 0 := by rw [hh]; rfl
  have hwork : sectorWork s 0 = some (.restoreHeader 0 s.engine.epoch 0) := by simp only [sectorWork, h, herases]
  have hnext : nextSectorWork s 0 = some (0, .restoreHeader 0 s.engine.epoch 0) := by
    have hrange : List.range 32 = 0 :: (List.range 31).map (· + 1) := List.range_succ_eq_map
    simp [nextSectorWork, hrange, hwork]
  simp only [scanSectors, hnext]
  rfl

/-- R174 to R185: what follows the last header read on an array of blank headers. -/
theorem scanEpoch_restores (hh : s.scanner.headers = List.replicate 32 .blank) (hf : s.scanner.found = [])
    (h : ∀ m < 32, (s.recAt m).state = .blankHeader) : scanEpoch s =
    (((s.setIndex []).setEngine { s.engine with epoch := 1, seqNext := 1 }).setScanner
      { s.scanner with step := .sectors, pos := 0, retire := [], chosen := [] }).setCtl
        { s.ctl with waitScanner := some (.restoreHeader 0 1 0) } := by
  rw [scanEpoch_blank hh, scanCells_blank, scanRecords_empty, scanSectors_restores]
  · rfl
  · exact h 0 (by decide)
  · exact hh
  · exact hf
  · exact reclaimingSectors_blank h
  · exact h

end Sys2Proof.Machine

open Sys2Proof Sys2Proof.Machine

/-- Settles O54: a header read before the last by `headerTaken_eq`, the last one by `scanEpoch_restores`. -/
theorem headerReadsTaken : Obligations.HeaderReadsTaken := by
  intro s hq hlen
  refine ⟨fun n f r halone hn htaken => ?_, fun halone herased hfound hblank hheaders => ?_⟩
  · obtain ⟨rfl, rfl⟩ := headerTaken_eq htaken
    have hrecs (m : Nat) := recAt_modRec s n m (headerRec (s.array.readHeader n)) (hlen ▸ Nat.lt_of_succ_lt hn)
    refine ⟨_, ?_, hrecs⟩
    rw [exec_headerReadComplete halone, scanHeaderEnded_before hn, settleFree_alone_scanner halone rfl]
    · rfl
    · simpa [scanHeader, placeWaiting, modScanner, modRec, portReleased] using hq
    · exact fun _ => rfl
  · have hread : s.array.readHeader 31 = .blank := by simp [CellArray.readHeader, herased]
    have hrecs (m : Nat) := recAt_modRec s 31 m (headerRec .blank) (by rw [hlen]; decide)
    have hall : s.scanner.headers.set 31 .blank = List.replicate 32 .blank := by
      refine List.eq_replicate_iff.mpr ⟨by simpa using hheaders, fun x hx => ?_⟩
      obtain ⟨m, hm, rfl⟩ := List.getElem_of_mem hx
      have hm32 : m < 32 := by simpa [hheaders] using hm
      rw [List.getElem_set]
      split
      · rfl
      · have hfinding := (hblank m (by omega)).2
        rwa [List.getD_eq_getElem _ _ (by omega)] at hfinding
    refine ⟨_, ?_, hrecs⟩
    rw [exec_headerReadComplete halone, hread, scanHeaderEnded_last (by decide), scanEpoch_restores,
      settleFree_alone_scanner halone rfl]
    · rfl
    · refine quiet_of_engineState hq ?_ ?_ ?_ <;> simp [modRec, portReleased]
    · exact fun _ => rfl
    · exact hall
    · exact hfound
    · intro m hm
      refine (congrArg SectorRec.state (hrecs m)).trans ?_
      split
      · rfl
      · exact (hblank m (by omega)).1

end

section
/-! The ends of the Reclaimer's erase and of the scan's last header restoration (R15, R16, R67, R79, R81, R103, R106,
R185 to R193). -/

namespace Sys2Proof.Machine

variable {s t : State}

/-! ### The header phase (R15, R16) -/

/-- R15: a header phase that verifies after a blank verify that passed. -/
theorem CellArray.endHeaderPhase_done (a : CellArray) (n epoch erases : Nat) :
    a.endHeaderPhase n epoch erases true .verified = (a.putSector n (writtenHeader .ready epoch erases), .done) := rfl

/-- R16: an erase that FAILED writes the header of its sector alone. -/
theorem CellArray.endHeaderPhase_failed (a : CellArray) (n epoch erases : Nat) {passed : Bool} {r : EraseResult}
    (h : ¬ (passed = true ∧ r = .verified)) :
    ∃ x, a.endHeaderPhase n epoch erases passed r = (a.putSector n x, .failed) := by
  unfold CellArray.endHeaderPhase
  rw [if_neg h]
  exact ⟨_, rfl⟩

/-- R8: what takes the end of an erase in its header phase. -/
theorem exec_sectorEraseComplete {who : Requester} {n epoch erases : Nat} {passed : Bool} (r : EraseResult)
    (h : aloneOnPort who (.erase n epoch erases) (.headerPhase passed) s) :
    exec (.sectorEraseComplete r) s = .next (settleFree (endErase who false n epoch erases passed r s)) := by
  obtain ⟨k, hk⟩ := h.1
  show execSectorEraseComplete r s = _
  rw [execSectorEraseComplete, hk]

/-- R8: what takes the end of a header restoration. -/
theorem exec_sectorEraseComplete_restore {who : Requester} {n epoch erases : Nat} {passed : Bool} (r : EraseResult)
    (h : aloneOnPort who (.restoreHeader n epoch erases) (.headerPhase passed) s) :
    exec (.sectorEraseComplete r) s = .next (settleFree (endErase who true n epoch erases passed r s)) := by
  obtain ⟨k, hk⟩ := h.1
  show execSectorEraseComplete r s = _
  rw [execSectorEraseComplete, hk]

/-! ### The Reclaimer's erase (R67, R79, R103, R106) -/

section ReclaimerErase

variable {n epoch erases : Nat}

/-- R67, R79: the records after the Reclaimer's erase that ended DONE. -/
theorem recAt_eraseEnded_done (hn : n < s.table.recs.length) (m : Nat) :
    (eraseEnded .reclaimer n epoch erases .done s).recAt m = if m = n then { s.recAt n with
      state := .ready, epoch := epoch, erases := erases, faulty := [], blank := 32, live := 0, dead := 0,
      faultyCount := 0, role := .readyQueued } else s.recAt m :=
  recAt_modRec s n m _ hn

/-- R67, R68: the records after an erase that FAILED. -/
theorem recAt_eraseEnded_failed {who : Requester} (hn : n < s.table.recs.length) (m : Nat) :
    (eraseEnded who n epoch erases .failed s).recAt m =
      if m = n then wornRec { s.recAt n with epoch := epoch, erases := erases } else s.recAt m := by
  have hlen : n < (modRec n (fun r => { r with epoch := epoch, erases := erases }) s).table.recs.length := by
    simpa [modRec] using hn
  refine (recAt_modRec _ n m wornRec hlen).trans ?_
  rw [recAt_modRec _ _ _ _ hn, recAt_modRec _ _ _ _ hn]
  by_cases h : m = n <;> simp [h]

/-- R103, R106: the Reclaimer, with no request and background reclaim off, ends IDLE. -/
theorem reclaimerEraseEnded_idle (hb : s.reclaimer.barred = false) (hr : s.reclaimer.request = .none)
    (hg : s.settings.background = false) : reclaimerEraseEnded s = s.setReclaimer resetReclaimer := by
  have hidle : enterIdle s = evaluate (s.setReclaimer { resetReclaimer with barred := s.reclaimer.barred }) := by
    simp only [enterIdle, hr]
    rfl
  have hstop : stopping s = false := by simp [stopping, hb]
  rw [reclaimerEraseEnded, hstop, if_neg (by decide), hidle, hb]
  exact evaluate_idle (.inl hg)

/-- R67: the end of an erase leaves the settings and the Reclaimer. -/
theorem eraseEnded_keeps (who : Requester) (out : ArrayOutcome) :
    (eraseEnded who n epoch erases out s).settings = s.settings ∧
      (eraseEnded who n epoch erases out s).reclaimer = s.reclaimer := by
  unfold eraseEnded
  split
  · split <;> exact ⟨rfl, rfl⟩
  all_goals exact ⟨rfl, rfl⟩

/-- R67, R103: the Sector Table takes the end of the Reclaimer's erase, and the Reclaimer is IDLE. -/
theorem endErase_reclaimer {passed : Bool} {r : EraseResult} {a : CellArray} {out : ArrayOutcome}
    (ha : s.array.endHeaderPhase n epoch erases passed r = (a, out)) (hb : s.reclaimer.barred = false)
    (hr : s.reclaimer.request = .none) (hg : s.settings.background = false) :
    endErase .reclaimer false n epoch erases passed r s =
      (eraseEnded .reclaimer n epoch erases out ((portReleased s).setArray a)).setReclaimer resetReclaimer := by
  obtain ⟨hsettings, hreclaimer⟩ := eraseEnded_keeps (s := (portReleased s).setArray a) (n := n) (epoch := epoch)
    (erases := erases) .reclaimer out
  simp only [endErase, ha]
  rw [evaluate_idle (.inl (hsettings ▸ hg)),
    reclaimerEraseEnded_idle (hreclaimer ▸ hb) (hreclaimer ▸ hr) (hsettings ▸ hg)]

end ReclaimerErase

/-! ### Reports (R193) -/

/-- R193: the ring and the lost-report count after a report. -/
def Scanner.reported (c : Scanner) (r : Report) : Scanner :=
  { c with ring := if c.ring.length < 8 then c.ring ++ [r] else c.ring.tail ++ [r]
           lost := if c.ring.length < 8 then c.lost else min 255 (c.lost + 1) }

theorem report_eq (r : Report) (s : State) : report r s = s.setScanner (s.scanner.reported r) := by
  unfold report Scanner.reported
  split <;> simp [*]

/-! ### Steps 7 to 10 on a fresh part (R81, R184, R187 to R191) -/

/-- R185: the record of a sector whose header a fresh part's scan restored. -/
def restoredRec : SectorRec :=
  { state := .ready, epoch := 1, erases := 0, role := .none, blank := 0, live := 0, dead := 32, faultyCount := 0,
    faulty := [], pinned := false }

/-- R81: the record of a sector in the ready-sector queue of a fresh part. -/
def queuedRec : SectorRec :=
  { state := .ready, epoch := 1, erases := 0, role := .readyQueued, blank := 32, live := 0, dead := 0,
    faultyCount := 0, faulty := [], pinned := false }

theorem recAt_of_replicate {r : SectorRec} (h : s.table.recs = List.replicate 32 r) {n : Nat} (hn : n < 32) :
    s.recAt n = r := by
  rw [State.recAt, h, List.getD_eq_getElem _ _ (by simpa using hn)]
  exact List.getElem_replicate _

theorem recs_eq_replicate {r : SectorRec} (hlen : s.table.recs.length = 32) (h : ∀ n < 32, s.recAt n = r) :
    s.table.recs = List.replicate 32 r := by
  refine List.eq_replicate_iff.mpr ⟨hlen, fun x hx => ?_⟩
  obtain ⟨n, hn, rfl⟩ := List.getElem_of_mem hx
  rw [← h n (hlen ▸ hn), State.recAt, List.getD_eq_getElem _ _ hn]

/-- R184: past the last sector step 8 begins. -/
theorem scanSectors_past : scanSectors 32 s = scanAllocation s := by
  have hnext : nextSectorWork s 32 = none := by
    refine List.findSome?_eq_none_iff.mpr fun k hk => if_neg ?_
    exact Nat.not_le.mpr (List.mem_range.mp hk)
  unfold scanSectors
  rw [hnext]

/-- R188: no READY sector qualifies as the open sector. -/
theorem chooseOpen_restored (h : s.table.recs = List.replicate 32 restoredRec) : chooseOpen s = none := by
  have hnone : (List.range 32).filter (canOpen s) = [] := by
    refine List.filter_eq_nil_iff.mpr fun n hn => ?_
    simp [canOpen, recAt_of_replicate h (List.mem_range.mp hn), restoredRec]
  simp only [chooseOpen, hnone, bestOpen]

/-- R187: with an empty index and no open sector the counts of a restored sector stay as they are. -/
theorem countedRec_restored (n : Nat) : countedRec [] none 32 n restoredRec = restoredRec := by
  simp [countedRec, restoredRec, isNamed]

theorem foldl_modRec (f : SectorRec → SectorRec) (l : List Nat) (s : State) :
    l.foldl (fun s n => modRec n f s) s =
      s.setTable { s.table with recs := l.foldl (fun recs n => recs.modify n f) s.table.recs } := by
  induction l generalizing s with
  | nil => rfl
  | cons n rest ih => exact ih (modRec n f s)

/-- R81: sectors of one erase count are queued in ascending number. -/
theorem rebuildOrder_restored (h : s.table.recs = List.replicate 32 restoredRec) : rebuildOrder s = List.range 32 := by
  have hrec (n : Nat) (hn : n ∈ List.range 32) : s.recAt n = restoredRec :=
    recAt_of_replicate h (List.mem_range.mp hn)
  have hall : ((List.range 32).filter fun n =>
      decide ((s.recAt n).state = .ready) && decide ((s.recAt n).role ≠ .isOpen)) = List.range 32 :=
    List.filter_eq_self.mpr fun n hn => by rw [hrec n hn]; rfl
  unfold rebuildOrder
  rw [hall]
  refine List.Pairwise.insertionSort_eq (List.Pairwise.imp_of_mem (fun hm hn hlt => ?_) List.pairwise_lt_range)
  rw [hrec _ hm, hrec _ hn]
  exact .inr ⟨rfl, Nat.le_of_lt hlt⟩

theorem foldl_queued : (List.range 32).foldl (fun recs n => recs.modify n fun r => { r with
    role := .readyQueued, blank := 32, live := 0, dead := 0, faultyCount := 0, faulty := [] })
      (List.replicate 32 restoredRec) = List.replicate 32 queuedRec := by decide

/-- R81: the rebuild of a fresh part queues every sector. -/
theorem rebuildQueue_restored (h : s.table.recs = List.replicate 32 restoredRec) : rebuildQueue s =
    s.setTable { s.table with recs := List.replicate 32 queuedRec, queue := List.range 32 } := by
  unfold rebuildQueue
  rw [rebuildOrder_restored h]
  dsimp only
  rw [foldl_modRec, h, foldl_queued]
  rfl

/-- R81, R187 to R189: step 8 queues every sector of a fresh part. -/
theorem scanAllocation_restored (h : s.table.recs = List.replicate 32 restoredRec) (hi : s.index = []) :
    scanAllocation s = scanReady (s.setTable { s.table with
      recs := List.replicate 32 queuedRec, cursor := 32, queue := List.range 32, claims := [] }) := by
  have hcounted : (s.table.recs.mapIdx fun n r => countedRec [] none 32 n r) = List.replicate 32 restoredRec := by
    rw [h]
    refine List.ext_getElem (by simp) fun n h1 h2 => ?_
    rw [List.getElem_mapIdx, List.getElem_replicate, countedRec_restored]
  simp only [scanAllocation, chooseOpen_restored h, hi, hcounted]
  rw [rebuildQueue_restored rfl]
  rfl

/-- R86: with no eligible victim an evaluation point changes nothing. -/
theorem evaluate_noVictim (h : ∀ n, ¬ eligibleVictim s n) : evaluate s = s := by
  unfold evaluate
  split
  · rw [chooseVictim_none h]
  · rfl

/-- R86: before READY an evaluation point changes nothing. -/
theorem evaluate_notReady (h : s.power.isReady = false) : evaluate s = s := by
  unfold evaluate
  rw [if_neg (by simp [backgroundDue, State.deviceReady, h])]

/-- R191: with every sector queued there is no RECLAIMING sector to hand over and no victim. -/
theorem scanHandOver_queued (h : s.table.recs = List.replicate 32 queuedRec) : scanHandOver s = s := by
  have hrec (n : Nat) (hn : n < 32) : s.recAt n = queuedRec := recAt_of_replicate h hn
  have hfind : ((List.range 32).find? fun n => decide ((s.recAt n).state = .reclaiming) &&
      decide ((s.recAt n).epoch = s.engine.epoch)) = none :=
    List.find?_eq_none.mpr fun n hn => by rw [hrec n (List.mem_range.mp hn)]; simp [queuedRec]
  have hvictim (n : Nat) : ¬ eligibleVictim s n := fun ⟨hn, _, hstate, _⟩ => by
    rw [hrec n hn] at hstate
    exact absurd hstate (by decide)
  unfold scanHandOver
  rw [hfind]
  exact evaluate_noVictim hvictim

/-- R77: with every sector queued there is no open sector. -/
theorem openSector_queued (h : s.table.recs = List.replicate 32 queuedRec) : s.openSector = none := by
  unfold State.openSector
  rw [h]
  rfl

/-- R190: READY, where nothing is handed over. -/
theorem scanReady_queued (h : s.table.recs = List.replicate 32 queuedRec) : scanReady s =
    ((s.setPower { s.power with isReady := true }).setScanner { resetScanner s.scanner.cause with
      step := .finished, ring := s.scanner.ring, lost := s.scanner.lost }).setIrq { s.irq with ready := true } :=
  scanHandOver_queued (s := ((s.setPower { s.power with isReady := true }).setScanner { resetScanner s.scanner.cause with
    step := .finished, ring := s.scanner.ring, lost := s.scanner.lost }).setIrq { s.irq with ready := true }) h

/-- R185, R193: the end of a header restoration before READY: the record, the report, and step 7 from the next sector. -/
theorem endErase_restored {n epoch : Nat} (hr : s.power.isReady = false) :
    endErase .scanner true n epoch 0 true .verified s = scanSectors (n + 1)
      ((modRec n (fun r => { r with
        state := .ready, epoch := epoch, erases := 0, faulty := [], blank := 0, live := 0, dead := 32,
        faultyCount := 0, role := .none })
        ((portReleased s).setArray (s.array.putSector n (writtenHeader .ready epoch 0)))).setScanner
          (s.scanner.reported { kind := .headerRestored, num := n, key := none, seq := none })) := by
  simp only [endErase, CellArray.endHeaderPhase_done]
  rw [evaluate_notReady (by exact hr)]
  simp only [scanRestoreEnded, reportNumber, report_eq]
  rfl

end Sys2Proof.Machine

open Sys2Proof Sys2Proof.Machine

/-- Settles O60: the Reclaimer's erase by `endErase_reclaimer` with either outcome, the fresh part by `endErase_restored`
with steps 8 to 10 after it. -/
theorem sectorErased : Obligations.SectorErased := by
  intro s hwf hlen hq
  refine ⟨fun n epoch erases passed r hn halone hbarred hrequest hback => ?_, ?_⟩
  · have hexec := exec_sectorEraseComplete r halone
    have hn32 : n < s.table.recs.length := hlen ▸ hn
    by_cases hdone : passed = true ∧ r = .verified
    · obtain ⟨rfl, rfl⟩ := hdone
      rw [endErase_reclaimer (s.array.endHeaderPhase_done n epoch erases) hbarred hrequest hback,
        settleFree_alone halone] at hexec
      case hq => refine quiet_of_engineState hq ?_ ?_ ?_ <;> simp [eraseEnded, modRec, portReleased]
      case hc => simp [eraseEnded, modRec, portReleased]
      have hrec (m : Nat) := recAt_eraseEnded_done (s := (portReleased s).setArray (s.array.putSector n
        (writtenHeader .ready epoch erases))) (epoch := epoch) (erases := erases) hn32 m
      refine ⟨_, hexec, fun c => rfl, fun m hm => ⟨s.array.sectorAt_putSector_other n m _ hm, ?_⟩, ?_⟩
      · exact (hrec m).trans (if_neg hm)
      · refine ⟨rfl, ?_, ?_, ?_, ?_, fun _ _ => ⟨?_, (hrec n).trans (if_pos rfl), ?_, ?_⟩, fun hfailed => ?_⟩
        case refine_5 => exact s.array.sectorAt_putSector_same n _ (by rw [hwf.2.2]; exact hn)
        case refine_8 => simp at hfailed
        all_goals simp [eraseEnded, modRec, portReleased]
    · obtain ⟨x, hx⟩ := s.array.endHeaderPhase_failed n epoch erases hdone
      rw [endErase_reclaimer hx hbarred hrequest hback, settleFree_alone halone] at hexec
      case hq =>
        refine quiet_of_engineState hq ?_ ?_ ?_ <;> simp [eraseEnded, makeWorn, raiseFault, modRec, portReleased]
      case hc => simp [eraseEnded, makeWorn, raiseFault, modRec, portReleased]
      have hrec (m : Nat) := recAt_eraseEnded_failed (s := (portReleased s).setArray (s.array.putSector n x))
        (who := .reclaimer) (epoch := epoch) (erases := erases) hn32 m
      refine ⟨_, hexec, fun c => rfl, fun m hm => ⟨s.array.sectorAt_putSector_other n m _ hm, ?_⟩, ?_⟩
      · exact (hrec m).trans (if_neg hm)
      · refine ⟨rfl, ?_, ?_, ?_, ?_, fun hpassed hverified => absurd ⟨hpassed, hverified⟩ hdone,
          fun _ => ⟨(hrec n).trans (if_pos rfl), ?_, ?_⟩⟩ <;>
        simp [eraseEnded, makeWorn, raiseFault, modRec, portReleased]
  · intro halone hready hqueue hindex hfound hpinned hrecs
    have hlast : 31 < s.table.recs.length := by rw [hlen]; decide
    have hexec := exec_sectorEraseComplete_restore .verified halone
    have hrestored : (modRec 31 (fun r => { r with
        state := .ready, epoch := 1, erases := 0, faulty := [], blank := 0, live := 0, dead := 32,
        faultyCount := 0, role := .none }) s).table.recs = List.replicate 32 restoredRec := by
      refine recs_eq_replicate (by simpa [modRec] using hlen) fun n hn => ?_
      rw [recAt_modRec _ _ _ _ hlast]
      split
      · rw [hpinned]
        rfl
      · exact hrecs n (by omega)
    rw [endErase_restored hready, scanSectors_past, scanAllocation_restored, scanReady_queued, settleFree_alone halone]
      at hexec
    case hq => exact .inl hqueue
    case hi => exact hindex
    case hc => rfl
    · refine ⟨_, hexec, fun c => rfl, fun m hm => s.array.sectorAt_putSector_other 31 m _ hm, ?_, fun m hm => ?_, ?_⟩
      · exact s.array.sectorAt_putSector_same 31 _ (by rw [hwf.2.2]; decide)
      · exact recAt_of_replicate rfl hm
      · refine ⟨?_, ?_, ?_, openSector_queued rfl, ?_, ?_, fun hroom => ?_, fun hfull => ?_, ?_⟩
        case refine_6 => simp [Scanner.reported, hroom]
        case refine_7 => simp [Scanner.reported, Nat.not_lt.mpr hfull]
        all_goals simp [modRec, portReleased, resetScanner, Scanner.reported, hindex]
    · rfl
    · exact hrestored

end
